-- ==== Sys2Proof/Word.lean ====
section
/-! DEFINITION. The value types of the engine: bytes, byte sequences, the 16-bit FCS, the 9-bit wire key. -/

namespace Sys2Proof

/-- A byte is 8 bits, bit 0 the least significant (R10). -/
abbrev Byte := BitVec 8

/-- A byte sequence, index 0 first (R11). -/
abbrev Bytes := List Byte

/-- The CRC register and the Frame Check Sequence are 16 bits wide (R127). -/
abbrev Fcs := BitVec 16

/-- The key `{rx_esc, b}` that classifies a wire byte, mode bit in bit 8 (R88). -/
abbrev WireKey := BitVec 9

end Sys2Proof
end

