-- ==== Sys2Proof/Config.lean ====
section
/-! DEFINITION. The constants the source fixes (R6), the CRC polynomial (R7), the one free value, and the parameters of a run that
the spec leaves open or offers as arguments of a model (R8, R35 and the table "Open parameters in one place" of
92_eei_decisions.md). -/

namespace Sys2Proof.Config

/-- `END`, the frame delimiter (R6). -/
abbrev endByte : Byte := 0xC0#8
/-- `ESC`, the escape introducer (R6). -/
abbrev escByte : Byte := 0xDB#8
/-- `ESC_END`, which stands for `END` after an introducer (R6). -/
abbrev escEnd : Byte := 0xDC#8
/-- `ESC_ESC`, which stands for `ESC` after an introducer (R6). -/
abbrev escEsc : Byte := 0xDD#8

/-- `HDR_LEN` (R6). -/
abbrev hdrLen : Nat := 2
/-- `FCS_LEN` (R6). -/
abbrev fcsLen : Nat := 2
/-- `MAX_PAYLOAD` (R6), also the size of a waiter's payload slot (R29). -/
abbrev maxPayload : Nat := 300
/-- `MAX_FRAME` (R6): header, payload and checksum. -/
abbrev maxFrame : Nat := 304
/-- `MIN_FRAME` (R6): two address bytes and two checksum bytes. -/
abbrev minFrame : Nat := 4
/-- `RXCAP`, the capacity of the accumulation buffer (R6, R21). -/
abbrev rxCap : Nat := 304

/-- `FCS_INIT` (R6). -/
abbrev fcsInit : Fcs := 0xFFFF#16
/-- `FCS_GOOD`, the residual of a correct frame (R6). -/
abbrev fcsGood : Fcs := 0x0F47#16
/-- `FCS_POLY_REFLECTED` (R7). -/
abbrev fcsPoly : Fcs := 0x8408#16

/-- A free value: what the completion bit of a waiter that was never allocated reads as, one for each such read
in a run. R207 reads `W[w].done`; R29 gives a record for allocated ids only. Nothing is known of it (assumption
13, DESIGN CHOICE). -/
opaque unallocatedDone : Nat → Bool

end Sys2Proof.Config

namespace Sys2Proof

/-- What a full buffer refuses (R8, R168, R169). `stallAll` is this hardware's value; `stallAppend` is the
alternative the spec writes out so that a model can take the policy as an argument. -/
inductive FullPolicy where
  | stallAll
  | stallAppend
  deriving DecidableEq, Repr

/-- The guard of `RX.RETURN`: maximal prefix, or any prefix (R170, D3). -/
inductive ReturnGuard where
  | exact
  | anyPrefix
  deriving DecidableEq, Repr

/-- The guard of `EV.EXPIRE`: with the conjunct `done = 0`, or without it (R240, D12). -/
inductive ExpireGuard where
  | whileNotDone
  | always
  deriving DecidableEq, Repr

/-- The parameters of a run (R35): fixed for the machine, never written by any operation. `regCap = none` is
an infinite registry (R8). -/
structure Params where
  regCap      : Option Nat
  fullPolicy  : FullPolicy
  returnGuard : ReturnGuard
  expireGuard : ExpireGuard
  deriving DecidableEq, Repr

/-- The defaults of 92_eei_decisions.md: the values that reproduce the source, and `STALL_ALL`, this hardware's
full-buffer policy. Assumption 2. -/
def Params.default : Params where
  regCap := none
  fullPolicy := .stallAll
  returnGuard := .exact
  expireGuard := .whileNotDone

end Sys2Proof
end

