-- ==== Sys2Proof/Syntax.lean ====
section
/-! DEFINITION. The operations of the engine: one constructor of `Instr` per row of spec/opcode_table.json (R102). -/

namespace Sys2Proof

/-- The handler of a registry entry: a waiter, or an external handler named by an opaque tag (R27). -/
inductive Handler where
  | waiter (w : Nat)
  | ext (tag : Nat)
  deriving DecidableEq, Repr

/-- One operation of the engine with its operands. A constructor of a call agent or of an environment event
carries the call id `c` the step names (R100, R290). -/
inductive Instr where
  -- destuffer: a received wire byte
  | rxbEscEnd
  | rxbEscEsc
  | rxbBadEsc (b : Byte)
  | rxbEnd
  | rxbEsc
  | rxbLit (b : Byte)
  -- stuffer: a raw byte
  | stuffEnd
  | stuffEsc
  | stuffLit (b : Byte)
  -- host commands
  | fcsCompute (data : Bytes)
  | fcsVerify (frame : Bytes)
  | encFrame (dst msg : Byte) (payload : Bytes)
  | encWire (raw : Bytes)
  | rxChunk (data : Bytes)
  | rxReset
  | reg (dst msg : Byte) (hnd : Handler)
  | unreg (eid : Nat)
  | req (dst msg : Byte) (payload : Bytes) (edst emsg : Byte)
  | reset
  -- micro-operations
  | fcsUpdate (crc : Fcs) (data : Bytes)
  | rxReturn
  | frameDone
  | dspScan (dst msg : Byte)
  | dspInvoke
  | hndWaiter (w : Nat) (p : Bytes)
  | hndExt (tag : Nat) (dst msg : Byte) (p : Bytes)
  -- steps of a call, and the environment events that reach one
  | reqBuild (c : Nat)
  | reqRegister (c : Nat)
  | reqEncode (c : Nat)
  | txByte (c : Nat)
  | txDone (c : Nat)
  | evWrfail (c code : Nat)
  | reqWake (c : Nat)
  | evExpire (c : Nat)
  | reqUnreg (c : Nat)
  | reqReturn (c : Nat)
  -- pseudo-operations of the consumers
  | ping
  | getInfo
  deriving DecidableEq, Repr

end Sys2Proof
end

