-- ==== Sys2Proof/WellFormed.lean ====
section
/-! DEFINITION. Which terms of `Instr` are operations of the engine: the operand ranges the spec gives. -/

namespace Sys2Proof

/-- The operand ranges. A literal byte is none of the two specials of its table (R88 rows 3 and 6, R142); a
payload handed to a handler has at most 300 bytes (R207). A request's payload may have any length: a longer one
is refused with `ERR_LEN`, it is not ill-formed (R143, R232). -/
def Instr.wellFormed : Instr → Bool
  | .rxbBadEsc b => b != Config.escEnd && b != Config.escEsc
  | .rxbLit b => b != Config.endByte && b != Config.escByte
  | .stuffLit b => b != Config.endByte && b != Config.escByte
  | .hndWaiter _ p => decide (p.length ≤ Config.maxPayload)
  | .hndExt _ _ _ p => decide (p.length ≤ Config.maxPayload)
  | .rxbEscEnd => true
  | .rxbEscEsc => true
  | .rxbEnd => true
  | .rxbEsc => true
  | .stuffEnd => true
  | .stuffEsc => true
  | .fcsCompute _ => true
  | .fcsVerify _ => true
  | .encFrame _ _ _ => true
  | .encWire _ => true
  | .rxChunk _ => true
  | .rxReset => true
  | .reg _ _ _ => true
  | .unreg _ => true
  | .req _ _ _ _ _ => true
  | .reset => true
  | .fcsUpdate _ _ => true
  | .rxReturn => true
  | .frameDone => true
  | .dspScan _ _ => true
  | .dspInvoke => true
  | .reqBuild _ => true
  | .reqRegister _ => true
  | .reqEncode _ => true
  | .txByte _ => true
  | .txDone _ => true
  | .evWrfail _ _ => true
  | .reqWake _ => true
  | .evExpire _ => true
  | .reqUnreg _ => true
  | .reqReturn _ => true
  | .ping => true
  | .getInfo => true

end Sys2Proof
end

