-- ==== Sys2Proof/Decode.lean ====
section
/-! DEFINITION. From what selects an operation (30_encoding.md) to the operation, and back. Three key spaces:
the wire key `{rx_esc, b}` of the decoder (R88), the raw byte of the encoder (R89), and the command record
`{op, operands}` of the host port (R98). The other operations have no encoding (R99). -/

namespace Sys2Proof

/-- A typed operand of a host command: operands are typed values, not packed into bits (R98). -/
inductive Arg where
  | byte (b : Byte)
  | bytes (bs : Bytes)
  | handler (h : Handler)
  | ident (n : Nat)
  deriving DecidableEq, Repr

/-- What selects an operation that has an encoding. -/
inductive Code where
  | wire (key : WireKey)
  | raw (b : Byte)
  | command (op : Byte) (args : List Arg)
  deriving DecidableEq, Repr

/-- Why a command record is no operation. `unknownCommand` is the `ERR_CMD` case of R98; `badOperands` is a
command number with operands that are not the ones its row lists (assumption 14). -/
inductive Reject where
  | unknownCommand (op : Byte)
  | badOperands (op : Byte)
  deriving DecidableEq, Repr

/-- The rows of the command table (R98). -/
inductive CommandName where
  | fcsCompute | fcsVerify | encFrame | encWire | rxChunk | rxReset | reg | unreg | req | reset
  deriving DecidableEq, Repr

/-- The command numbers (R98). -/
def CommandName.op : CommandName → Byte
  | .fcsCompute => 0x01#8
  | .fcsVerify => 0x02#8
  | .encFrame => 0x03#8
  | .encWire => 0x04#8
  | .rxChunk => 0x05#8
  | .rxReset => 0x06#8
  | .reg => 0x07#8
  | .unreg => 0x08#8
  | .req => 0x09#8
  | .reset => 0x0F#8

/-- The command a number names, if any: every other number is no command (R98). -/
def commandOf (op : Byte) : Option CommandName :=
  if op = 0x01#8 then some .fcsCompute
  else if op = 0x02#8 then some .fcsVerify
  else if op = 0x03#8 then some .encFrame
  else if op = 0x04#8 then some .encWire
  else if op = 0x05#8 then some .rxChunk
  else if op = 0x06#8 then some .rxReset
  else if op = 0x07#8 then some .reg
  else if op = 0x08#8 then some .unreg
  else if op = 0x09#8 then some .req
  else if op = 0x0F#8 then some .reset
  else none

/-- The operand list of each command, in the order of R98's table. -/
def decodeOperands : CommandName → List Arg → Option Instr
  | .fcsCompute, [.bytes data] => some (.fcsCompute data)
  | .fcsVerify, [.bytes frame] => some (.fcsVerify frame)
  | .encFrame, [.byte dst, .byte msg, .bytes payload] => some (.encFrame dst msg payload)
  | .encWire, [.bytes raw] => some (.encWire raw)
  | .rxChunk, [.bytes data] => some (.rxChunk data)
  | .rxReset, [] => some .rxReset
  | .reg, [.byte dst, .byte msg, .handler hnd] => some (.reg dst msg hnd)
  | .unreg, [.ident eid] => some (.unreg eid)
  | .req, [.byte dst, .byte msg, .bytes payload, .byte edst, .byte emsg] =>
      some (.req dst msg payload edst emsg)
  | .reset, [] => some .reset
  | _, _ => none

/-- A command record (R98). -/
def decodeCommand (op : Byte) (args : List Arg) : Except Reject Instr :=
  match commandOf op with
  | none => .error (.unknownCommand op)
  | some name =>
    match decodeOperands name args with
    | none => .error (.badOperands op)
    | some i => .ok i

/-- The mode bit of a wire key (R88: bit 8). -/
def WireKey.esc (key : WireKey) : Bool := key.getLsbD 8

/-- The byte of a wire key (R88: bits 7 to 0). -/
def WireKey.byte (key : WireKey) : Byte := key.extractLsb' 0 8

/-- The key `{rx_esc, b}` (R88). -/
def wireKey (esc : Bool) (b : Byte) : WireKey := BitVec.ofBool esc ++ b

/-- The opcode map of the decoder, its six rows in priority order (R88). -/
def decodeWire (key : WireKey) : Instr :=
  if WireKey.esc key then
    if WireKey.byte key = Config.escEnd then .rxbEscEnd
    else if WireKey.byte key = Config.escEsc then .rxbEscEsc
    else .rxbBadEsc (WireKey.byte key)
  else if WireKey.byte key = Config.endByte then .rxbEnd
  else if WireKey.byte key = Config.escByte then .rxbEsc
  else .rxbLit (WireKey.byte key)

/-- The opcode map of the encoder (R84, R89). -/
def decodeRaw (b : Byte) : Instr :=
  if b = Config.endByte then .stuffEnd
  else if b = Config.escByte then .stuffEsc
  else .stuffLit b

/-- The decoder, total on every selector. -/
def decode : Code → Except Reject Instr
  | .wire key => .ok (decodeWire key)
  | .raw b => .ok (decodeRaw b)
  | .command op args => decodeCommand op args

/-- The encoder, from the tables of R84, R88 and R98. Micro-operations, events and pseudo-operations have no
encoding (R99, R101). -/
def encode : Instr → Option Code
  | .rxbEscEnd => some (.wire (wireKey true Config.escEnd))
  | .rxbEscEsc => some (.wire (wireKey true Config.escEsc))
  | .rxbBadEsc b => some (.wire (wireKey true b))
  | .rxbEnd => some (.wire (wireKey false Config.endByte))
  | .rxbEsc => some (.wire (wireKey false Config.escByte))
  | .rxbLit b => some (.wire (wireKey false b))
  | .stuffEnd => some (.raw Config.endByte)
  | .stuffEsc => some (.raw Config.escByte)
  | .stuffLit b => some (.raw b)
  | .fcsCompute data => some (.command CommandName.fcsCompute.op [.bytes data])
  | .fcsVerify frame => some (.command CommandName.fcsVerify.op [.bytes frame])
  | .encFrame dst msg payload =>
      some (.command CommandName.encFrame.op [.byte dst, .byte msg, .bytes payload])
  | .encWire raw => some (.command CommandName.encWire.op [.bytes raw])
  | .rxChunk data => some (.command CommandName.rxChunk.op [.bytes data])
  | .rxReset => some (.command CommandName.rxReset.op [])
  | .reg dst msg hnd => some (.command CommandName.reg.op [.byte dst, .byte msg, .handler hnd])
  | .unreg eid => some (.command CommandName.unreg.op [.ident eid])
  | .req dst msg payload edst emsg =>
      some (.command CommandName.req.op [.byte dst, .byte msg, .bytes payload, .byte edst, .byte emsg])
  | .reset => some (.command CommandName.reset.op [])
  | .fcsUpdate _ _ => none
  | .rxReturn => none
  | .frameDone => none
  | .dspScan _ _ => none
  | .dspInvoke => none
  | .hndWaiter _ _ => none
  | .hndExt _ _ _ _ => none
  | .reqBuild _ => none
  | .reqRegister _ => none
  | .reqEncode _ => none
  | .txByte _ => none
  | .txDone _ => none
  | .evWrfail _ _ => none
  | .reqWake _ => none
  | .evExpire _ => none
  | .reqUnreg _ => none
  | .reqReturn _ => none
  | .ping => none
  | .getInfo => none

/-- The operands "all zero" of each command: the empty sequence, byte 0, identifier 0, `EXT(0)` (assumption 11). -/
def zeroArgs : CommandName → List Arg
  | .fcsCompute => [.bytes []]
  | .fcsVerify => [.bytes []]
  | .encFrame => [.byte 0#8, .byte 0#8, .bytes []]
  | .encWire => [.bytes []]
  | .rxChunk => [.bytes []]
  | .rxReset => []
  | .reg => [.byte 0#8, .byte 0#8, .handler (.ext 0)]
  | .unreg => [.ident 0]
  | .req => [.byte 0#8, .byte 0#8, .bytes [], .byte 0#8, .byte 0#8]
  | .reset => []

/-- The selector a word of spec/opcode_table.json stands for. A word of 9 to 16 bits is a wire key. A word of 8
bits is a command number if R98 lists it, else a raw byte to be stuffed: the two key spaces share their numbers
(assumption 9). -/
def tableCode (nbits w : Nat) : Option Code :=
  if nbits = 8 ∧ w < 256 then
    match commandOf (BitVec.ofNat 8 w) with
    | some name => some (.command (BitVec.ofNat 8 w) (zeroArgs name))
    | none => some (.raw (BitVec.ofNat 8 w))
  else if 9 ≤ nbits ∧ nbits ≤ 16 ∧ w < 512 then some (.wire (BitVec.ofNat 9 w))
  else none

/-- The instruction the decoder reads from a table word. -/
def decodeTableWord (nbits w : Nat) : Option Instr :=
  match tableCode nbits w with
  | none => none
  | some code =>
    match decode code with
    | .ok i => some i
    | .error _ => none

end Sys2Proof
end

