-- ==== Sys2Proof/Machine/State.lean ====
section
/-! DEFINITION. The state of one engine (R20 to R30) as plain data, the reasons a step can stop, and the state
after reset (R37). Beside the engine's own state stand five fields of the model: the parameters of the run, the
schedule, the event history, the consumers of 45_consumers.md, and the count of free values drawn. -/

namespace Sys2Proof.Machine

/-- A map from natural-number identifiers to values: pairs in strictly rising order of the key. -/
abbrev Table (α : Type) := List (Nat × α)

/-- A byte memory: the cells that hold a value, in strictly rising order of the address. A cell that is not
listed holds no value: the spec calls its contents unspecified (R21, R29; assumptions 5 and 6). -/
abbrev Memory := List Host.Cell

/-- The three sequencing states of the RX agent (R24). -/
inductive RxState where
  | idle
  | run
  | dsp
  deriving DecidableEq, Repr

/-- The dispatch latch's contents (R25). -/
structure Latch where
  hnd : Handler
  dst : Byte
  msg : Byte
  p   : Bytes
  deriving DecidableEq, Repr

/-- A registry entry (R27). -/
structure Entry where
  eid : Nat
  dst : Byte
  msg : Byte
  hnd : Handler
  deriving DecidableEq, Repr

/-- A pending waiter (R29). `slot` is the payload slot, 300 bytes indexed 0 to 299. -/
structure Waiter where
  done : Bool
  plen : Nat
  slot : Memory
  deriving DecidableEq, Repr

/-- The call state `st` (R30, R244). -/
inductive CallState where
  | idle
  | registered
  | completed
  | timedOut
  | wrFailed
  | refused
  deriving DecidableEq, Repr

/-- The phase `ph` of a call (R30). -/
inductive Phase where
  | new
  | built
  | enc
  | send
  | wait
  | unreg
  | ret
  | fin
  deriving DecidableEq, Repr

/-- The code of a refused call (R232, R233). -/
inductive RefuseCode where
  | errLen
  | regFull
  deriving DecidableEq, Repr

/-- The outcome `out` of a call (R30); `undecided` is the spec's `NONE`. The write-error code is an opaque number of the transport (R237). -/
inductive CallOut where
  | undecided
  | completed
  | timedOut
  | wrFailed (code : Nat)
  | refused (code : RefuseCode)
  deriving DecidableEq, Repr

/-- The result of a call (R243). `errLen` carries the offending length (R281). -/
inductive CallResult where
  | ok (p : Bytes)
  | timeout
  | writeErr (code : Nat)
  | errLen (len : Nat)
  | regFull
  deriving DecidableEq, Repr

/-- A call record (R30). -/
structure Call where
  st      : CallState
  ph      : Phase
  dst     : Byte
  msg     : Byte
  payload : Bytes
  edst    : Byte
  emsg    : Byte
  wid     : Option Nat
  eid     : Option Nat
  wire    : Bytes
  cur     : Nat
  out     : CallOut
  res     : Option CallResult
  deriving DecidableEq, Repr

/-- The statuses a command delivers to its invoker other than a value (R281). The statuses of a call are
`CallResult`, those of a consumer `ConsumerResult`. -/
inductive Status where
  | errLen (len : Nat)
  | regFull
  | errCmd (op : Byte)
  deriving DecidableEq, Repr

/-- What a command returns to its invoker (R98, column "result"; R121, R144, R204). -/
inductive Reply where
  | fcs (v : Fcs)
  | bit (b : Bool)
  | bytes (bs : Bytes)
  | entry (e : Option Entry)
  | registered (eid : Nat)
  | status (s : Status)
  deriving DecidableEq, Repr

/-- The diagnostic labels (R283). -/
inductive Diag where
  | badEsc (b : Byte)
  | short (n : Nat)
  | badFcs (dst msg : Byte) (n : Nat)
  deriving DecidableEq, Repr

/-- The two consumers (R270, R271). -/
inductive ConsumerKind where
  | ping
  | getInfo
  deriving DecidableEq, Repr

/-- What a consumer returns to its caller: success with the info bytes (none for `PING`), `PROTO_ERR`, or the
call's own result passed through (R270, R271). -/
inductive ConsumerResult where
  | success (info : Bytes)
  | protoErr
  | passed (r : CallResult)
  deriving DecidableEq, Repr

/-- A consumer waiting on, or finished with, the call it made. -/
structure Consumer where
  kind   : ConsumerKind
  result : Option ConsumerResult
  deriving DecidableEq, Repr

/-- The outputs of the engine (R34): `tx_out`, `diag_out`, `ext_out`, the results of calls; and what commands,
`RX.RETURN` and consumers return to those that invoked them. -/
inductive Event where
  | tx (b : Byte)
  | diag (d : Diag)
  | ext (tag : Nat) (dst msg : Byte) (p : Bytes)
  | callReturn (c : Nat) (r : CallResult)
  | reply (r : Reply)
  | consumed (n : Nat)
  | consumerReturn (c : Nat) (r : ConsumerResult)
  deriving DecidableEq, Repr

/-- One entry of the schedule: which agent takes the next step, and what the environment brings (R9 "program",
R35, R58). `rx` and `call c` let that agent take the step its own state selects; `rxReturn` is the RX agent
choosing `RX.RETURN` where the relaxed guard of R170 leaves it the choice; the others are commands at the host
port, pure operations performed by a user of the codec, environment events, and consumers. Assumption 1. -/
inductive Turn where
  | rx
  | rxReturn
  | call (c : Nat)
  | host (op : Byte) (args : List Arg)
  | stuff (b : Byte)
  | fcsUpdate (crc : Fcs) (data : Bytes)
  | expire (c : Nat)
  | wrFail (c code : Nat)
  | ping
  | getInfo
  deriving DecidableEq, Repr

/-- The state of one engine. -/
structure State where
  /-- `RXBUF`, 304 bytes (R21). -/
  rxbuf     : Memory
  /-- `rx_len`, 0 to 304 (R22). -/
  rxLen     : Nat
  /-- `rx_esc`, one bit (R23). -/
  rxEsc     : Bool
  /-- `rxs` (R24). -/
  rxs       : RxState
  /-- `rx_chunk` (R24). -/
  rxChunk   : Bytes
  /-- `rx_pos` (R24). -/
  rxPos     : Nat
  /-- `dsp`, the dispatch latch (R25). -/
  dsp       : Option Latch
  /-- `REGY`, oldest entry first (R26). -/
  regy      : List Entry
  /-- `next_eid` (R28). -/
  nextEid   : Nat
  /-- `next_wid` (R28). -/
  nextWid   : Nat
  /-- `next_call` (R28). -/
  nextCall  : Nat
  /-- `W` (R29). -/
  waiters   : Table Waiter
  /-- `C` (R30). -/
  calls     : Table Call
  /-- The parameters of the run (R35), written by nothing. -/
  params    : Params
  /-- The schedule still to run (R35). -/
  schedule  : List Turn
  /-- The event history (R34), oldest first; no operation reads it. -/
  history   : List Event
  /-- The consumers, under the id of the call each made (45_consumers.md). -/
  consumers : Table Consumer
  /-- How many free values the run has drawn (assumption 13), also counted on over `RESET`. -/
  draws     : Nat
  deriving DecidableEq, Repr

/-- Why the machine stops. Every one is safe: the hardware either has no step there either, or the state cannot
be reached. -/
inductive Fault where
  /-- Raised by `step` when the schedule is empty: an idle engine has no enabled step (R301, R320). Safe. -/
  | idle
  /-- Raised by every guarded operation whose guard is false: such a step does not exist (R13). Safe. -/
  | noStep
  /-- Raised by a read of a buffer or slot cell whose contents are unspecified (R21, R29). No reachable state
  has one. Safe. -/
  | unspecifiedCell
  /-- Raised by `HND.WAITER` for a payload that does not fit the 300-byte slot (R207 c). No reachable state has
  one. Safe. -/
  | indexRange
  /-- Raised by a call step whose call record lacks the waiter, the entry or the outcome its phase implies
  (R230). No reachable state has one. Safe. -/
  | malformedCall
  deriving DecidableEq, Repr

/-- Why the model gives no meaning. -/
inductive Refusal where
  /-- Raised by `exec` for an instruction not modelled yet. Safe. -/
  | notModelled (mnemonic : String)
  /-- Raised by `step` for a host record whose operands are not those of its command number: it is no command
  of R98 (assumption 14). Safe. -/
  | badOperands (op : Byte)
  deriving DecidableEq, Repr

/-- The state right after reset (R37): every element at its empty value. `RXBUF` lists no cell: its contents
are unspecified. The parameters, the schedule, the history, the consumers and the count of draws are the model's own. -/
def State.reset : State where
  rxbuf := []
  rxLen := 0
  rxEsc := false
  rxs := .idle
  rxChunk := []
  rxPos := 0
  dsp := none
  regy := []
  nextEid := 0
  nextWid := 0
  nextCall := 0
  waiters := []
  calls := []
  params := Params.default
  schedule := []
  history := []
  consumers := []
  draws := 0

end Sys2Proof.Machine
end

