-- ==== Sys2Proof/Machine/Ops.lean ====
section
/-! DEFINITION. The operations the meanings share: tables and byte memories, guards, outputs, the registry, and
the ways a call ends (R294: detection of an error, removal of the entry, return of the status). -/

namespace Sys2Proof.Machine

/-- The outcome of an operation. -/
abbrev Result := Host.Outcome State Fault Refusal

/-! ### Tables and memories -/

/-- The value under a key, if there is one. -/
def Table.lookup {α : Type} : Table α → Nat → Option α
  | [], _ => none
  | (j, v) :: t, k => if j = k then some v else Table.lookup t k

/-- The table with `v` under `k`, every other key as before; keeps the rising order. -/
def Table.set {α : Type} : Table α → Nat → α → Table α
  | [], k, v => [(k, v)]
  | (j, u) :: t, k, v =>
    if k < j then (k, v) :: (j, u) :: t
    else if j = k then (k, v) :: t
    else (j, u) :: Table.set t k v

/-- The canonical form: keys strictly rising. -/
abbrev Table.wf {α : Type} (t : Table α) : Prop := List.Pairwise (fun a b => a.1 < b.1) t

/-- The canonical form of a byte memory: addresses strictly rising. An unlisted address reads as no value, so
no entry can equal it. -/
abbrev Memory.wf (m : Memory) : Prop := Table.wf m

/-- One byte, `MemRead(m + a, 1)` (R12); none where the contents are unspecified. -/
def Memory.read (m : Memory) (a : Nat) : Option Byte := Table.lookup m a

/-- One byte, `MemWrite(m + a, 1, v)` (R12). -/
def Memory.write (m : Memory) (a : Nat) (v : Byte) : Memory := Table.set m a v

/-- The bytes at `a .. a+n`, in index order; none if one of them has no value. -/
def Memory.readBytes (m : Memory) (a : Nat) : Nat → Option Bytes
  | 0 => some []
  | n + 1 =>
    match Memory.read m a, Memory.readBytes m (a + 1) n with
    | some b, some bs => some (b :: bs)
    | _, _ => none

/-- The bytes `bs` written from index `a` on, in index order (R55). -/
def Memory.writeBytes (m : Memory) (a : Nat) : Bytes → Memory
  | [] => m
  | b :: bs => Memory.writeBytes (Memory.write m a b) (a + 1) bs

/-! ### Guards, sequencing, outputs -/

/-- A step whose guard is false does not exist (R13). -/
def whenGuard (g : Prop) [Decidable g] (r : Result) : Result := if g then r else .fault .noStep

/-- The second operation on the state the first left, inside one atomic step (R12). -/
def andThen (r : Result) (f : State → Result) : Result :=
  match r with
  | .next s => f s
  | .fault x => .fault x
  | .refused x => .refused x

/-- An output is appended to the history; no state of the engine changes (R34). -/
def State.emit (s : State) (e : Event) : State := { s with history := s.history ++ [e] }

/-- A command's result or status goes back to its invoker (R12 `return`, `raise`; R98). -/
def State.deliver (s : State) (r : Reply) : State := s.emit (.reply r)

/-! ### The link receive state -/

/-- `rx_pos <- rx_pos + 1`: the byte under the cursor is consumed (R166). -/
def State.advance (s : State) : State := { s with rxPos := s.rxPos + 1 }

/-- The one addressing mode of the decoder (R173): store at `RXBUF + rx_len`, then `rx_len <- rx_len + 1`. -/
def State.append (s : State) (b : Byte) : State :=
  { s with rxbuf := Memory.write s.rxbuf s.rxLen b, rxLen := s.rxLen + 1 }

/-- `rx_len <- 0`: every cell of `RXBUF` is then at or above `rx_len`, so its contents are unspecified (R21). -/
def State.clearBuffer (s : State) : State := { s with rxbuf := [], rxLen := 0 }

/-- `dsp <- SOME(..) ; rxs <- RX_DSP` (R171). -/
def State.latch (s : State) (l : Latch) : State := { s with dsp := some l, rxs := .dsp }

/-- `dsp <- NONE ; rxs <- RX_RUN` (R205). -/
def State.unlatch (s : State) : State := { s with dsp := none, rxs := .run }

/-! ### The registry -/

/-- An entry matches an address pair when both bytes are equal; nothing else is looked at (R203). -/
def Entry.matchesPair (e : Entry) (dst msg : Byte) : Bool := e.dst == dst && e.msg == msg

/-- The first match in registration order (R204). -/
def scan (regy : List Entry) (dst msg : Byte) : Option Entry := regy.find? (fun e => e.matchesPair dst msg)

/-- `len(REGY) >= REG_CAP`; never so when the capacity is infinite (R201). -/
def State.registryFull (s : State) : Bool :=
  match s.params.regCap with
  | none => false
  | some cap => decide (cap ≤ s.regy.length)

/-- The entry a registration makes now: its id is drawn from `next_eid` (R28, R201). -/
def State.newEntry (s : State) (dst msg : Byte) (hnd : Handler) : Entry := ⟨s.nextEid, dst, msg, hnd⟩

/-- `REG` when the registry has room: the entry goes to the end, `next_eid` grows by one (R201). -/
def State.register (s : State) (dst msg : Byte) (hnd : Handler) : State :=
  { s with regy := s.regy ++ [s.newEntry dst msg hnd], nextEid := s.nextEid + 1 }

/-- `UNREG`: the entry with this id is removed, the others keep their order; no such entry, no change (R202). -/
def State.unregister (s : State) (eid : Nat) : State :=
  { s with regy := s.regy.filter (fun e => e.eid != eid) }

/-! ### Waiters and calls -/

/-- `W[w] <- v`. -/
def State.setWaiter (s : State) (w : Nat) (v : Waiter) : State := { s with waiters := Table.set s.waiters w v }

/-- A waiter as it is built: not done, no payload, slot contents unspecified (R29, R232). -/
def Waiter.fresh : Waiter := ⟨false, 0, []⟩

/-- `W[w]` as `HND.WAITER` reads it. For an id without a record, which was never allocated, the completion bit is
the run's next free value (assumption 13). -/
def State.waiterAt (s : State) (w : Nat) : Waiter :=
  match Table.lookup s.waiters w with
  | some v => v
  | none => ⟨Config.unallocatedDone s.draws, 0, []⟩

/-- The free value such a read takes is used up (assumption 13). -/
def State.noteDraw (s : State) (w : Nat) : State :=
  { s with draws := if (Table.lookup s.waiters w).isSome then s.draws else s.draws + 1 }

/-- `W[w]` once completed with payload `p` (R207). -/
def Waiter.complete (v : Waiter) (p : Bytes) : Waiter := ⟨true, p.length, Memory.writeBytes v.slot 0 p⟩

/-- `C[c] <- k`. -/
def State.setCall (s : State) (c : Nat) (k : Call) : State := { s with calls := Table.set s.calls c k }

/-- A step of call `c` in phase `ph`: it exists only if the call does and is in that phase (R230). -/
def inPhase (s : State) (c : Nat) (ph : Phase) (f : Call → Result) : Result :=
  match Table.lookup s.calls c with
  | none => .fault .noStep
  | some k => whenGuard (k.ph = ph) (f k)

/-- The completion bit of the call's waiter, if it has one (R29). -/
def State.doneBit (s : State) (k : Call) : Option Bool :=
  match k.wid with
  | none => none
  | some w => (Table.lookup s.waiters w).map Waiter.done

/-- A new call (R231). The caller is blocked until it returns. -/
def Call.fresh (dst msg : Byte) (payload : Bytes) (edst emsg : Byte) : Call where
  st := .idle
  ph := .new
  dst := dst
  msg := msg
  payload := payload
  edst := edst
  emsg := emsg
  wid := none
  eid := none
  wire := []
  cur := 0
  out := .undecided
  res := none

/-- `REQ` (R231): the call id is drawn from `next_call`. -/
def State.startCall (s : State) (dst msg : Byte) (payload : Bytes) (edst emsg : Byte) : State :=
  { s.setCall s.nextCall (Call.fresh dst msg payload edst emsg) with nextCall := s.nextCall + 1 }

/-- The call stops sending or waiting with this outcome; its entry is removed next (R237, R239, R240, R294). -/
def Call.endWith (k : Call) (out : CallOut) : Call := { k with out := out, ph := .unreg }

/-- The call was not admitted: it returns at once (R232, R233). -/
def Call.refuse (k : Call) (code : RefuseCode) : Call :=
  { k with out := .refused code, st := .refused, ph := .ret }

/-- The terminal state an outcome leads to at `REQ.UNREG` (R241). -/
def CallOut.terminal : CallOut → Option CallState
  | .completed => some .completed
  | .timedOut => some .timedOut
  | .wrFailed _ => some .wrFailed
  | .refused _ => none
  | .undecided => none

/-! ### Numeric codes -/

/-- The status code of a call's result (R281). -/
def CallResult.code : CallResult → Nat
  | .ok _ => 0
  | .timeout => 1
  | .writeErr _ => 2
  | .errLen _ => 4
  | .regFull => 5

/-- The status code of a command's refusal (R281). -/
def Status.code : Status → Nat
  | .errLen _ => 4
  | .regFull => 5
  | .errCmd _ => 6

/-- The status code of a consumer's result: `PROTO_ERR` is 3 and a call's own result keeps its code (R281). R281
has no row for a consumer's `SUCCESS`: that it is 0, the number of `OK`, is DESIGN CHOICE (assumption 26). -/
def ConsumerResult.code : ConsumerResult → Nat
  | .success _ => 0
  | .protoErr => 3
  | .passed r => r.code

/-- The code of a diagnostic label (R283). -/
def Diag.code : Diag → Nat
  | .badEsc _ => 1
  | .short _ => 2
  | .badFcs _ _ _ => 3

end Sys2Proof.Machine
end

