-- ==== Sys2Proof/Machine/Operands.lean ====
section
/-! DEFINITION. The operand forms: how the next wire byte is read and classified (R88, R166), the room the buffer
must have (R166, R168, R169), and how a raw frame is assembled from its fields and taken apart (R80, R81). -/

namespace Sys2Proof.Machine

/-- The byte under the chunk cursor, if one is left (R166). -/
def State.nextByte (s : State) : Option Byte := s.rxChunk[s.rxPos]?

/-- The buffer admits an operation: under `STALL_ALL` only while it is not full (R166, R168); under
`STALL_APPEND` also then, if the operation appends nothing (R169). -/
abbrev State.roomFor (s : State) (appends : Bool) : Prop :=
  s.rxLen < Config.rxCap ∨ (s.params.fullPolicy = .stallAppend ∧ appends = false)

/-- The common guard of a byte step that consumes `b` with the mode bit `esc` (R166 and the second half of each
guard in R160 to R164 and R167). -/
abbrev State.takes (s : State) (esc : Bool) (b : Byte) (appends : Bool) : Prop :=
  s.rxs = .run ∧ s.nextByte = some b ∧ s.roomFor appends ∧ s.rxEsc = esc

/-- Whether the operation a wire byte selects appends a raw byte (R169). -/
def Instr.appends : Instr → Bool
  | .rxbLit _ => true
  | .rxbEscEnd => true
  | .rxbEscEsc => true
  | _ => false

/-- The operation R88 selects for the byte under the cursor, if there is one. -/
def State.nextWireOp (s : State) : Option Instr := s.nextByte.map (fun b => decodeWire (wireKey s.rxEsc b))

/-- The guard of `RX.RETURN` (R170; under `STALL_APPEND` R169; relaxed R170 and D3). -/
def State.mayReturn (s : State) : Bool :=
  s.rxs == .run &&
    match s.params.returnGuard with
    | .anyPrefix => true
    | .exact =>
      s.rxPos == s.rxChunk.length ||
        (s.rxLen == Config.rxCap &&
          match s.params.fullPolicy with
          | .stallAll => true
          | .stallAppend => (s.nextWireOp.map Instr.appends).getD false)

/-- `[fcs[7:0], fcs[15:8]]`: the checksum's bytes, little-endian (R52, R81). -/
def fcsBytes (v : Fcs) : Bytes := [v.extractLsb' 0 8, v.extractLsb' 8 8]

/-- The payload of a raw frame after its two address bytes: all but the last two bytes (R81). -/
def framePayload (rest : Bytes) : Bytes := rest.take (rest.length - Config.fcsLen)

end Sys2Proof.Machine
end

