-- ==== Sys2Proof/Machine/Flags.lean ====
section
/-! DEFINITION. The one-bit state elements (R32): `rx_esc` and each waiter's `done`; and the two derived conditions
used like flags, which are not stored. -/

namespace Sys2Proof.Machine

/-- `rx_esc <- 1`, by `RXB.ESC` only (R23, R161). -/
def State.setEsc (s : State) : State := { s with rxEsc := true }

/-- `rx_esc <- 0`, by `RXB.ESC_END`, `RXB.ESC_ESC`, `RXB.BADESC` and the resets (R23). -/
def State.clearEsc (s : State) : State := { s with rxEsc := false }

/-- Stalled: `rx_len = RXCAP`, derived (R22, R32, R168). -/
abbrev State.stalled (s : State) : Prop := s.rxLen = Config.rxCap

/-- Dispatch pending: `dsp != NONE`, derived (R32). -/
abbrev State.dispatchPending (s : State) : Prop := s.dsp.isSome = true

/-- The waiter of the call has been completed (guard of `REQ.WAKE`, R239). -/
abbrev State.callDone (s : State) (k : Call) : Prop := s.doneBit k = some true

/-- The deadline may expire: `done = 0`, or without that conjunct where the run's parameter drops it (R240). -/
abbrev State.mayExpire (s : State) (k : Call) : Prop :=
  s.params.expireGuard = .always ∨ s.doneBit k = some false

end Sys2Proof.Machine
end

