-- ==== Sys2Proof/Machine/Fcs.lean ====
section
/-! DEFINITION. The Frame Check Sequence unit (40_fcs.md). -/

namespace Sys2Proof.Machine

/-- One turn of the shift loop of R120. -/
def crcShift (c : Fcs) : Fcs := if c.getLsbD 0 then (c >>> 1) ^^^ Config.fcsPoly else c >>> 1

/-- The shift loop, `n` turns (R120). -/
def crcShifts : Nat → Fcs → Fcs
  | 0, c => c
  | n + 1, c => crcShifts n (crcShift c)

/-- `crc_byte(c, b)`: the byte meets the low half of the register, then eight shifts (R120). -/
def crcByte (c : Fcs) (b : Byte) : Fcs := crcShifts 8 (c ^^^ b.setWidth 16)

/-- `FCS.UPDATE(c, data)` (R121). -/
def fcsUpdate (c : Fcs) : Bytes → Fcs
  | [] => c
  | b :: bs => fcsUpdate (crcByte c b) bs

/-- `FCS.COMPUTE(data)` (R123). -/
def fcsCompute (data : Bytes) : Fcs := ~~~(fcsUpdate Config.fcsInit data)

/-- `FCS.VERIFY(frame)` (R124): the complemented register of the whole frame is the residual. -/
def fcsVerify (frame : Bytes) : Bool := fcsCompute frame == Config.fcsGood

/-- `FCS.UPDATE` (R121): pure; the running value goes back to the user that holds it. -/
def execFcsUpdate (crc : Fcs) (data : Bytes) (s : State) : Result := .next (s.deliver (.fcs (fcsUpdate crc data)))

/-- `FCS.COMPUTE` (R123): pure. -/
def execFcsCompute (data : Bytes) (s : State) : Result := .next (s.deliver (.fcs (fcsCompute data)))

/-- `FCS.VERIFY` (R124): pure and total. -/
def execFcsVerify (frame : Bytes) (s : State) : Result := .next (s.deliver (.bit (fcsVerify frame)))

end Sys2Proof.Machine
end

