-- ==== Sys2Proof/Machine/Stuffer.lean ====
section
/-! DEFINITION. The byte-stuffer encoder (41_stuffer.md). -/

namespace Sys2Proof.Machine

/-- `stuff(b)` (R84, R144): the wire image of one raw byte. -/
def stuff (b : Byte) : Bytes :=
  if b = Config.endByte then [Config.escByte, Config.escEnd]
  else if b = Config.escByte then [Config.escByte, Config.escEsc]
  else [b]

/-- `stuff_seq(s)` (R144). -/
def stuffSeq : Bytes → Bytes
  | [] => []
  | b :: bs => stuff b ++ stuffSeq bs

/-- `ENC.WIRE(raw)` (R145). -/
def encWire (raw : Bytes) : Bytes := Config.endByte :: (stuffSeq raw ++ [Config.endByte])

/-- `ENC.FRAME(dst, msg, payload)` for a payload that fits (R81, R143): header, payload, checksum. -/
def frameOf (dst msg : Byte) (payload : Bytes) : Bytes :=
  dst :: msg :: (payload ++ fcsBytes (fcsCompute (dst :: msg :: payload)))

/-- `STUFF.END` (R140). -/
def execStuffEnd (s : State) : Result := .next (s.deliver (.bytes [Config.escByte, Config.escEnd]))

/-- `STUFF.ESC` (R141). -/
def execStuffEsc (s : State) : Result := .next (s.deliver (.bytes [Config.escByte, Config.escEsc]))

/-- `STUFF.LIT` (R142): guard `b` is neither `END` nor `ESC`. -/
def execStuffLit (b : Byte) (s : State) : Result :=
  whenGuard (b ≠ Config.endByte ∧ b ≠ Config.escByte) (.next (s.deliver (.bytes [b])))

/-- `ENC.FRAME` (R143): refused with `ERR_LEN` when the payload is too long, else the raw frame. -/
def execEncFrame (dst msg : Byte) (payload : Bytes) (s : State) : Result :=
  if payload.length > Config.maxPayload then .next (s.deliver (.status (.errLen payload.length)))
  else .next (s.deliver (.bytes (frameOf dst msg payload)))

/-- `ENC.WIRE` (R145): pure and total. -/
def execEncWire (raw : Bytes) (s : State) : Result := .next (s.deliver (.bytes (encWire raw)))

end Sys2Proof.Machine
end

