-- ==== Sys2Proof/Machine/Registry.lean ====
section
/-! DEFINITION. The frame dispatcher registry and its handlers (43_dispatcher.md). -/

namespace Sys2Proof.Machine

/-- The test-and-set of `HND.WAITER` (R63, R207): an open waiter takes the payload, its length and `done` in one
step; a completed one is left alone. -/
def completeWaiter (w : Nat) (p : Bytes) (s : State) : Result :=
  if (s.waiterAt w).done then .next (s.noteDraw w)
  else if p.length > Config.maxPayload then .fault .indexRange
  else .next ((s.noteDraw w).setWaiter w ((s.waiterAt w).complete p))

/-- The handler of a latched frame (R205). -/
def runHandler (l : Latch) (s : State) : Result :=
  match l.hnd with
  | .waiter w => completeWaiter w l.p s
  | .ext tag => .next (s.emit (.ext tag l.dst l.msg l.p))

/-- `REG` (R201): refused with `REG_FULL` when no place is left, else the new entry's id. The handler is entered
as it is given; its waiter is not looked at (assumption 13). -/
def execReg (dst msg : Byte) (hnd : Handler) (s : State) : Result :=
  if s.registryFull then .next (s.deliver (.status .regFull))
  else .next ((s.register dst msg hnd).deliver (.registered s.nextEid))

/-- `UNREG` (R202): no guard, no status. -/
def execUnreg (eid : Nat) (s : State) : Result := .next (s.unregister eid)

/-- `DSP.SCAN` (R204): reads the whole registry, returns the first match. -/
def execDspScan (dst msg : Byte) (s : State) : Result := .next (s.deliver (.entry (scan s.regy dst msg)))

/-- `DSP.INVOKE` (R205): the latched frame's handler runs, then the latch is empty and decoding goes on. -/
def execDspInvoke (s : State) : Result :=
  whenGuard (s.rxs = .dsp)
    (match s.dsp with
      | none => .fault .noStep
      | some l => andThen (runHandler l s) (fun t => .next t.unlatch))

/-- `HND.WAITER` (R207). -/
def execHndWaiter (w : Nat) (p : Bytes) (s : State) : Result := completeWaiter w p s

/-- `HND.EXT` (R208): the frame goes to the outside; no state of the engine changes. -/
def execHndExt (tag : Nat) (dst msg : Byte) (p : Bytes) (s : State) : Result :=
  .next (s.emit (.ext tag dst msg p))

end Sys2Proof.Machine
end

