-- ==== Sys2Proof/Machine/Assembler.lean ====
section
/-! DEFINITION. The incremental frame reassembler: chunks and frame completion (42_destuffer_assembler.md), and
`RX.RESET` (70_reset_and_hazards.md). -/

namespace Sys2Proof.Machine

/-- A frame that passed length and checksum is matched (R171, R204): a match is latched, no match is dropped. -/
def dispatchFrame (dst msg : Byte) (p : Bytes) (s : State) : State :=
  match scan s.regy dst msg with
  | none => s
  | some e => s.latch ⟨e.hnd, dst, msg, p⟩

/-- `FRAME.DONE` (R171): the length test, then the checksum, then matching; the buffer is cleared in every case.
A short frame is discarded without looking at its bytes. -/
def frameDone (s : State) : Result :=
  if s.rxLen < Config.minFrame then .next (s.emit (.diag (.short s.rxLen))).clearBuffer
  else
    match Memory.readBytes s.rxbuf 0 s.rxLen with
    | some (dst :: msg :: rest) =>
      if fcsVerify (dst :: msg :: rest) then
        .next (dispatchFrame dst msg (framePayload rest) s).clearBuffer
      else .next (s.emit (.diag (.badFcs dst msg s.rxLen))).clearBuffer
    | _ => .fault .unspecifiedCell

/-- `RX.CHUNK` (R165): accepted only between chunks. -/
def execRxChunk (data : Bytes) (s : State) : Result :=
  whenGuard (s.rxs = .idle) (.next { s with rxChunk := data, rxPos := 0, rxs := .run })

/-- `RX.RETURN` (R170): the number of bytes consumed goes back to the invoker of `RX.CHUNK`. -/
def execRxReturn (s : State) : Result :=
  whenGuard (s.mayReturn = true) (.next { s.emit (.consumed s.rxPos) with rxs := .idle })

/-- `FRAME.DONE` (R171): guard `rx_len > 0`. -/
def execFrameDone (s : State) : Result := whenGuard (0 < s.rxLen) (frameDone s)

/-- `RX.RESET` (R323): accepted only between chunks; the registry, waiters, calls and counters stay. -/
def execRxReset (s : State) : Result :=
  whenGuard (s.rxs = .idle)
    (.next { s.clearBuffer.clearEsc with rxs := .idle, rxChunk := [], rxPos := 0, dsp := none })

end Sys2Proof.Machine
end

