-- ==== Sys2Proof/Machine/Destuffer.lean ====
section
/-! DEFINITION. The byte-destuffer decoder: the six wire-byte operations (42_destuffer_assembler.md, R160 to R167). -/

namespace Sys2Proof.Machine

/-- `RXB.END` (R160): a non-empty buffer is a completed frame; an empty one makes this a no-op. -/
def execRxbEnd (s : State) : Result :=
  whenGuard (s.takes false Config.endByte false)
    (if 0 < s.rxLen then andThen (frameDone s) (fun t => .next t.advance) else .next s.advance)

/-- `RXB.ESC` (R161): the introducer is remembered, nothing is appended. -/
def execRxbEsc (s : State) : Result :=
  whenGuard (s.takes false Config.escByte false) (.next s.setEsc.advance)

/-- `RXB.LIT` (R162): the byte itself is appended. -/
def execRxbLit (b : Byte) (s : State) : Result :=
  whenGuard (s.takes false b true ∧ b ≠ Config.endByte ∧ b ≠ Config.escByte) (.next (s.append b).advance)

/-- `RXB.ESC_END` (R163): a data byte `0xC0` is appended. -/
def execRxbEscEnd (s : State) : Result :=
  whenGuard (s.takes true Config.escEnd true) (.next (s.append Config.endByte).clearEsc.advance)

/-- `RXB.ESC_ESC` (R164): a data byte `0xDB` is appended. -/
def execRxbEscEsc (s : State) : Result :=
  whenGuard (s.takes true Config.escEsc true) (.next (s.append Config.escByte).clearEsc.advance)

/-- `RXB.BADESC` (R167): the byte is dropped with a label, `END` and `ESC` among them. -/
def execRxbBadEsc (b : Byte) (s : State) : Result :=
  whenGuard (s.takes true b false ∧ b ≠ Config.escEnd ∧ b ≠ Config.escEsc)
    (.next (s.emit (.diag (.badEsc b))).clearEsc.advance)

end Sys2Proof.Machine
end

