-- ==== Sys2Proof/Machine/Arbiter.lean ====
section
/-! DEFINITION. The request/response arbiter: the steps of a call and the events that reach it (44_arbiter.md);
and the check a consumer makes when its call's result is delivered (45_consumers.md). -/

namespace Sys2Proof.Machine

/-- The consumer's check of its call's result (R270, R271). -/
def ConsumerKind.check : ConsumerKind → CallResult → ConsumerResult
  | .ping, .ok p => if 1 ≤ p.length ∧ p[0]? = some 0x00#8 then .success [] else .protoErr
  | .getInfo, .ok p =>
    if 10 ≤ p.length ∧ p[0]? = some 0x00#8 then .success ((p.drop 1).take 9) else .protoErr
  | _, r => .passed r

/-- Delivery to the caller (R242). Where the caller is a consumer that still waits, its check runs in the same
step (assumption 17). -/
def deliverResult (c : Nat) (r : CallResult) (s : State) : State :=
  match Table.lookup s.consumers c with
  | some ⟨kind, none⟩ =>
    { (s.emit (.callReturn c r)).emit (.consumerReturn c (kind.check r)) with
      consumers := Table.set s.consumers c ⟨kind, some (kind.check r)⟩ }
  | _ => s.emit (.callReturn c r)

/-- `REQ` (R231): no guard; a new call record. -/
def execReq (dst msg : Byte) (payload : Bytes) (edst emsg : Byte) (s : State) : Result :=
  .next (s.startCall dst msg payload edst emsg)

/-- `REQ.BUILD` (R232): the length test comes before anything is built. -/
def execReqBuild (c : Nat) (s : State) : Result :=
  inPhase s c .new fun k =>
    if k.payload.length > Config.maxPayload then .next (s.setCall c (k.refuse .errLen))
    else
      .next ({ s.setWaiter s.nextWid Waiter.fresh with nextWid := s.nextWid + 1 }.setCall c
        { k with wid := some s.nextWid, ph := .built })

/-- `REQ.REGISTER` (R233): the entry is in the registry before any byte of the request is sent. -/
def execReqRegister (c : Nat) (s : State) : Result :=
  inPhase s c .built fun k =>
    match k.wid with
    | none => .fault .malformedCall
    | some w =>
      if s.registryFull then .next (s.setCall c (k.refuse .regFull))
      else
        .next ((s.register k.edst k.emsg (.waiter w)).setCall c
          { k with eid := some s.nextEid, st := .registered, ph := .enc })

/-- `REQ.ENCODE` (R234). -/
def execReqEncode (c : Nat) (s : State) : Result :=
  inPhase s c .enc fun k =>
    .next (s.setCall c { k with wire := encWire (frameOf k.dst k.msg k.payload), cur := 0, ph := .send })

/-- `TX.BYTE` (R235): one wire byte goes out. -/
def execTxByte (c : Nat) (s : State) : Result :=
  inPhase s c .send fun k =>
    match k.wire[k.cur]? with
    | none => .fault .noStep
    | some b => .next ((s.emit (.tx b)).setCall c { k with cur := k.cur + 1 })

/-- `TX.DONE` (R236): the write has succeeded. -/
def execTxDone (c : Nat) (s : State) : Result :=
  inPhase s c .send fun k =>
    whenGuard (k.cur = k.wire.length) (.next (s.setCall c { k with ph := .wait }))

/-- `EV.WRFAIL` (R237): at any point of the transmission; the failure wins over a completion. -/
def execEvWrfail (c code : Nat) (s : State) : Result :=
  inPhase s c .send fun k => .next (s.setCall c (k.endWith (.wrFailed code)))

/-- `REQ.WAKE` (R239): the completion signal has fired. -/
def execReqWake (c : Nat) (s : State) : Result :=
  inPhase s c .wait fun k => whenGuard (s.callDone k) (.next (s.setCall c (k.endWith .completed)))

/-- `EV.EXPIRE` (R240): the deadline elapses; completion has priority. -/
def execEvExpire (c : Nat) (s : State) : Result :=
  inPhase s c .wait fun k => whenGuard (s.mayExpire k) (.next (s.setCall c (k.endWith .timedOut)))

/-- `REQ.UNREG` (R241): the call's entry leaves the registry, whatever the outcome. -/
def execReqUnreg (c : Nat) (s : State) : Result :=
  inPhase s c .unreg fun k =>
    match k.eid, k.out.terminal with
    | some e, some st => .next ((s.unregister e).setCall c { k with st := st, ph := .ret })
    | _, _ => .fault .malformedCall

/-- The result an outcome stands for (R242); a completed call's payload is read from its waiter's slot. -/
def callResult (s : State) (k : Call) : Option CallResult :=
  match k.out with
  | .undecided => none
  | .completed =>
    match k.wid with
    | none => none
    | some w =>
      match Table.lookup s.waiters w with
      | none => none
      | some v => (Memory.readBytes v.slot 0 v.plen).map .ok
  | .timedOut => some .timeout
  | .wrFailed code => some (.writeErr code)
  | .refused .errLen => some (.errLen k.payload.length)
  | .refused .regFull => some .regFull

/-- `REQ.RETURN` (R242): the result is recorded and delivered; the call is over. -/
def execReqReturn (c : Nat) (s : State) : Result :=
  inPhase s c .ret fun k =>
    match callResult s k with
    | none => .fault .malformedCall
    | some r => .next (deliverResult c r (s.setCall c { k with res := some r, ph := .fin }))

end Sys2Proof.Machine
end

