-- ==== Sys2Proof/Machine/Consumers.lean ====
section
/-! DEFINITION. The illustrative consumers (45_consumers.md): each makes one request; its check runs when the
call's result is delivered. They are no part of the engine. -/

namespace Sys2Proof.Machine

/-- A consumer makes its request and waits on the call it created (R270, R271). -/
def startConsumer (kind : ConsumerKind) (dst msg edst emsg : Byte) (s : State) : State :=
  { s.startCall dst msg [] edst emsg with consumers := Table.set s.consumers s.nextCall ⟨kind, none⟩ }

/-- `PING` (R270): `REQ(01, 01, [], 01, 02)`. -/
def execPing (s : State) : Result := .next (startConsumer .ping 0x01#8 0x01#8 0x01#8 0x02#8 s)

/-- `GETINFO` (R271): `REQ(01, 03, [], 01, 04)`. -/
def execGetInfo (s : State) : Result := .next (startConsumer .getInfo 0x01#8 0x03#8 0x01#8 0x04#8 s)

end Sys2Proof.Machine
end

