-- ==== Sys2Proof/Machine/System.lean ====
section
/-! DEFINITION. `RESET` (70_reset_and_hazards.md, R320, R321). -/

namespace Sys2Proof.Machine

/-- `RESET` (R320): every state element takes its value of R37, whatever was in progress (R321). The parameters
of the run, the rest of the schedule and the history of outputs are no state of the engine and stay (R34, R35),
and so does the count of draws, lest a free value be drawn twice (assumptions 2, 3, 13); consumers wait on calls
that exist no more and go with them (assumption 16). -/
def execReset (s : State) : Result :=
  .next { State.reset with params := s.params, schedule := s.schedule, history := s.history, draws := s.draws }

end Sys2Proof.Machine
end

