-- ==== Sys2Proof/Machine/Fetch.lean ====
section
/-! DEFINITION. What the next step is: the schedule names an agent, and the agent's state or the command at the
host port selects the operation (R58, R88, R98, R166, R230). -/

namespace Sys2Proof.Machine

/-- The RX agent's next step (R165, R166, R170, R205): while a dispatch is pending, the handler; in a chunk, the
byte under the cursor if the buffer admits its operation, else the return of the chunk. -/
def rxNext (s : State) : Option Instr :=
  match s.rxs with
  | .idle => none
  | .dsp => some .dspInvoke
  | .run =>
    match s.nextWireOp with
    | none => some .rxReturn
    | some i => if s.roomFor (Instr.appends i) then some i else some .rxReturn

/-- The next step of call `c`, from its phase (R230). -/
def callNext (s : State) (c : Nat) : Option Instr :=
  match Table.lookup s.calls c with
  | none => none
  | some k =>
    match k.ph with
    | .new => some (.reqBuild c)
    | .built => some (.reqRegister c)
    | .enc => some (.reqEncode c)
    | .send => if k.cur < k.wire.length then some (.txByte c) else some (.txDone c)
    | .wait => some (.reqWake c)
    | .unreg => some (.reqUnreg c)
    | .ret => some (.reqReturn c)
    | .fin => none

/-- What a turn brings: an operation to perform, a host number that is no command, a host record whose operands
are not its command's, or no step at all. -/
inductive Selection where
  | op (i : Instr)
  | errCmd (op : Byte)
  | badOperands (op : Byte)
  | noStep
  deriving DecidableEq, Repr

/-- A command record at the host port, decoded (R98). -/
def hostSelect (op : Byte) (args : List Arg) : Selection :=
  match decode (.command op args) with
  | .ok i => .op i
  | .error (.unknownCommand n) => .errCmd n
  | .error (.badOperands n) => .badOperands n

/-- An agent's choice of step. -/
def agentSelect : Option Instr → Selection
  | some i => .op i
  | none => .noStep

/-- The operation a turn performs. -/
def select (s : State) : Turn → Selection
  | .rx => agentSelect (rxNext s)
  | .rxReturn => .op .rxReturn
  | .call c => agentSelect (callNext s c)
  | .host op args => hostSelect op args
  | .stuff b => .op (decodeRaw b)
  | .fcsUpdate crc data => .op (.fcsUpdate crc data)
  | .expire c => .op (.evExpire c)
  | .wrFail c code => .op (.evWrfail c code)
  | .ping => .op .ping
  | .getInfo => .op .getInfo

/-- A number that is no command is refused with `ERR_CMD`; no state of the engine changes (R90, R98). -/
def rejectCommand (op : Byte) (s : State) : State := s.deliver (.status (.errCmd op))

/-- The state in which the very next step runs the operation this selector stands for (assumption 10). A wire
key becomes a one-byte chunk in progress with that mode bit, in a buffer that has room; a raw byte or a command
becomes the head of the schedule. -/
def placeCode (s : State) : Code → State
  | .wire key =>
    { (if s.rxLen < Config.rxCap then s else s.clearBuffer) with
      rxEsc := WireKey.esc key
      rxs := .run
      rxChunk := [WireKey.byte key]
      rxPos := 0
      dsp := none
      schedule := .rx :: s.schedule }
  | .raw b => { s with schedule := .stuff b :: s.schedule }
  | .command op args => { s with schedule := .host op args :: s.schedule }

end Sys2Proof.Machine
end

