-- ==== Sys2Proof/Machine/Dispatch.lean ====
section
/-! DEFINITION. The meaning of every operation, one arm a constructor. -/

namespace Sys2Proof.Machine

def exec (i : Instr) (s : State) : Host.Outcome State Fault Refusal :=
  match i with
  -- destuffer
  | .rxbEscEnd => Sys2Proof.Machine.execRxbEscEnd s
  | .rxbEscEsc => Sys2Proof.Machine.execRxbEscEsc s
  | .rxbBadEsc b => Sys2Proof.Machine.execRxbBadEsc b s
  | .rxbEnd => Sys2Proof.Machine.execRxbEnd s
  | .rxbEsc => Sys2Proof.Machine.execRxbEsc s
  | .rxbLit b => Sys2Proof.Machine.execRxbLit b s
  -- stuffer
  | .stuffEnd => Sys2Proof.Machine.execStuffEnd s
  | .stuffEsc => Sys2Proof.Machine.execStuffEsc s
  | .stuffLit b => Sys2Proof.Machine.execStuffLit b s
  -- host commands
  | .fcsCompute data => Sys2Proof.Machine.execFcsCompute data s
  | .fcsVerify frame => Sys2Proof.Machine.execFcsVerify frame s
  | .encFrame dst msg payload => Sys2Proof.Machine.execEncFrame dst msg payload s
  | .encWire raw => Sys2Proof.Machine.execEncWire raw s
  | .rxChunk data => Sys2Proof.Machine.execRxChunk data s
  | .rxReset => Sys2Proof.Machine.execRxReset s
  | .reg dst msg hnd => Sys2Proof.Machine.execReg dst msg hnd s
  | .unreg eid => Sys2Proof.Machine.execUnreg eid s
  | .req dst msg payload edst emsg => Sys2Proof.Machine.execReq dst msg payload edst emsg s
  | .reset => Sys2Proof.Machine.execReset s
  -- micro-operations
  | .fcsUpdate crc data => Sys2Proof.Machine.execFcsUpdate crc data s
  | .rxReturn => Sys2Proof.Machine.execRxReturn s
  | .frameDone => Sys2Proof.Machine.execFrameDone s
  | .dspScan dst msg => Sys2Proof.Machine.execDspScan dst msg s
  | .dspInvoke => Sys2Proof.Machine.execDspInvoke s
  | .hndWaiter w p => Sys2Proof.Machine.execHndWaiter w p s
  | .hndExt tag dst msg p => Sys2Proof.Machine.execHndExt tag dst msg p s
  -- calls and events
  | .reqBuild c => Sys2Proof.Machine.execReqBuild c s
  | .reqRegister c => Sys2Proof.Machine.execReqRegister c s
  | .reqEncode c => Sys2Proof.Machine.execReqEncode c s
  | .txByte c => Sys2Proof.Machine.execTxByte c s
  | .txDone c => Sys2Proof.Machine.execTxDone c s
  | .evWrfail c code => Sys2Proof.Machine.execEvWrfail c code s
  | .reqWake c => Sys2Proof.Machine.execReqWake c s
  | .evExpire c => Sys2Proof.Machine.execEvExpire c s
  | .reqUnreg c => Sys2Proof.Machine.execReqUnreg c s
  | .reqReturn c => Sys2Proof.Machine.execReqReturn c s
  -- consumers
  | .ping => Sys2Proof.Machine.execPing s
  | .getInfo => Sys2Proof.Machine.execGetInfo s

end Sys2Proof.Machine
end

