-- ==== Sys2Proof/Machine/Step.lean ====
section
/-! DEFINITION. One step of the machine: the schedule's next turn is taken (R58). -/

namespace Sys2Proof.Machine

/-- The state with the first turn of the schedule taken off. -/
def State.popTurn (s : State) : State := { s with schedule := s.schedule.tail }

/-- A turn's operation performed on the state (R58): an operation is executed; an unknown command number is
answered with `ERR_CMD`; an ill-typed command record is refused; an agent that has no step has none. -/
def perform (sel : Selection) (s : State) : Host.Outcome State Fault Refusal :=
  match sel with
  | .op i => exec i s
  | .errCmd op => .next (rejectCommand op s)
  | .badOperands op => .refused (.badOperands op)
  | .noStep => .fault .noStep

/-- One step: one operation performed by the agent the schedule names, atomically (R58). -/
def step (s : State) : Host.Outcome State Fault Refusal :=
  match s.schedule with
  | [] => .fault .idle
  | turn :: _ => perform (select s turn) s.popTurn

/-- The state in which the very next step runs the operation of a table word. -/
def State.withFetchWord (s : State) (nbits w : Nat) : State :=
  match tableCode nbits w with
  | none => s
  | some code => placeCode s code

end Sys2Proof.Machine
end

