-- ==== Sys2Proof/Safety.lean ====
section
/-! DEFINITION. What counts as a safe run: the invariants of R36 and the phase table of R230 as predicates on a
state, the disciplines the spec asks of the environment, and the views of the state that the ownership rules
speak of (R65, R298). -/

namespace Sys2Proof.Machine

/-- The keys of a table are exactly the ids issued so far, `0 .. n` (R28). -/
abbrev Table.dense {α : Type} (t : Table α) (n : Nat) : Prop := t.map Prod.fst = List.range n

/-- The RX agent's state (R36 a, b, d; R24). -/
structure State.RxInv (s : State) : Prop where
  len_le        : s.rxLen ≤ Config.rxCap
  filled        : Table.dense s.rxbuf s.rxLen
  latch_iff     : s.dsp.isSome = true ↔ s.rxs = .dsp
  pos_le        : s.rxPos ≤ s.rxChunk.length
  latch_payload : ∀ l, s.dsp = some l → l.p.length ≤ Config.maxPayload

/-- The registry (R36 c, h; R28): ids rise in registration order, all were issued, the capacity holds. -/
structure State.RegyInv (s : State) : Prop where
  rising : List.Pairwise (fun a b => a.eid < b.eid) s.regy
  issued : ∀ e ∈ s.regy, e.eid < s.nextEid
  within : ∀ cap, s.params.regCap = some cap → s.regy.length ≤ cap

/-- The waiters (R29; R36 f): every allocated id has its record; an open one is empty, a completed one holds
exactly its payload. An id that was never allocated has a record only where a handler completed it (assumption 13). -/
structure State.WaiterInv (s : State) : Prop where
  rising    : Table.wf s.waiters
  allocated : ∀ w, w < s.nextWid → (Table.lookup s.waiters w).isSome = true
  open_one  : ∀ w v, Table.lookup s.waiters w = some v → v.done = false → v.plen = 0 ∧ v.slot = []
  completed : ∀ w v, Table.lookup s.waiters w = some v → v.done = true →
    v.plen ≤ Config.maxPayload ∧ Table.dense v.slot v.plen

/-- The call's waiter was allocated (R30). -/
def State.widAllocated (s : State) (k : Call) : Prop := ∃ w, k.wid = some w ∧ w < s.nextWid

/-- The call's entry was issued (R30). -/
def State.eidIssued (s : State) (k : Call) : Prop := ∃ e, k.eid = some e ∧ e < s.nextEid

/-- The call has been admitted: it has its waiter and its entry, and its payload fits (R232, R233). -/
structure State.Admitted (s : State) (k : Call) : Prop where
  wid  : s.widAllocated k
  eid  : s.eidIssued k
  fits : k.payload.length ≤ Config.maxPayload

/-- What a call that reached `REQ.UNREG` has decided (R237, R239, R240). -/
def State.Decided (s : State) (k : Call) : Prop :=
  (k.out = .completed ∧ s.callDone k) ∨ k.out = .timedOut ∨ ∃ code, k.out = .wrFailed code

/-- How a call that may return has ended (R232, R233, R241). -/
def State.Ended (s : State) (k : Call) : Prop :=
  (s.Admitted k ∧ s.Decided k ∧ k.out.terminal = some k.st) ∨
  (k.st = .refused ∧ k.eid = none ∧ ∃ code, k.out = .refused code)

/-- The phase table of R230 and the state machine of R244, one line a phase. -/
def State.LegalCall (s : State) (k : Call) : Prop :=
  match k.ph with
  | .new => k.st = .idle ∧ k.wid = none ∧ k.eid = none ∧ k.out = .undecided ∧ k.res = none
  | .built =>
    k.st = .idle ∧ s.widAllocated k ∧ k.eid = none ∧ k.payload.length ≤ Config.maxPayload ∧
      k.out = .undecided ∧ k.res = none
  | .enc => k.st = .registered ∧ s.Admitted k ∧ k.out = .undecided ∧ k.res = none
  | .send =>
    k.st = .registered ∧ s.Admitted k ∧ k.out = .undecided ∧ k.res = none ∧
      k.wire = encWire (frameOf k.dst k.msg k.payload) ∧ k.cur ≤ k.wire.length
  | .wait => k.st = .registered ∧ s.Admitted k ∧ k.out = .undecided ∧ k.res = none ∧ k.cur = k.wire.length
  | .unreg => k.st = .registered ∧ s.Admitted k ∧ s.Decided k ∧ k.res = none
  | .ret => s.Ended k ∧ k.res = none
  | .fin => s.Ended k ∧ k.res.isSome = true

/-- The calls (R30, R230). -/
structure State.CallInv (s : State) : Prop where
  dense : Table.dense s.calls s.nextCall
  legal : ∀ c k, Table.lookup s.calls c = some k → s.LegalCall k

/-- All of the above. -/
structure State.Inv (s : State) : Prop where
  rx      : s.RxInv
  regy    : s.RegyInv
  waiter  : s.WaiterInv
  call    : s.CallInv

/-- The operand that R201 gives `REG`: an external handler, or "`WAITER(w)` with `w` an allocated waiter id". -/
def State.handlerAllocated (s : State) (h : Handler) : Prop := ∀ w, h = .waiter w → w < s.nextWid

/-- Every handler the dispatcher can run names an allocated waiter. It holds as long as `REG` is given no other
(R201), which the engine does not check (assumption 13). -/
structure State.HandlerInv (s : State) : Prop where
  entries : ∀ e ∈ s.regy, s.handlerAllocated e.hnd
  latched : ∀ l, s.dsp = some l → s.handlerAllocated l.hnd

/-- The next turn is not a host command that registers a handler for a waiter never allocated (R201). -/
def State.registersAllocated (s : State) : Prop :=
  ∀ d m h, s.schedule.head? = some (.host CommandName.reg.op [.byte d, .byte m, .handler h]) → s.handlerAllocated h

/-- R36 e: a call is `REGISTERED` exactly while an entry with its id is in the registry; and no two calls own
one entry. It holds as long as no registry client removes an entry it did not register (R298). -/
structure State.OwnerInv (s : State) : Prop where
  registered_iff : ∀ c k, Table.lookup s.calls c = some k →
    (k.st = .registered ↔ ∃ e ∈ s.regy, k.eid = some e.eid)
  distinct : ∀ c c' k k' e, Table.lookup s.calls c = some k → Table.lookup s.calls c' = some k' →
    k.eid = some e → k'.eid = some e → c = c'

/-- The next turn is not a host command that unregisters a call's entry (the duty of R202 and R298). -/
def State.ownEntriesOnly (s : State) : Prop :=
  ∀ eid args, s.schedule.head? = some (.host CommandName.unreg.op args) → args = [.ident eid] →
    ∀ c k, Table.lookup s.calls c = some k → k.eid ≠ some eid

/-- The next turn is the host command `RESET`. -/
abbrev State.resetNext (s : State) : Prop := s.schedule.head? = some (.host CommandName.reset.op [])

/-- The precondition of `RESET` (R321): no chunk and no call in progress. -/
def State.quiescent (s : State) : Prop :=
  s.rxs = .idle ∧ ∀ c k, Table.lookup s.calls c = some k → k.ph = .fin

/-- Call `c` exists and is in phase `ph`: the guard that every step of a call has (R230). -/
def State.callIn (s : State) (c : Nat) (ph : Phase) : Prop := ∃ k, Table.lookup s.calls c = some k ∧ k.ph = ph

/-- A run of `k` steps, stopping at the first fault or refusal: `Sys2Proof.core.run k`, by `core_run`. -/
def steps : Nat → State → Result
  | 0, s => .next s
  | k + 1, s => andThen (step s) (steps k)

/-- The Link Receive State and the RX sequencing state, which the RX agent alone writes (R65). -/
abbrev State.linkView (s : State) : Memory × Nat × Bool × RxState × Bytes × Nat × Option Latch :=
  (s.rxbuf, s.rxLen, s.rxEsc, s.rxs, s.rxChunk, s.rxPos, s.dsp)

/-- What callers and registry clients own (R298): the registry, the call records, the counters, the consumers. -/
abbrev State.callerView (s : State) : List Entry × Table Call × Nat × Nat × Nat × Table Consumer :=
  (s.regy, s.calls, s.nextEid, s.nextWid, s.nextCall, s.consumers)

end Sys2Proof.Machine
end

