-- ==== Sys2Proof/Certificates/Slice0/Obligations.lean ====
section
/-! DEFINITION. The statements for the provers, from the numbered rules of spec/. A statement of a result gives
the whole next state, so it is at once the completion of the operation and its frame: every field not named in
the record update is unchanged. -/

open Sys2Proof Sys2Proof.Machine

/-! ### Frame Check Sequence unit -/

/-- R120, R121, R123, R124: the byte step is the exclusive-or with the zero-extended byte and eight turns of the
shift loop; the three operations return its left fold over the bytes, the complement of that from `0xFFFF`, and
whether that is `0x0F47`; nothing else changes. The chunking law of R121 holds. That an answer is recorded as a reply
event is the model's own (assumption 4); `FCS.UPDATE` as a step of its own likewise (assumption 8). -/
def Obligations.FcsOperationsReturnTheirValue : Prop :=
  (∀ (c : Fcs) (b : Byte),
    crcByte c b =
      (fun x : Fcs => if x &&& 1#16 = 1#16 then (x >>> 1) ^^^ 0x8408#16 else x >>> 1)^[8] (c ^^^ b.setWidth 16)) ∧
  (∀ (s : State) (crc : Fcs) (data : Bytes),
    exec (.fcsUpdate crc data) s =
      .next { s with history := s.history ++ [.reply (.fcs (data.foldl crcByte crc))] } ∧
    exec (.fcsCompute data) s =
      .next { s with history := s.history ++ [.reply (.fcs (~~~(data.foldl crcByte 0xFFFF#16)))] } ∧
    exec (.fcsVerify data) s =
      .next { s with
        history := s.history ++ [.reply (.bit (decide (~~~(data.foldl crcByte 0xFFFF#16) = 0x0F47#16)))] }) ∧
  ∀ (c : Fcs) (u v : Bytes), fcsUpdate (fcsUpdate c u) v = fcsUpdate c (u ++ v) ∧ fcsUpdate c [] = c

/-- R122: the table form. `T[i]` is the shift loop applied to `i`; the table's check values are the rule's. -/
def Obligations.CrcByteTableForm : Prop :=
  (∀ (c : Fcs) (b : Byte),
    crcByte c b = (c >>> 8) ^^^ crcShifts 8 (((c ^^^ b.setWidth 16).extractLsb' 0 8).setWidth 16)) ∧
  [0, 1, 2, 3, 4, 5, 6, 7, 255].map (fun i => crcShifts 8 (BitVec.ofNat 16 i)) =
    [0x0000#16, 0x1189#16, 0x2312#16, 0x329B#16, 0x4624#16, 0x57AD#16, 0x6536#16, 0x74BF#16, 0x0F78#16]

/-- R125: a sequence with its checksum appended low byte first verifies. -/
def Obligations.ResidualLaw : Prop :=
  ∀ d : Bytes, fcsVerify (d ++ [(fcsCompute d).extractLsb' 0 8, (fcsCompute d).extractLsb' 8 8]) = true

/-- R126: flipping any single bit of a sequence that verifies gives one that does not; and of the 65536 values of
the last two bytes of a sequence exactly one makes it verify. -/
def Obligations.SingleBitFlipIsDetected : Prop :=
  (∀ (f : Bytes) (i k : Nat) (b : Byte), fcsVerify f = true → f[i]? = some b → k < 8 →
    fcsVerify (f.set i (b ^^^ (1#8 <<< k))) = false) ∧
  ∀ (d : Bytes) (lo hi : Byte), fcsVerify (d ++ [lo, hi]) = true ↔
    lo = (fcsCompute d).extractLsb' 0 8 ∧ hi = (fcsCompute d).extractLsb' 8 8

/-! ### Stuffer -/

/-- R140, R141, R142, R144: each raw byte's stuffed image, the operation selected for it, and that `STUFF.LIT`
has no step for the two specials. The reply event and the stand-alone step are the model's own (assumptions 4, 8). -/
def Obligations.StuffOperations : Prop :=
  ∀ s : State,
    exec .stuffEnd s = .next { s with history := s.history ++ [.reply (.bytes [0xDB#8, 0xDC#8])] } ∧
    exec .stuffEsc s = .next { s with history := s.history ++ [.reply (.bytes [0xDB#8, 0xDD#8])] } ∧
    (∀ b : Byte, b ≠ 0xC0#8 → b ≠ 0xDB#8 →
      exec (.stuffLit b) s = .next { s with history := s.history ++ [.reply (.bytes [b])] }) ∧
    exec (.stuffLit 0xC0#8) s = .fault .noStep ∧ exec (.stuffLit 0xDB#8) s = .fault .noStep ∧
    select s (.stuff 0xC0#8) = .op .stuffEnd ∧ select s (.stuff 0xDB#8) = .op .stuffEsc ∧
    ∀ b : Byte, b ≠ 0xC0#8 → b ≠ 0xDB#8 → select s (.stuff b) = .op (.stuffLit b)

/-- R144, R145: `ENC.WIRE` returns one `END`, the stuffed image of each raw byte in order, one `END`. The reply
event is the model's own (assumption 4). -/
def Obligations.EncWireReturnsStuffedFrame : Prop :=
  ∀ (s : State) (raw : Bytes),
    exec (.encWire raw) s =
      .next { s with
        history := s.history ++ [.reply (.bytes ([0xC0#8] ++
          raw.flatMap (fun b => if b = 0xC0#8 then [0xDB#8, 0xDC#8] else if b = 0xDB#8 then [0xDB#8, 0xDD#8] else [b]) ++
          [0xC0#8]))] }

/-- R146: length of the wire form; `END` only as first and last byte; every `ESC` is followed by `ESC_END` or
`ESC_ESC`; a frame from `ENC.FRAME` has 6 to 610 wire bytes. -/
def Obligations.WireFormShape : Prop :=
  ∀ raw : Bytes,
    (encWire raw).length = raw.length + (raw.filter (fun b => b == 0xC0#8 || b == 0xDB#8)).length + 2 ∧
    (∃ body : Bytes, encWire raw = 0xC0#8 :: (body ++ [0xC0#8]) ∧ 0xC0#8 ∉ body) ∧
    (∀ i, (encWire raw)[i]? = some 0xDB#8 →
      (encWire raw)[i + 1]? = some 0xDC#8 ∨ (encWire raw)[i + 1]? = some 0xDD#8) ∧
    ∀ (dst msg : Byte) (payload : Bytes), payload.length ≤ 300 → raw = frameOf dst msg payload →
      6 ≤ (encWire raw).length ∧ (encWire raw).length ≤ 610

/-- R143: the raw frame with its checksum little-endian, or `ERR_LEN` with nothing produced. The reply event is the
model's own (assumption 4). -/
def Obligations.EncFrameReturnsFrameOrErrLen : Prop :=
  ∀ (s : State) (dst msg : Byte) (payload : Bytes),
    (payload.length ≤ 300 →
      exec (.encFrame dst msg payload) s =
        .next { s with
          history := s.history ++ [.reply (.bytes ([dst, msg] ++ payload ++
            [(fcsCompute ([dst, msg] ++ payload)).extractLsb' 0 8, (fcsCompute ([dst, msg] ++ payload)).extractLsb' 8 8]))] }) ∧
    (300 < payload.length →
      exec (.encFrame dst msg payload) s =
        .next { s with history := s.history ++ [.reply (.status (.errLen payload.length))] })

/-! ### Encoding -/

/-- R88: the six rows of the decoder's opcode map, for every mode bit and byte. -/
def Obligations.WireKeyClassification : Prop :=
  decode (.wire (wireKey true 0xDC#8)) = .ok .rxbEscEnd ∧
  decode (.wire (wireKey true 0xDD#8)) = .ok .rxbEscEsc ∧
  (∀ b : Byte, b ≠ 0xDC#8 → b ≠ 0xDD#8 → decode (.wire (wireKey true b)) = .ok (.rxbBadEsc b)) ∧
  decode (.wire (wireKey false 0xC0#8)) = .ok .rxbEnd ∧
  decode (.wire (wireKey false 0xDB#8)) = .ok .rxbEsc ∧
  (∀ b : Byte, b ≠ 0xC0#8 → b ≠ 0xDB#8 → decode (.wire (wireKey false b)) = .ok (.rxbLit b))

/-- R88, R89, R98: words written out from the encoding tables decode to what they stand for. -/
def Obligations.WrittenWordsDecode : Prop :=
  decode (.wire 0b111011100#9) = .ok .rxbEscEnd ∧ decode (.wire 0b111011101#9) = .ok .rxbEscEsc ∧
  decode (.wire 0b111000000#9) = .ok (.rxbBadEsc 0xC0#8) ∧ decode (.wire 0b011000000#9) = .ok .rxbEnd ∧
  decode (.wire 0b011011011#9) = .ok .rxbEsc ∧ decode (.wire 0b011011100#9) = .ok (.rxbLit 0xDC#8) ∧
  decode (.raw 0b11000000#8) = .ok .stuffEnd ∧ decode (.raw 0b11011011#8) = .ok .stuffEsc ∧
  decode (.command 0b00000001#8 [.bytes [0x01#8, 0x01#8]]) = .ok (.fcsCompute [0x01#8, 0x01#8]) ∧
  decode (.command 0b00000111#8 [.byte 0x01#8, .byte 0x02#8, .handler (.ext 7)]) = .ok (.reg 0x01#8 0x02#8 (.ext 7)) ∧
  decode (.command 0b00001001#8 [.byte 1#8, .byte 1#8, .bytes [], .byte 1#8, .byte 2#8]) = .ok (.req 1#8 1#8 [] 1#8 2#8) ∧
  decode (.command 0b00001111#8 []) = .ok .reset ∧
  decode (.command 0b00001010#8 []) = .error (.unknownCommand 0x0A#8)

/-- The encoder and the decoder agree: for every well-formed operation that has an encoding, decoding it gives
the operation back with every operand. -/
def Obligations.EncodeThenDecodeIsIdentity : Prop :=
  ∀ (i : Instr) (code : Code), i.wellFormed = true → encode i = some code → decode code = .ok i

/-- Every selector the decoder accepts is the encoding of what it decodes to, and decodes to a well-formed
operation: no bit of a key, no command number and no operand is dropped. -/
def Obligations.DecodeThenEncodeIsIdentity : Prop :=
  ∀ (i : Instr) (code : Code), decode code = .ok i → i.wellFormed = true ∧ encode i = some code

/-- R98: a number that is no command is answered with `ERR_CMD`, and no state of the engine changes. The
reply event is the model's own (assumption 4). -/
def Obligations.UnknownCommandIsRefused : Prop :=
  ∀ (s : State) (op : Byte) (args : List Arg) (rest : List Turn),
    s.schedule = .host op args :: rest →
    op ∉ [0x01#8, 0x02#8, 0x03#8, 0x04#8, 0x05#8, 0x06#8, 0x07#8, 0x08#8, 0x09#8, 0x0F#8] →
    step s = .next { s with schedule := rest, history := s.history ++ [.reply (.status (.errCmd op))] }

/-- A step runs what its turn selects. At the host port the decoded command; on the RX agent's turn the
operation R88 gives for the byte under the cursor, the handler while a dispatch is pending, or the chunk's return;
on a call's turn the step of its phase; and the event, the stuffed byte, the update or the consumer named. Around
the operation the step only takes the turn off the schedule. The schedule is the model's own (assumptions 1, 8, 14). -/
def Obligations.StepRunsTheSelectedOperation : Prop :=
  ∀ (s : State) (turn : Turn) (rest : List Turn), s.schedule = turn :: rest →
    (∀ op args i, turn = .host op args → decode (.command op args) = .ok i → step s = exec i { s with schedule := rest }) ∧
    (∀ op args, turn = .host op args → decode (.command op args) = .error (.badOperands op) →
      step s = .refused (.badOperands op)) ∧
    (∀ b i, turn = .stuff b → decode (.raw b) = .ok i → step s = exec i { s with schedule := rest }) ∧
    (∀ b i, turn = .rx → s.rxs = .run → s.rxChunk[s.rxPos]? = some b → decode (.wire (wireKey s.rxEsc b)) = .ok i →
      (s.rxLen < 304 ∨ (s.params.fullPolicy = .stallAppend ∧ Instr.appends i = false) →
        step s = exec i { s with schedule := rest }) ∧
      (304 ≤ s.rxLen → s.params.fullPolicy = .stallAll ∨ Instr.appends i = true →
        step s = exec .rxReturn { s with schedule := rest })) ∧
    (turn = .rx → s.rxs = .run → s.rxChunk[s.rxPos]? = none → step s = exec .rxReturn { s with schedule := rest }) ∧
    (turn = .rx → s.rxs = .dsp → step s = exec .dspInvoke { s with schedule := rest }) ∧
    (turn = .rx → s.rxs = .idle → step s = .fault .noStep) ∧
    (turn = .rxReturn → step s = exec .rxReturn { s with schedule := rest }) ∧
    (∀ crc data, turn = .fcsUpdate crc data → step s = exec (.fcsUpdate crc data) { s with schedule := rest }) ∧
    (∀ c, turn = .expire c → step s = exec (.evExpire c) { s with schedule := rest }) ∧
    (∀ c code, turn = .wrFail c code → step s = exec (.evWrfail c code) { s with schedule := rest }) ∧
    (turn = .ping → step s = exec .ping { s with schedule := rest }) ∧
    (turn = .getInfo → step s = exec .getInfo { s with schedule := rest })

/-- R230: on a call's turn the step runs the operation of the call's phase. -/
def Obligations.CallTurnFollowsThePhase : Prop :=
  ∀ (s : State) (c : Nat) (k : Call) (rest : List Turn), s.schedule = .call c :: rest →
    Table.lookup s.calls c = some k →
    (k.ph = .new → step s = exec (.reqBuild c) { s with schedule := rest }) ∧
    (k.ph = .built → step s = exec (.reqRegister c) { s with schedule := rest }) ∧
    (k.ph = .enc → step s = exec (.reqEncode c) { s with schedule := rest }) ∧
    (k.ph = .send → k.cur < k.wire.length → step s = exec (.txByte c) { s with schedule := rest }) ∧
    (k.ph = .send → k.wire.length ≤ k.cur → step s = exec (.txDone c) { s with schedule := rest }) ∧
    (k.ph = .wait → step s = exec (.reqWake c) { s with schedule := rest }) ∧
    (k.ph = .unreg → step s = exec (.reqUnreg c) { s with schedule := rest }) ∧
    (k.ph = .ret → step s = exec (.reqReturn c) { s with schedule := rest }) ∧
    (k.ph = .fin → step s = .fault .noStep)

/-! ### Destuffer and assembler -/

/-- R162, R163, R164: the three appending operations store their raw byte at `RXBUF[rx_len]`, count it and
consume the wire byte; the two escaped ones clear `rx_esc`. A step of one exists only under its guard. -/
def Obligations.AppendingByteOperations : Prop :=
  ∀ s : State,
    (s.rxs = .run → s.rxLen < 304 →
      (∀ b : Byte, s.rxChunk[s.rxPos]? = some b → s.rxEsc = false → b ≠ 0xC0#8 → b ≠ 0xDB#8 →
        exec (.rxbLit b) s =
          .next { s with rxbuf := Memory.write s.rxbuf s.rxLen b, rxLen := s.rxLen + 1, rxPos := s.rxPos + 1 }) ∧
      (s.rxChunk[s.rxPos]? = some 0xDC#8 → s.rxEsc = true →
        exec .rxbEscEnd s =
          .next { s with
            rxbuf := Memory.write s.rxbuf s.rxLen 0xC0#8, rxLen := s.rxLen + 1, rxEsc := false, rxPos := s.rxPos + 1 }) ∧
      (s.rxChunk[s.rxPos]? = some 0xDD#8 → s.rxEsc = true →
        exec .rxbEscEsc s =
          .next { s with
            rxbuf := Memory.write s.rxbuf s.rxLen 0xDB#8, rxLen := s.rxLen + 1, rxEsc := false, rxPos := s.rxPos + 1 })) ∧
    ∀ t : State,
      (∀ b, exec (.rxbLit b) s = .next t →
        s.rxs = .run ∧ s.rxLen < 304 ∧ s.rxChunk[s.rxPos]? = some b ∧ s.rxEsc = false ∧ b ≠ 0xC0#8 ∧ b ≠ 0xDB#8) ∧
      (exec .rxbEscEnd s = .next t →
        s.rxs = .run ∧ s.rxLen < 304 ∧ s.rxChunk[s.rxPos]? = some 0xDC#8 ∧ s.rxEsc = true) ∧
      (exec .rxbEscEsc s = .next t →
        s.rxs = .run ∧ s.rxLen < 304 ∧ s.rxChunk[s.rxPos]? = some 0xDD#8 ∧ s.rxEsc = true)

/-- R173: an appending operation stores its byte at index `rx_len` and leaves every other cell as it was. The two
byte operations that keep the buffer, `RXB.ESC` and `RXB.BADESC`, leave every cell and `rx_len`. -/
def Obligations.AppendStoresOneCell : Prop :=
  ∀ (s t : State) (i : Instr), exec i s = .next t →
    (∀ v : Byte, (i = .rxbLit v ∨ (i = .rxbEscEnd ∧ v = 0xC0#8) ∨ (i = .rxbEscEsc ∧ v = 0xDB#8)) →
      s.rxLen < 304 ∧ Memory.read t.rxbuf s.rxLen = some v ∧
        (∀ a, a ≠ s.rxLen → Memory.read t.rxbuf a = Memory.read s.rxbuf a) ∧ t.rxLen = s.rxLen + 1) ∧
    (i = .rxbEsc ∨ (∃ b, i = .rxbBadEsc b) →
      (∀ a, Memory.read t.rxbuf a = Memory.read s.rxbuf a) ∧ t.rxLen = s.rxLen)

/-- R161, R167: `RXB.ESC` sets `rx_esc`; `RXB.BADESC` drops its byte, whatever it is, with a label and clears
`rx_esc`; neither touches the buffer. A step of one exists only under its guard. Under the alternative policy of
R169 they also run with the buffer full. -/
def Obligations.EscapeAndBadEscape : Prop :=
  ∀ s : State,
    (s.rxs = .run → (s.rxLen < 304 ∨ s.params.fullPolicy = .stallAppend) →
      (s.rxChunk[s.rxPos]? = some 0xDB#8 → s.rxEsc = false →
        exec .rxbEsc s = .next { s with rxEsc := true, rxPos := s.rxPos + 1 }) ∧
      (∀ b : Byte, s.rxChunk[s.rxPos]? = some b → s.rxEsc = true → b ≠ 0xDC#8 → b ≠ 0xDD#8 →
        exec (.rxbBadEsc b) s =
          .next { s with rxEsc := false, rxPos := s.rxPos + 1, history := s.history ++ [.diag (.badEsc b)] })) ∧
    ∀ t : State,
      (exec .rxbEsc s = .next t →
        s.rxs = .run ∧ (s.rxLen < 304 ∨ s.params.fullPolicy = .stallAppend) ∧
          s.rxChunk[s.rxPos]? = some 0xDB#8 ∧ s.rxEsc = false) ∧
      (∀ b, exec (.rxbBadEsc b) s = .next t →
        s.rxs = .run ∧ (s.rxLen < 304 ∨ s.params.fullPolicy = .stallAppend) ∧
          s.rxChunk[s.rxPos]? = some b ∧ s.rxEsc = true ∧ b ≠ 0xDC#8 ∧ b ≠ 0xDD#8)

/-- R171: the four outcomes of frame completion, tested in the order length, checksum, matching; the buffer is
cleared in each (`rxbuf := []`: every cell is then unspecified, assumption 5). The matched entry is the oldest that
matches. Run alone, outside `RXB.END`, the operation is the model's own (assumption 7). -/
def Obligations.FrameDoneOutcomes : Prop :=
  ∀ s : State, 0 < s.rxLen →
    (s.rxLen < 4 →
      exec .frameDone s =
        .next { s with rxbuf := [], rxLen := 0, history := s.history ++ [.diag (.short s.rxLen)] }) ∧
    ∀ (dst msg : Byte) (payload : Bytes) (lo hi : Byte),
      Memory.readBytes s.rxbuf 0 s.rxLen = some ([dst, msg] ++ payload ++ [lo, hi]) →
      (fcsVerify ([dst, msg] ++ payload ++ [lo, hi]) = false →
        exec .frameDone s =
          .next { s with rxbuf := [], rxLen := 0, history := s.history ++ [.diag (.badFcs dst msg s.rxLen)] }) ∧
      (fcsVerify ([dst, msg] ++ payload ++ [lo, hi]) = true →
        ((∀ e ∈ s.regy, ¬ (e.dst = dst ∧ e.msg = msg)) →
          exec .frameDone s = .next { s with rxbuf := [], rxLen := 0 }) ∧
        (∀ pre e post, s.regy = pre ++ e :: post → (∀ x ∈ pre, ¬ (x.dst = dst ∧ x.msg = msg)) →
          e.dst = dst → e.msg = msg →
          exec .frameDone s =
            .next { s with rxbuf := [], rxLen := 0, rxs := .dsp, dsp := some ⟨e.hnd, dst, msg, payload⟩ }))

/-- R160: an `END` with an empty buffer only consumes the byte; with a non-empty buffer it runs `FRAME.DONE` and
consumes the byte in the same step. A step of it exists only under its guard, and leaves `rx_len = 0`. -/
def Obligations.EndRunsFrameDone : Prop :=
  ∀ s t : State,
    (s.rxs = .run → (s.rxLen < 304 ∨ s.params.fullPolicy = .stallAppend) →
      s.rxChunk[s.rxPos]? = some 0xC0#8 → s.rxEsc = false →
      (s.rxLen = 0 → exec .rxbEnd s = .next { s with rxPos := s.rxPos + 1 }) ∧
      (0 < s.rxLen → exec .frameDone s = .next t → exec .rxbEnd s = .next { t with rxPos := s.rxPos + 1 })) ∧
    (exec .rxbEnd s = .next t →
      s.rxs = .run ∧ (s.rxLen < 304 ∨ s.params.fullPolicy = .stallAppend) ∧ s.rxChunk[s.rxPos]? = some 0xC0#8 ∧
        s.rxEsc = false ∧ t.rxLen = 0)

/-- R160 d: in a state whose buffer is filled up to `rx_len`, an `END` always completes, and leaves `rx_len = 0`
and `rx_esc` as it was. `State.RxInv` is the invariant
`RxInvariantIsKept` speaks of. -/
def Obligations.EndAlwaysCompletes : Prop :=
  ∀ s : State, s.RxInv → s.rxs = .run → s.rxChunk[s.rxPos]? = some 0xC0#8 → s.rxEsc = false →
    (s.rxLen < 304 ∨ s.params.fullPolicy = .stallAppend) →
    ∃ t, exec .rxbEnd s = .next t ∧ t.rxLen = 0 ∧ t.rxEsc = false ∧ t.rxPos = s.rxPos + 1 ∧
      t.regy = s.regy ∧ t.waiters = s.waiters ∧ t.calls = s.calls

/-- R211: a step of `RXB.END` that latches a dispatch had a frame of at least 4 bytes whose checksum verifies,
and an entry of the registry with its address pair; the payload latched is the frame without header and checksum. -/
def Obligations.OnlyGoodFramesAreDispatched : Prop :=
  ∀ s t : State, exec .rxbEnd s = .next t → t.dsp ≠ s.dsp →
    ∃ (f : Bytes) (e : Entry), Memory.readBytes s.rxbuf 0 s.rxLen = some f ∧ 4 ≤ f.length ∧ fcsVerify f = true ∧
      e ∈ s.regy ∧ f[0]? = some e.dst ∧ f[1]? = some e.msg ∧
      t.dsp = some ⟨e.hnd, e.dst, e.msg, (f.drop 2).take (f.length - 4)⟩

/-- R82: under this hardware's full-buffer policy the payload of a frame that is received has at most 299 bytes. -/
def Obligations.LongestReceivedPayload : Prop :=
  ∀ s t : State, s.params.fullPolicy = .stallAll → exec .rxbEnd s = .next t →
    ∀ l, t.dsp = some l → s.dsp = some l ∨ l.p.length ≤ 299

/-- R165, R323: `RX.CHUNK` begins a chunk and `RX.RESET` empties the link receive state, between chunks only; while
a chunk is in progress neither has a step. That the cleared
buffer lists no cell (`rxbuf := []`) is the model's choice (assumption 5): R323 writes `rx_len` only, and R21 leaves
the cells unspecified. -/
def Obligations.LinkCommandsOnlyBetweenChunks : Prop :=
  ∀ (s : State) (data : Bytes),
    (s.rxs = .idle → exec (.rxChunk data) s = .next { s with rxChunk := data, rxPos := 0, rxs := .run }) ∧
    (s.rxs = .idle →
      exec .rxReset s =
        .next { s with rxbuf := [], rxLen := 0, rxEsc := false, rxChunk := [], rxPos := 0, dsp := none }) ∧
    (s.rxs ≠ .idle → exec (.rxChunk data) s = .fault .noStep ∧ exec .rxReset s = .fault .noStep)

/-- R170, R168, R169: `RX.RETURN` at the end of the chunk, or at a buffer too full for the next byte, delivers the
count of bytes consumed; otherwise, under the exact guard, it has no step: not in the middle of a chunk with room in
the buffer, and not, under the alternative policy, where the next byte appends nothing. Under the relaxed guard it may
happen anywhere in a chunk. Outside `RX_RUN` it has no step. That the count is an event is the model's choice
(assumption 4), and so is that `rx_chunk` and `rx_pos` are kept after the return, where R24 calls them not meaningful
(assumption 22). -/
def Obligations.ReturnDeliversConsumedCount : Prop :=
  ∀ s : State,
    (s.rxs = .run →
      (s.rxPos = s.rxChunk.length ∨ (s.rxLen = 304 ∧ s.params.fullPolicy = .stallAll) ∨
        (∃ b, s.rxLen = 304 ∧ s.rxChunk[s.rxPos]? = some b ∧ Instr.appends (decodeWire (wireKey s.rxEsc b)) = true) ∨
        s.params.returnGuard = .anyPrefix) →
      exec .rxReturn s = .next { s with rxs := .idle, history := s.history ++ [.consumed s.rxPos] }) ∧
    (s.params.returnGuard = .exact → s.rxPos ≠ s.rxChunk.length →
      s.rxLen ≠ 304 ∨ (s.params.fullPolicy = .stallAppend ∧
        ∀ b, s.rxChunk[s.rxPos]? = some b → Instr.appends (decodeWire (wireKey s.rxEsc b)) = false) →
      exec .rxReturn s = .fault .noStep) ∧
    (s.rxs ≠ .run → exec .rxReturn s = .fault .noStep)

/-- R168: with the buffer full no wire-byte operation has a step, whatever the byte and the mode, and a chunk
started then returns having consumed nothing. That the count is an event is the model's choice (assumption 4), and so
is that `rx_chunk` and `rx_pos` are kept after the return, where R24 calls them not meaningful (assumption 22). -/
def Obligations.FullBufferTakesNoByte : Prop :=
  ∀ s : State, s.rxLen = 304 → s.params.fullPolicy = .stallAll →
    (∀ b : Byte, exec (decodeWire (wireKey s.rxEsc b)) s = .fault .noStep) ∧
    ∀ data : Bytes, s.rxs = .idle →
      ∃ t, exec (.rxChunk data) s = .next t ∧
        exec .rxReturn t =
          .next { s with rxChunk := data, rxPos := 0, history := s.history ++ [.consumed 0] }

/-- R168: the condition is permanent until `RX.RESET` or `RESET`. -/
def Obligations.StallIsPermanent : Prop :=
  ∀ s t : State, s.rxLen = 304 → s.params.fullPolicy = .stallAll → step s = .next t →
    s.schedule.head? ≠ some (.host 0x06#8 []) → s.schedule.head? ≠ some (.host 0x0F#8 []) →
    t.rxLen = 304 ∧ t.rxbuf = s.rxbuf ∧ t.rxEsc = s.rxEsc ∧ t.params.fullPolicy = .stallAll

/-- R147, R175: from an empty link receive state, the wire form of any raw frame of 1 to 303 bytes is consumed
byte by byte up to its last `END` with no label and no other effect than that the buffer holds exactly the raw
frame; the last `END` is then the RX agent's next step. -/
def Obligations.DecoderRebuildsTheRawFrame : Prop :=
  ∀ (s : State) (before raw after : Bytes) (rest : List Turn),
    1 ≤ raw.length → raw.length ≤ 303 →
    s.rxbuf = [] → s.rxLen = 0 → s.rxEsc = false → s.rxs = .run →
    s.rxChunk = before ++ encWire raw ++ after → s.rxPos = before.length →
    s.schedule = List.replicate ((encWire raw).length - 1) .rx ++ .rx :: rest →
    ∃ u, steps ((encWire raw).length - 1) s = .next u ∧
      u = { s with
        rxbuf := Memory.writeBytes [] 0 raw
        rxLen := raw.length
        rxPos := before.length + ((encWire raw).length - 1)
        schedule := .rx :: rest } ∧
      Memory.readBytes u.rxbuf 0 u.rxLen = some raw ∧ select u .rx = .op .rxbEnd

/-- R175, R171, R204: the wire form of a frame from `ENC.FRAME` with a payload of at most 299 bytes, consumed
whole from an empty link receive state, leaves the link empty again and latches the frame for the oldest matching
entry, or is dropped without a trace if none matches. -/
def Obligations.EncodedFrameIsDelivered : Prop :=
  ∀ (s : State) (before after payload : Bytes) (dst msg : Byte) (rest : List Turn),
    payload.length ≤ 299 →
    s.rxbuf = [] → s.rxLen = 0 → s.rxEsc = false → s.rxs = .run →
    s.rxChunk = before ++ encWire (frameOf dst msg payload) ++ after → s.rxPos = before.length →
    s.schedule = List.replicate (encWire (frameOf dst msg payload)).length .rx ++ rest →
    ((∀ e ∈ s.regy, ¬ (e.dst = dst ∧ e.msg = msg)) →
      steps (encWire (frameOf dst msg payload)).length s =
        .next { s with rxPos := before.length + (encWire (frameOf dst msg payload)).length, schedule := rest }) ∧
    ∀ pre e post, s.regy = pre ++ e :: post → (∀ x ∈ pre, ¬ (x.dst = dst ∧ x.msg = msg)) →
      e.dst = dst → e.msg = msg →
      steps (encWire (frameOf dst msg payload)).length s =
        .next { s with
          rxPos := before.length + (encWire (frameOf dst msg payload)).length
          schedule := rest
          rxs := .dsp
          dsp := some ⟨e.hnd, dst, msg, payload⟩ }

/-- R168 a, R82: under `STALL_ALL` the wire form of a raw frame of 304 bytes fills the buffer, and its closing `END`
is not consumed: the RX agent's next step is the chunk's return. -/
def Obligations.LongestFrameStallsTheReceiver : Prop :=
  ∀ (s : State) (raw : Bytes) (rest : List Turn),
    raw.length = 304 → s.params.fullPolicy = .stallAll →
    s.rxbuf = [] → s.rxLen = 0 → s.rxEsc = false → s.rxs = .run →
    s.rxChunk = encWire raw → s.rxPos = 0 →
    s.schedule = List.replicate ((encWire raw).length - 1) .rx ++ .rx :: rest →
    ∃ u, steps ((encWire raw).length - 1) s = .next u ∧ u.rxLen = 304 ∧
      u.rxPos = (encWire raw).length - 1 ∧ u.history = s.history ∧ select u .rx = .op .rxReturn

/-- R174: chunk-boundary independence. A run of RX turns inside a chunk that ends in no return is the same run
inside any longer chunk, whether the bytes added come after (a chunk cut at its end) or before (a chunk cut at its
start): the states differ in the chunk and the cursor only. -/
def Obligations.ChunkBoundariesDoNotMatter : Prop :=
  ∀ (s t : State) (k : Nat) (a b : Bytes) (rest : List Turn),
    s.schedule = List.replicate k .rx ++ rest → s.rxs ≠ .idle →
    steps k s = .next t → t.rxs ≠ .idle →
    (s.rxChunk = a → s.rxPos ≤ a.length →
      steps k { s with rxChunk := a ++ b } = .next { t with rxChunk := a ++ b }) ∧
    (s.rxChunk = b →
      steps k { s with rxChunk := a ++ b, rxPos := a.length + s.rxPos } =
        .next { t with rxChunk := a ++ b, rxPos := a.length + t.rxPos })

/-! ### Registry -/

/-- R201: `REG` appends the entry with the next id and returns the id, or refuses with `REG_FULL` when the
registry has no place. It does so for every handler: that one naming a waiter never allocated is entered as it is given
is the model's choice (assumption 13). The reply event is the model's own (assumption 4). -/
def Obligations.RegAppendsOrRefuses : Prop :=
  ∀ (s : State) (dst msg : Byte) (hnd : Handler),
    ((∀ cap, s.params.regCap = some cap → s.regy.length < cap) →
      exec (.reg dst msg hnd) s =
        .next { s with
          regy := s.regy ++ [⟨s.nextEid, dst, msg, hnd⟩]
          nextEid := s.nextEid + 1
          history := s.history ++ [.reply (.registered s.nextEid)] }) ∧
    (∀ cap, s.params.regCap = some cap → cap ≤ s.regy.length →
      exec (.reg dst msg hnd) s = .next { s with history := s.history ++ [.reply (.status .regFull)] })

/-- R202: `UNREG` removes the entry with the id and keeps the others in order; with no such entry nothing changes. -/
def Obligations.UnregRemovesTheEntry : Prop :=
  ∀ (s : State) (eid : Nat),
    (∀ pre e post, s.regy = pre ++ e :: post → e.eid = eid → (∀ x ∈ pre ++ post, x.eid ≠ eid) →
      exec (.unreg eid) s = .next { s with regy := pre ++ post }) ∧
    ((∀ x ∈ s.regy, x.eid ≠ eid) → exec (.unreg eid) s = .next s)

/-- R204, R209: the scan answers the oldest matching entry, and no entry exactly when none matches. The
stand-alone step and its reply event are the model's own (assumptions 4, 7). -/
def Obligations.ScanAnswersTheOldestMatch : Prop :=
  ∀ (s : State) (dst msg : Byte),
    (∀ pre e post, s.regy = pre ++ e :: post → (∀ x ∈ pre, ¬ (x.dst = dst ∧ x.msg = msg)) →
      e.dst = dst → e.msg = msg →
      exec (.dspScan dst msg) s = .next { s with history := s.history ++ [.reply (.entry (some e))] }) ∧
    ((∀ x ∈ s.regy, ¬ (x.dst = dst ∧ x.msg = msg)) →
      exec (.dspScan dst msg) s = .next { s with history := s.history ++ [.reply (.entry none)] })

/-- R207: an open waiter takes the payload, its length and `done` in one step: the slot reads back as the payload
and no other waiter changes; a completed one is left alone, whatever the payload. -/
def Obligations.WaiterTakesOnePayload : Prop :=
  ∀ (s : State) (w : Nat) (p : Bytes) (v : Waiter), Table.lookup s.waiters w = some v →
    (v.done = true → exec (.hndWaiter w p) s = .next s) ∧
    (v.done = false → p.length ≤ 300 →
      ∃ v' : Waiter, exec (.hndWaiter w p) s = .next { s with waiters := Table.set s.waiters w v' } ∧
        v'.done = true ∧ v'.plen = p.length ∧ Memory.readBytes v'.slot 0 p.length = some p ∧
        (∀ a, p.length ≤ a → Memory.read v'.slot a = Memory.read v.slot a) ∧
        ∀ w', w' ≠ w → Table.lookup (Table.set s.waiters w v') w' = Table.lookup s.waiters w')

/-- `HND.WAITER` on operands outside the range R207 gives (assumptions 13 and 19). For an id without a record the
completion bit read is a free value, drawn once: where it is 1 nothing else happens, where it is 0 the waiter is
completed as R207 says. A payload over 300 bytes has no place in the slot of an open waiter: there the model stops. -/
def Obligations.WaiterOperandsOutsideTheirRange : Prop :=
  ∀ (s : State) (w : Nat) (p : Bytes),
    (Table.lookup s.waiters w = none → p.length ≤ 300 →
      exec (.hndWaiter w p) s =
        .next { s with
          draws := s.draws + 1
          waiters :=
            if Config.unallocatedDone s.draws = true then s.waiters
            else Table.set s.waiters w ⟨true, p.length, Memory.writeBytes [] 0 p⟩ }) ∧
    ∀ v, Table.lookup s.waiters w = some v → v.done = false → 300 < p.length →
      exec (.hndWaiter w p) s = .fault .indexRange

/-- R205, R208: `DSP.INVOKE` runs the latched handler and empties the latch, and exists only while a dispatch is
pending; an external handler is one event and no other change, also when it is run alone; what a waiter takes is
R207's (`WaiterTakesOnePayload`). -/
def Obligations.InvokeRunsTheLatchedHandler : Prop :=
  ∀ s t : State,
    (∀ l : Latch, s.rxs = .dsp → s.dsp = some l →
      (∀ tag, l.hnd = .ext tag →
        exec .dspInvoke s =
          .next { s with dsp := none, rxs := .run, history := s.history ++ [.ext tag l.dst l.msg l.p] }) ∧
      ∀ w, l.hnd = .waiter w → exec (.hndWaiter w l.p) s = .next t →
        exec .dspInvoke s = .next { t with dsp := none, rxs := .run }) ∧
    (exec .dspInvoke s = .next t → s.rxs = .dsp) ∧
    ∀ tag dst msg p, exec (.hndExt tag dst msg p) s = .next { s with history := s.history ++ [.ext tag dst msg p] }

/-- R210, R36 g: a completed waiter, of an id that was allocated, is changed by no step but `RESET`.
`State.WaiterInv` is an invariant (`RegistryAndWaiterInvariantsAreKept`). -/
def Obligations.CompletedWaiterNeverChanges : Prop :=
  ∀ (s t : State) (w : Nat) (v : Waiter), s.WaiterInv → step s = .next t → ¬ s.resetNext → w < s.nextWid →
    Table.lookup s.waiters w = some v → v.done = true → Table.lookup t.waiters w = some v

/-! ### Arbiter -/

/-- R231: `REQ` creates the call under the next id, idle, with nothing allocated. -/
def Obligations.ReqCreatesTheCall : Prop :=
  ∀ (s : State) (dst msg : Byte) (payload : Bytes) (edst emsg : Byte),
    exec (.req dst msg payload edst emsg) s =
      .next { s with
        nextCall := s.nextCall + 1
        calls := Table.set s.calls s.nextCall
          { st := .idle, ph := .new, dst := dst, msg := msg, payload := payload, edst := edst, emsg := emsg,
            wid := none, eid := none, wire := [], cur := 0, out := .undecided, res := none } }

/-- R232: `REQ.BUILD` builds an open, empty waiter under the next id; a payload over 300 bytes is refused first,
and then nothing is built. It exists in phase `NEW` only. That the new slot lists no cell (`[]`) is the model's choice
(assumption 6): R232 leaves its contents unspecified. -/
def Obligations.BuildMakesTheWaiterOrRefuses : Prop :=
  ∀ (s : State) (c : Nat),
    (∀ k, Table.lookup s.calls c = some k → k.ph = .new →
      (k.payload.length ≤ 300 →
        exec (.reqBuild c) s =
          .next { s with
            nextWid := s.nextWid + 1
            waiters := Table.set s.waiters s.nextWid ⟨false, 0, []⟩
            calls := Table.set s.calls c { k with wid := some s.nextWid, ph := .built } }) ∧
      (300 < k.payload.length →
        exec (.reqBuild c) s =
          .next { s with calls := Table.set s.calls c { k with out := .refused .errLen, st := .refused, ph := .ret } })) ∧
    ∀ t, exec (.reqBuild c) s = .next t → s.callIn c .new

/-- R233: `REQ.REGISTER` appends the call's entry for the expected pair, with its waiter; or refuses when the
registry is full. It exists in phase `BUILT` only. -/
def Obligations.RegisterEntersTheCall : Prop :=
  ∀ (s : State) (c : Nat),
    (∀ k w, Table.lookup s.calls c = some k → k.ph = .built → k.wid = some w →
      ((∀ cap, s.params.regCap = some cap → s.regy.length < cap) →
        exec (.reqRegister c) s =
          .next { s with
            regy := s.regy ++ [⟨s.nextEid, k.edst, k.emsg, .waiter w⟩]
            nextEid := s.nextEid + 1
            calls := Table.set s.calls c { k with eid := some s.nextEid, st := .registered, ph := .enc } }) ∧
      (∀ cap, s.params.regCap = some cap → cap ≤ s.regy.length →
        exec (.reqRegister c) s =
          .next { s with calls := Table.set s.calls c { k with out := .refused .regFull, st := .refused, ph := .ret } })) ∧
    ∀ t, exec (.reqRegister c) s = .next t → s.callIn c .built

/-- R234, R235, R236: encoding stores the wire form and starts at its first byte; each `TX.BYTE` emits the byte
at the cursor and moves on, and exists only before the end of the wire form; `TX.DONE` exists at the end only, and
begins the wait. -/
def Obligations.EncodeAndTransmit : Prop :=
  ∀ (s : State) (c : Nat),
    (∀ k, Table.lookup s.calls c = some k →
      (k.ph = .enc →
        exec (.reqEncode c) s =
          .next { s with
            calls :=
              Table.set s.calls c { k with wire := encWire (frameOf k.dst k.msg k.payload), cur := 0, ph := .send } }) ∧
      (∀ b : Byte, k.ph = .send → k.wire[k.cur]? = some b →
        exec (.txByte c) s =
          .next { s with
            history := s.history ++ [.tx b]
            calls := Table.set s.calls c { k with cur := k.cur + 1 } }) ∧
      (k.ph = .send → k.wire.length ≤ k.cur → exec (.txByte c) s = .fault .noStep) ∧
      (k.ph = .send → k.cur = k.wire.length →
        exec (.txDone c) s = .next { s with calls := Table.set s.calls c { k with ph := .wait } }) ∧
      (k.ph = .send → k.cur ≠ k.wire.length → exec (.txDone c) s = .fault .noStep)) ∧
    ∀ t, (exec (.reqEncode c) s = .next t → s.callIn c .enc) ∧ (exec (.txByte c) s = .next t → s.callIn c .send) ∧
      (exec (.txDone c) s = .next t → s.callIn c .send)

/-- R237, R239, R240: the three ways out of sending and waiting. A write failure ends the call at any cursor; a
completed waiter wakes it; the deadline may expire only while the waiter is not completed, unless the run's
parameter drops that conjunct, as R240 allows. Each exists in its phase only. -/
def Obligations.WaysOutOfSendAndWait : Prop :=
  ∀ (s : State) (c : Nat),
    (∀ k, Table.lookup s.calls c = some k →
      (∀ code, k.ph = .send →
        exec (.evWrfail c code) s =
          .next { s with calls := Table.set s.calls c { k with out := .wrFailed code, ph := .unreg } }) ∧
      ∀ (w : Nat) (v : Waiter), k.ph = .wait → k.wid = some w → Table.lookup s.waiters w = some v →
        (v.done = true →
          exec (.reqWake c) s = .next { s with calls := Table.set s.calls c { k with out := .completed, ph := .unreg } }) ∧
        (v.done = false → exec (.reqWake c) s = .fault .noStep) ∧
        (v.done = false ∨ s.params.expireGuard = .always →
          exec (.evExpire c) s = .next { s with calls := Table.set s.calls c { k with out := .timedOut, ph := .unreg } }) ∧
        (v.done = true → s.params.expireGuard = .whileNotDone → exec (.evExpire c) s = .fault .noStep)) ∧
    ∀ t, (∀ code, exec (.evWrfail c code) s = .next t → s.callIn c .send) ∧
      (exec (.reqWake c) s = .next t → s.callIn c .wait) ∧ (exec (.evExpire c) s = .next t → s.callIn c .wait)

/-- R241: `REQ.UNREG` removes the call's entry, the others keeping their order, and sets the terminal state its
outcome names; an entry already removed is no obstacle. It exists in phase `UNREG` only. -/
def Obligations.ReqUnregRemovesTheEntry : Prop :=
  ∀ (s : State) (c : Nat),
    (∀ (e : Nat) (k : Call) (st : CallState), Table.lookup s.calls c = some k → k.ph = .unreg → k.eid = some e →
      (k.out = .completed ∧ st = .completed) ∨ (k.out = .timedOut ∧ st = .timedOut) ∨
        (∃ code, k.out = .wrFailed code ∧ st = .wrFailed) →
      (∀ pre x post, s.regy = pre ++ x :: post → x.eid = e → (∀ y ∈ pre ++ post, y.eid ≠ e) →
        exec (.reqUnreg c) s =
          .next { s with regy := pre ++ post, calls := Table.set s.calls c { k with st := st, ph := .ret } }) ∧
      ((∀ y ∈ s.regy, y.eid ≠ e) →
        exec (.reqUnreg c) s = .next { s with calls := Table.set s.calls c { k with st := st, ph := .ret } })) ∧
    ∀ t, exec (.reqUnreg c) s = .next t → s.callIn c .unreg

/-- R242: the result each outcome stands for is recorded and delivered. The caller here is no consumer
(`ConsumersCheckTheResult` says what one does; assumption 17). The length in `ERR_LEN` is R281's (assumption 21). -/
def Obligations.ReqReturnDeliversTheResult : Prop :=
  ∀ (s : State) (c : Nat) (k : Call) (r : CallResult),
    Table.lookup s.calls c = some k → k.ph = .ret → Table.lookup s.consumers c = none →
    ((∃ w v p, k.out = .completed ∧ k.wid = some w ∧ Table.lookup s.waiters w = some v ∧
        Memory.readBytes v.slot 0 v.plen = some p ∧ r = .ok p) ∨
      (k.out = .timedOut ∧ r = .timeout) ∨ (∃ code, k.out = .wrFailed code ∧ r = .writeErr code) ∨
      (k.out = .refused .errLen ∧ r = .errLen k.payload.length) ∨ (k.out = .refused .regFull ∧ r = .regFull)) →
    exec (.reqReturn c) s =
      .next { s with
        calls := Table.set s.calls c { k with res := some r, ph := .fin }
        history := s.history ++ [.callReturn c r] }

/-- R270, R271: `PING` and `GETINFO` make their request (the call record is the one `REQ` makes) and wait on the call
they create. The consumer record is the model's own (assumption 17). -/
def Obligations.ConsumersMakeTheirRequest : Prop :=
  ∀ s : State,
    exec .ping s =
      .next { s with
        nextCall := s.nextCall + 1
        calls := Table.set s.calls s.nextCall
          { st := .idle, ph := .new, dst := 0x01#8, msg := 0x01#8, payload := [], edst := 0x01#8, emsg := 0x02#8,
            wid := none, eid := none, wire := [], cur := 0, out := .undecided, res := none }
        consumers := Table.set s.consumers s.nextCall ⟨.ping, none⟩ } ∧
    exec .getInfo s =
      .next { s with
        nextCall := s.nextCall + 1
        calls := Table.set s.calls s.nextCall
          { st := .idle, ph := .new, dst := 0x01#8, msg := 0x03#8, payload := [], edst := 0x01#8, emsg := 0x04#8,
            wid := none, eid := none, wire := [], cur := 0, out := .undecided, res := none }
        consumers := Table.set s.consumers s.nextCall ⟨.getInfo, none⟩ }

/-- R270, R271: what a consumer makes of its call's result, in the step that delivers it: success on a status byte
`0x00` and a long enough payload, `PROTO_ERR` on any other payload, every other result passed through. -/
def Obligations.ConsumersCheckTheResult : Prop :=
  ∀ (s t : State) (c : Nat) (k : Call) (kind : ConsumerKind) (r : CallResult) (v : ConsumerResult),
    Table.lookup s.calls c = some k → k.ph = .ret → Table.lookup s.consumers c = some ⟨kind, none⟩ →
    exec (.reqReturn c) { s with consumers := [] } = .next t → t.history = s.history ++ [.callReturn c r] →
    ((kind = .ping ∧ ∃ q, r = .ok (0x00#8 :: q) ∧ v = .success []) ∨
      (kind = .getInfo ∧ ∃ info q, r = .ok (0x00#8 :: (info ++ q)) ∧ info.length = 9 ∧ v = .success info) ∨
      (∃ p, r = .ok p ∧ (p[0]? ≠ some 0x00#8 ∨ (kind = .getInfo ∧ p.length < 10)) ∧ v = .protoErr) ∨
      ((∀ p, r ≠ .ok p) ∧ v = .passed r)) →
    exec (.reqReturn c) s =
      .next { t with
        history := s.history ++ [.callReturn c r, .consumerReturn c v]
        consumers := Table.set s.consumers c ⟨kind, some v⟩ }

/-- R294, R296: a call that has decided its outcome needs two steps of its own to return, and neither can fail:
its entry leaves the registry, then its result is delivered; the link receive state, the waiters and the other
calls are untouched. `State.Inv` is the conjunction of the invariants stated last. -/
def Obligations.DecidedCallReturnsInTwoSteps : Prop :=
  ∀ (s : State) (c : Nat) (k : Call) (rest : List Turn), s.Inv → Table.lookup s.calls c = some k → k.ph = .unreg →
    s.schedule = .call c :: .call c :: rest →
    ∃ t k', steps 2 s = .next t ∧ Table.lookup t.calls c = some k' ∧ k'.ph = .fin ∧
      ((k.out = .timedOut ∧ k'.res = some .timeout) ∨
        (∃ code, k.out = .wrFailed code ∧ k'.res = some (.writeErr code)) ∨
        (∃ w v p, k.out = .completed ∧ k.wid = some w ∧ Table.lookup s.waiters w = some v ∧
          Memory.readBytes v.slot 0 v.plen = some p ∧ k'.res = some (.ok p))) ∧
      (∀ e ∈ t.regy, k.eid ≠ some e.eid) ∧ t.linkView = s.linkView ∧ t.waiters = s.waiters ∧
      ∀ c', c' ≠ c → Table.lookup t.calls c' = Table.lookup s.calls c'

/-- R235, R66: a call that alone takes the turns puts the rest of its wire form on `tx_out` in index order, and
nothing else changes. -/
def Obligations.SendEmitsTheWireInOrder : Prop :=
  ∀ (s : State) (c : Nat) (k : Call) (rest : List Turn),
    Table.wf s.calls → Table.lookup s.calls c = some k → k.ph = .send → k.cur ≤ k.wire.length →
    s.schedule = List.replicate (k.wire.length - k.cur) (.call c) ++ rest →
    steps (k.wire.length - k.cur) s =
      .next { s with
        calls := Table.set s.calls c { k with cur := k.wire.length }
        history := s.history ++ (k.wire.drop k.cur).map .tx
        schedule := rest }

/-- R244: the transitions of a call's state. No step but `RESET` makes any other; a call never vanishes. -/
def Obligations.CallStateTransitions : Prop :=
  ∀ (s t : State) (c : Nat) (k : Call), s.Inv → step s = .next t → ¬ s.resetNext →
    Table.lookup s.calls c = some k →
    ∃ k', Table.lookup t.calls c = some k' ∧
      (k'.st = k.st ∨ (k.st = .idle ∧ k'.st = .registered) ∨ (k.st = .idle ∧ k'.st = .refused) ∨
        (k.st = .registered ∧ (k'.st = .completed ∨ k'.st = .timedOut ∨ k'.st = .wrFailed)))

/-! ### Whole-machine rules -/

/-- R320: `RESET` sets every state element to its value of R37, and then no agent has a step. No value is stated for
the cells of `RXBUF`: they are unspecified. The model's choices here: the parameters stay (assumption 2), the history
of outputs stays (assumption 3), and it does so from any state, as R321 says of a violated precondition (assumption 15). -/
def Obligations.ResetSetsEveryElement : Prop :=
  ∀ s : State, ∃ t, exec .reset s = .next t ∧
    t.rxLen = 0 ∧ t.rxEsc = false ∧ t.rxs = .idle ∧ t.rxChunk = [] ∧ t.rxPos = 0 ∧ t.dsp = none ∧ t.regy = [] ∧
    t.nextEid = 0 ∧ t.nextWid = 0 ∧ t.nextCall = 0 ∧ t.waiters = [] ∧ t.calls = [] ∧ t.params = s.params ∧
    t.schedule = s.schedule ∧ t.history = s.history ∧
    select t .rx = .noStep ∧ ∀ c, select t (.call c) = .noStep

/-- R65, R298: only the RX agent's turns and the host commands `RX.CHUNK`, `RX.RESET` and `RESET` change the link
receive state and the RX sequencing state. -/
def Obligations.LinkStateHasOneWriter : Prop :=
  ∀ (s t : State) (turn : Turn) (rest : List Turn), s.schedule = turn :: rest → step s = .next t →
    t.linkView ≠ s.linkView →
    turn = .rx ∨ turn = .rxReturn ∨ (∃ data, turn = .host 0x05#8 [.bytes data]) ∨ turn = .host 0x06#8 [] ∨
      turn = .host 0x0F#8 []

/-- R298: the RX agent never writes the registry, a call record, an id counter or a consumer. It writes a waiter only
in the step that runs a latched handler: the waiter the latch names, if that is open, completed with the latched
payload. (`State.waiterAt` is the record under the id; for an id never allocated, see assumption 13.) -/
def Obligations.ReceiveAgentLeavesCallersAlone : Prop :=
  ∀ (s t : State) (turn : Turn) (rest : List Turn), s.schedule = turn :: rest → turn = .rx ∨ turn = .rxReturn →
    step s = .next t →
    t.callerView = s.callerView ∧
      (t.waiters = s.waiters ∨
        ∃ l w, turn = .rx ∧ s.rxs = .dsp ∧ s.dsp = some l ∧ l.hnd = .waiter w ∧ (s.waiterAt w).done = false ∧
          l.p.length ≤ 300 ∧ t.waiters = Table.set s.waiters w ((s.waiterAt w).complete l.p)) ∧
      ∀ l w, turn = .rx → s.rxs = .dsp → s.dsp = some l → l.hnd = .waiter w → (s.waiterAt w).done = false →
        t.waiters = Table.set s.waiters w ((s.waiterAt w).complete l.p)

/-- R34, R35: outputs are only appended, the parameters of the run never change, and a step takes exactly one turn
off the schedule. The count of free values drawn never goes back, so none is drawn twice (assumption 13). -/
def Obligations.OutputsOnlyGrow : Prop :=
  ∀ s t : State, step s = .next t →
    s.history <+: t.history ∧ t.params = s.params ∧ t.schedule = s.schedule.tail ∧ s.draws ≤ t.draws

/-- R280: from a state that meets the invariants, a step stops only because no step is enabled (assumption 12), and
the model refuses nothing but an ill-typed host record (assumption 14). -/
def Obligations.EngineNeverFaults : Prop :=
  ∀ s : State, s.Inv →
    (∀ x, step s = .fault x → x = .idle ∨ x = .noStep) ∧
    ∀ x, step s = .refused x → ∃ op args, s.schedule.head? = some (.host op args) ∧ x = .badOperands op

/-- R37: the state after reset, and that it meets every invariant. -/
def Obligations.ResetStateMeetsTheInvariants : Prop :=
  State.reset.Inv ∧ State.reset.HandlerInv ∧ State.reset.OwnerInv ∧ State.reset.quiescent ∧ Memory.wf State.reset.rxbuf

/-- R36 a, b, d: the invariant of the RX agent's state is kept by every step. -/
def Obligations.RxInvariantIsKept : Prop :=
  ∀ s t : State, s.RxInv → step s = .next t → t.RxInv

/-- R36 c, f, h, R29: the invariant of the registry and the invariant of the waiters are each kept by every step. -/
def Obligations.RegistryAndWaiterInvariantsAreKept : Prop :=
  ∀ s t : State, step s = .next t → (s.RegyInv → t.RegyInv) ∧ (s.WaiterInv → t.WaiterInv)

/-- R230, R244: the phase table of the calls is kept by every step from a state that meets the invariants. R201: that
every handler names an allocated waiter is kept as long as no `REG` is given another (assumption 13), and then no step
draws a free value. -/
def Obligations.CallAndHandlerInvariantsAreKept : Prop :=
  ∀ s t : State, s.Inv → step s = .next t →
    t.CallInv ∧ (s.HandlerInv → s.registersAllocated → t.HandlerInv ∧ t.draws = s.draws)

/-- R36 e, R245 a: a call is `REGISTERED` exactly while its entry is in the registry, kept by every step in which
no registry client removes an entry of a call. -/
def Obligations.RegisteredExactlyWhileEntered : Prop :=
  ∀ s t : State, s.Inv → s.OwnerInv → s.ownEntriesOnly → step s = .next t → t.OwnerInv
end

