-- ==== Sys2Proof/Laws/Codec.lean ====
section
/-! SUPPORT. Small laws of the pure functions: the CRC over a sequence, the stuffer, frames. -/

namespace Sys2Proof.Machine

@[simp] theorem fcsUpdate_nil (c : Fcs) : fcsUpdate c [] = c := rfl

@[simp] theorem fcsUpdate_cons (c : Fcs) (b : Byte) (bs : Bytes) : fcsUpdate c (b :: bs) = fcsUpdate (crcByte c b) bs := rfl

/-- The running value is the left fold of the byte step. -/
theorem fcsUpdate_eq_foldl (c : Fcs) (bs : Bytes) : fcsUpdate c bs = bs.foldl crcByte c := by
  induction bs generalizing c with
  | nil => rfl
  | cons b bs ih => exact ih _

theorem fcsUpdate_append (c : Fcs) (u v : Bytes) : fcsUpdate c (u ++ v) = fcsUpdate (fcsUpdate c u) v := by
  simp [fcsUpdate_eq_foldl]

/-- A frame verifies exactly when its register before the complement is the complement of the residual. -/
theorem fcsVerify_iff (f : Bytes) : fcsVerify f = true ↔ fcsUpdate Config.fcsInit f = ~~~Config.fcsGood := by
  simp only [fcsVerify, fcsCompute, beq_iff_eq]
  constructor
  · intro h; rw [← h, BitVec.not_not]
  · intro h; rw [h, BitVec.not_not]

@[simp] theorem stuffSeq_nil : stuffSeq [] = [] := rfl

theorem stuffSeq_append (u v : Bytes) : stuffSeq (u ++ v) = stuffSeq u ++ stuffSeq v := by
  induction u with
  | nil => rfl
  | cons b u ih => simp [stuffSeq, ih]

theorem stuffSeq_eq_flatMap (s : Bytes) : stuffSeq s = s.flatMap stuff := by
  induction s with
  | nil => rfl
  | cons b s ih => simp [stuffSeq, ih]

theorem encWire_length (raw : Bytes) : (encWire raw).length = (stuffSeq raw).length + 2 := by simp [encWire]

theorem frameOf_length (dst msg : Byte) (payload : Bytes) : (frameOf dst msg payload).length = payload.length + 4 := by
  simp [frameOf, fcsBytes]

/-- The payload taken back out of a frame. -/
theorem framePayload_append (payload : Bytes) (lo hi : Byte) : framePayload (payload ++ [lo, hi]) = payload := by
  simp [framePayload]

@[simp] theorem wireKey_esc (esc : Bool) (b : Byte) : WireKey.esc (wireKey esc b) = esc := by
  revert esc b; decide

@[simp] theorem wireKey_byte (esc : Bool) (b : Byte) : WireKey.byte (wireKey esc b) = b := by
  revert esc b; decide

end Sys2Proof.Machine
end

