-- ==== Sys2Proof/Laws/State.lean ====
section
/-! SUPPORT. One lemma for each field of the state after each named update of it. -/

namespace Sys2Proof.Machine

variable (s : State)

/-! `State.emit` -/
@[simp] theorem State.emit_rxbuf (e : Event) : (s.emit e).rxbuf = s.rxbuf := rfl
@[simp] theorem State.emit_rxLen (e : Event) : (s.emit e).rxLen = s.rxLen := rfl
@[simp] theorem State.emit_rxEsc (e : Event) : (s.emit e).rxEsc = s.rxEsc := rfl
@[simp] theorem State.emit_rxs (e : Event) : (s.emit e).rxs = s.rxs := rfl
@[simp] theorem State.emit_rxChunk (e : Event) : (s.emit e).rxChunk = s.rxChunk := rfl
@[simp] theorem State.emit_rxPos (e : Event) : (s.emit e).rxPos = s.rxPos := rfl
@[simp] theorem State.emit_dsp (e : Event) : (s.emit e).dsp = s.dsp := rfl
@[simp] theorem State.emit_regy (e : Event) : (s.emit e).regy = s.regy := rfl
@[simp] theorem State.emit_nextEid (e : Event) : (s.emit e).nextEid = s.nextEid := rfl
@[simp] theorem State.emit_nextWid (e : Event) : (s.emit e).nextWid = s.nextWid := rfl
@[simp] theorem State.emit_nextCall (e : Event) : (s.emit e).nextCall = s.nextCall := rfl
@[simp] theorem State.emit_waiters (e : Event) : (s.emit e).waiters = s.waiters := rfl
@[simp] theorem State.emit_calls (e : Event) : (s.emit e).calls = s.calls := rfl
@[simp] theorem State.emit_params (e : Event) : (s.emit e).params = s.params := rfl
@[simp] theorem State.emit_schedule (e : Event) : (s.emit e).schedule = s.schedule := rfl
@[simp] theorem State.emit_history (e : Event) : (s.emit e).history = s.history ++ [e] := rfl
@[simp] theorem State.emit_consumers (e : Event) : (s.emit e).consumers = s.consumers := rfl
@[simp] theorem State.emit_draws (e : Event) : (s.emit e).draws = s.draws := rfl

/-! `State.deliver` -/
@[simp] theorem State.deliver_rxbuf (r : Reply) : (s.deliver r).rxbuf = s.rxbuf := rfl
@[simp] theorem State.deliver_rxLen (r : Reply) : (s.deliver r).rxLen = s.rxLen := rfl
@[simp] theorem State.deliver_rxEsc (r : Reply) : (s.deliver r).rxEsc = s.rxEsc := rfl
@[simp] theorem State.deliver_rxs (r : Reply) : (s.deliver r).rxs = s.rxs := rfl
@[simp] theorem State.deliver_rxChunk (r : Reply) : (s.deliver r).rxChunk = s.rxChunk := rfl
@[simp] theorem State.deliver_rxPos (r : Reply) : (s.deliver r).rxPos = s.rxPos := rfl
@[simp] theorem State.deliver_dsp (r : Reply) : (s.deliver r).dsp = s.dsp := rfl
@[simp] theorem State.deliver_regy (r : Reply) : (s.deliver r).regy = s.regy := rfl
@[simp] theorem State.deliver_nextEid (r : Reply) : (s.deliver r).nextEid = s.nextEid := rfl
@[simp] theorem State.deliver_nextWid (r : Reply) : (s.deliver r).nextWid = s.nextWid := rfl
@[simp] theorem State.deliver_nextCall (r : Reply) : (s.deliver r).nextCall = s.nextCall := rfl
@[simp] theorem State.deliver_waiters (r : Reply) : (s.deliver r).waiters = s.waiters := rfl
@[simp] theorem State.deliver_calls (r : Reply) : (s.deliver r).calls = s.calls := rfl
@[simp] theorem State.deliver_params (r : Reply) : (s.deliver r).params = s.params := rfl
@[simp] theorem State.deliver_schedule (r : Reply) : (s.deliver r).schedule = s.schedule := rfl
@[simp] theorem State.deliver_history (r : Reply) : (s.deliver r).history = s.history ++ [.reply r] := rfl
@[simp] theorem State.deliver_consumers (r : Reply) : (s.deliver r).consumers = s.consumers := rfl
@[simp] theorem State.deliver_draws (r : Reply) : (s.deliver r).draws = s.draws := rfl

/-! `State.advance` -/
@[simp] theorem State.advance_rxbuf : (s.advance).rxbuf = s.rxbuf := rfl
@[simp] theorem State.advance_rxLen : (s.advance).rxLen = s.rxLen := rfl
@[simp] theorem State.advance_rxEsc : (s.advance).rxEsc = s.rxEsc := rfl
@[simp] theorem State.advance_rxs : (s.advance).rxs = s.rxs := rfl
@[simp] theorem State.advance_rxChunk : (s.advance).rxChunk = s.rxChunk := rfl
@[simp] theorem State.advance_rxPos : (s.advance).rxPos = s.rxPos + 1 := rfl
@[simp] theorem State.advance_dsp : (s.advance).dsp = s.dsp := rfl
@[simp] theorem State.advance_regy : (s.advance).regy = s.regy := rfl
@[simp] theorem State.advance_nextEid : (s.advance).nextEid = s.nextEid := rfl
@[simp] theorem State.advance_nextWid : (s.advance).nextWid = s.nextWid := rfl
@[simp] theorem State.advance_nextCall : (s.advance).nextCall = s.nextCall := rfl
@[simp] theorem State.advance_waiters : (s.advance).waiters = s.waiters := rfl
@[simp] theorem State.advance_calls : (s.advance).calls = s.calls := rfl
@[simp] theorem State.advance_params : (s.advance).params = s.params := rfl
@[simp] theorem State.advance_schedule : (s.advance).schedule = s.schedule := rfl
@[simp] theorem State.advance_history : (s.advance).history = s.history := rfl
@[simp] theorem State.advance_consumers : (s.advance).consumers = s.consumers := rfl
@[simp] theorem State.advance_draws : (s.advance).draws = s.draws := rfl

/-! `State.append` -/
@[simp] theorem State.append_rxbuf (b : Byte) : (s.append b).rxbuf = Memory.write s.rxbuf s.rxLen b := rfl
@[simp] theorem State.append_rxLen (b : Byte) : (s.append b).rxLen = s.rxLen + 1 := rfl
@[simp] theorem State.append_rxEsc (b : Byte) : (s.append b).rxEsc = s.rxEsc := rfl
@[simp] theorem State.append_rxs (b : Byte) : (s.append b).rxs = s.rxs := rfl
@[simp] theorem State.append_rxChunk (b : Byte) : (s.append b).rxChunk = s.rxChunk := rfl
@[simp] theorem State.append_rxPos (b : Byte) : (s.append b).rxPos = s.rxPos := rfl
@[simp] theorem State.append_dsp (b : Byte) : (s.append b).dsp = s.dsp := rfl
@[simp] theorem State.append_regy (b : Byte) : (s.append b).regy = s.regy := rfl
@[simp] theorem State.append_nextEid (b : Byte) : (s.append b).nextEid = s.nextEid := rfl
@[simp] theorem State.append_nextWid (b : Byte) : (s.append b).nextWid = s.nextWid := rfl
@[simp] theorem State.append_nextCall (b : Byte) : (s.append b).nextCall = s.nextCall := rfl
@[simp] theorem State.append_waiters (b : Byte) : (s.append b).waiters = s.waiters := rfl
@[simp] theorem State.append_calls (b : Byte) : (s.append b).calls = s.calls := rfl
@[simp] theorem State.append_params (b : Byte) : (s.append b).params = s.params := rfl
@[simp] theorem State.append_schedule (b : Byte) : (s.append b).schedule = s.schedule := rfl
@[simp] theorem State.append_history (b : Byte) : (s.append b).history = s.history := rfl
@[simp] theorem State.append_consumers (b : Byte) : (s.append b).consumers = s.consumers := rfl
@[simp] theorem State.append_draws (b : Byte) : (s.append b).draws = s.draws := rfl

/-! `State.clearBuffer` -/
@[simp] theorem State.clearBuffer_rxbuf : (s.clearBuffer).rxbuf = [] := rfl
@[simp] theorem State.clearBuffer_rxLen : (s.clearBuffer).rxLen = 0 := rfl
@[simp] theorem State.clearBuffer_rxEsc : (s.clearBuffer).rxEsc = s.rxEsc := rfl
@[simp] theorem State.clearBuffer_rxs : (s.clearBuffer).rxs = s.rxs := rfl
@[simp] theorem State.clearBuffer_rxChunk : (s.clearBuffer).rxChunk = s.rxChunk := rfl
@[simp] theorem State.clearBuffer_rxPos : (s.clearBuffer).rxPos = s.rxPos := rfl
@[simp] theorem State.clearBuffer_dsp : (s.clearBuffer).dsp = s.dsp := rfl
@[simp] theorem State.clearBuffer_regy : (s.clearBuffer).regy = s.regy := rfl
@[simp] theorem State.clearBuffer_nextEid : (s.clearBuffer).nextEid = s.nextEid := rfl
@[simp] theorem State.clearBuffer_nextWid : (s.clearBuffer).nextWid = s.nextWid := rfl
@[simp] theorem State.clearBuffer_nextCall : (s.clearBuffer).nextCall = s.nextCall := rfl
@[simp] theorem State.clearBuffer_waiters : (s.clearBuffer).waiters = s.waiters := rfl
@[simp] theorem State.clearBuffer_calls : (s.clearBuffer).calls = s.calls := rfl
@[simp] theorem State.clearBuffer_params : (s.clearBuffer).params = s.params := rfl
@[simp] theorem State.clearBuffer_schedule : (s.clearBuffer).schedule = s.schedule := rfl
@[simp] theorem State.clearBuffer_history : (s.clearBuffer).history = s.history := rfl
@[simp] theorem State.clearBuffer_consumers : (s.clearBuffer).consumers = s.consumers := rfl
@[simp] theorem State.clearBuffer_draws : (s.clearBuffer).draws = s.draws := rfl

/-! `State.latch` -/
@[simp] theorem State.latch_rxbuf (l : Latch) : (s.latch l).rxbuf = s.rxbuf := rfl
@[simp] theorem State.latch_rxLen (l : Latch) : (s.latch l).rxLen = s.rxLen := rfl
@[simp] theorem State.latch_rxEsc (l : Latch) : (s.latch l).rxEsc = s.rxEsc := rfl
@[simp] theorem State.latch_rxs (l : Latch) : (s.latch l).rxs = .dsp := rfl
@[simp] theorem State.latch_rxChunk (l : Latch) : (s.latch l).rxChunk = s.rxChunk := rfl
@[simp] theorem State.latch_rxPos (l : Latch) : (s.latch l).rxPos = s.rxPos := rfl
@[simp] theorem State.latch_dsp (l : Latch) : (s.latch l).dsp = some l := rfl
@[simp] theorem State.latch_regy (l : Latch) : (s.latch l).regy = s.regy := rfl
@[simp] theorem State.latch_nextEid (l : Latch) : (s.latch l).nextEid = s.nextEid := rfl
@[simp] theorem State.latch_nextWid (l : Latch) : (s.latch l).nextWid = s.nextWid := rfl
@[simp] theorem State.latch_nextCall (l : Latch) : (s.latch l).nextCall = s.nextCall := rfl
@[simp] theorem State.latch_waiters (l : Latch) : (s.latch l).waiters = s.waiters := rfl
@[simp] theorem State.latch_calls (l : Latch) : (s.latch l).calls = s.calls := rfl
@[simp] theorem State.latch_params (l : Latch) : (s.latch l).params = s.params := rfl
@[simp] theorem State.latch_schedule (l : Latch) : (s.latch l).schedule = s.schedule := rfl
@[simp] theorem State.latch_history (l : Latch) : (s.latch l).history = s.history := rfl
@[simp] theorem State.latch_consumers (l : Latch) : (s.latch l).consumers = s.consumers := rfl
@[simp] theorem State.latch_draws (l : Latch) : (s.latch l).draws = s.draws := rfl

/-! `State.unlatch` -/
@[simp] theorem State.unlatch_rxbuf : (s.unlatch).rxbuf = s.rxbuf := rfl
@[simp] theorem State.unlatch_rxLen : (s.unlatch).rxLen = s.rxLen := rfl
@[simp] theorem State.unlatch_rxEsc : (s.unlatch).rxEsc = s.rxEsc := rfl
@[simp] theorem State.unlatch_rxs : (s.unlatch).rxs = .run := rfl
@[simp] theorem State.unlatch_rxChunk : (s.unlatch).rxChunk = s.rxChunk := rfl
@[simp] theorem State.unlatch_rxPos : (s.unlatch).rxPos = s.rxPos := rfl
@[simp] theorem State.unlatch_dsp : (s.unlatch).dsp = none := rfl
@[simp] theorem State.unlatch_regy : (s.unlatch).regy = s.regy := rfl
@[simp] theorem State.unlatch_nextEid : (s.unlatch).nextEid = s.nextEid := rfl
@[simp] theorem State.unlatch_nextWid : (s.unlatch).nextWid = s.nextWid := rfl
@[simp] theorem State.unlatch_nextCall : (s.unlatch).nextCall = s.nextCall := rfl
@[simp] theorem State.unlatch_waiters : (s.unlatch).waiters = s.waiters := rfl
@[simp] theorem State.unlatch_calls : (s.unlatch).calls = s.calls := rfl
@[simp] theorem State.unlatch_params : (s.unlatch).params = s.params := rfl
@[simp] theorem State.unlatch_schedule : (s.unlatch).schedule = s.schedule := rfl
@[simp] theorem State.unlatch_history : (s.unlatch).history = s.history := rfl
@[simp] theorem State.unlatch_consumers : (s.unlatch).consumers = s.consumers := rfl
@[simp] theorem State.unlatch_draws : (s.unlatch).draws = s.draws := rfl

/-! `State.setEsc` -/
@[simp] theorem State.setEsc_rxbuf : (s.setEsc).rxbuf = s.rxbuf := rfl
@[simp] theorem State.setEsc_rxLen : (s.setEsc).rxLen = s.rxLen := rfl
@[simp] theorem State.setEsc_rxEsc : (s.setEsc).rxEsc = true := rfl
@[simp] theorem State.setEsc_rxs : (s.setEsc).rxs = s.rxs := rfl
@[simp] theorem State.setEsc_rxChunk : (s.setEsc).rxChunk = s.rxChunk := rfl
@[simp] theorem State.setEsc_rxPos : (s.setEsc).rxPos = s.rxPos := rfl
@[simp] theorem State.setEsc_dsp : (s.setEsc).dsp = s.dsp := rfl
@[simp] theorem State.setEsc_regy : (s.setEsc).regy = s.regy := rfl
@[simp] theorem State.setEsc_nextEid : (s.setEsc).nextEid = s.nextEid := rfl
@[simp] theorem State.setEsc_nextWid : (s.setEsc).nextWid = s.nextWid := rfl
@[simp] theorem State.setEsc_nextCall : (s.setEsc).nextCall = s.nextCall := rfl
@[simp] theorem State.setEsc_waiters : (s.setEsc).waiters = s.waiters := rfl
@[simp] theorem State.setEsc_calls : (s.setEsc).calls = s.calls := rfl
@[simp] theorem State.setEsc_params : (s.setEsc).params = s.params := rfl
@[simp] theorem State.setEsc_schedule : (s.setEsc).schedule = s.schedule := rfl
@[simp] theorem State.setEsc_history : (s.setEsc).history = s.history := rfl
@[simp] theorem State.setEsc_consumers : (s.setEsc).consumers = s.consumers := rfl
@[simp] theorem State.setEsc_draws : (s.setEsc).draws = s.draws := rfl

/-! `State.clearEsc` -/
@[simp] theorem State.clearEsc_rxbuf : (s.clearEsc).rxbuf = s.rxbuf := rfl
@[simp] theorem State.clearEsc_rxLen : (s.clearEsc).rxLen = s.rxLen := rfl
@[simp] theorem State.clearEsc_rxEsc : (s.clearEsc).rxEsc = false := rfl
@[simp] theorem State.clearEsc_rxs : (s.clearEsc).rxs = s.rxs := rfl
@[simp] theorem State.clearEsc_rxChunk : (s.clearEsc).rxChunk = s.rxChunk := rfl
@[simp] theorem State.clearEsc_rxPos : (s.clearEsc).rxPos = s.rxPos := rfl
@[simp] theorem State.clearEsc_dsp : (s.clearEsc).dsp = s.dsp := rfl
@[simp] theorem State.clearEsc_regy : (s.clearEsc).regy = s.regy := rfl
@[simp] theorem State.clearEsc_nextEid : (s.clearEsc).nextEid = s.nextEid := rfl
@[simp] theorem State.clearEsc_nextWid : (s.clearEsc).nextWid = s.nextWid := rfl
@[simp] theorem State.clearEsc_nextCall : (s.clearEsc).nextCall = s.nextCall := rfl
@[simp] theorem State.clearEsc_waiters : (s.clearEsc).waiters = s.waiters := rfl
@[simp] theorem State.clearEsc_calls : (s.clearEsc).calls = s.calls := rfl
@[simp] theorem State.clearEsc_params : (s.clearEsc).params = s.params := rfl
@[simp] theorem State.clearEsc_schedule : (s.clearEsc).schedule = s.schedule := rfl
@[simp] theorem State.clearEsc_history : (s.clearEsc).history = s.history := rfl
@[simp] theorem State.clearEsc_consumers : (s.clearEsc).consumers = s.consumers := rfl
@[simp] theorem State.clearEsc_draws : (s.clearEsc).draws = s.draws := rfl

/-! `State.register` -/
@[simp] theorem State.register_rxbuf (d m : Byte) (h : Handler) : (s.register d m h).rxbuf = s.rxbuf := rfl
@[simp] theorem State.register_rxLen (d m : Byte) (h : Handler) : (s.register d m h).rxLen = s.rxLen := rfl
@[simp] theorem State.register_rxEsc (d m : Byte) (h : Handler) : (s.register d m h).rxEsc = s.rxEsc := rfl
@[simp] theorem State.register_rxs (d m : Byte) (h : Handler) : (s.register d m h).rxs = s.rxs := rfl
@[simp] theorem State.register_rxChunk (d m : Byte) (h : Handler) : (s.register d m h).rxChunk = s.rxChunk := rfl
@[simp] theorem State.register_rxPos (d m : Byte) (h : Handler) : (s.register d m h).rxPos = s.rxPos := rfl
@[simp] theorem State.register_dsp (d m : Byte) (h : Handler) : (s.register d m h).dsp = s.dsp := rfl
@[simp] theorem State.register_regy (d m : Byte) (h : Handler) : (s.register d m h).regy = s.regy ++ [s.newEntry d m h] := rfl
@[simp] theorem State.register_nextEid (d m : Byte) (h : Handler) : (s.register d m h).nextEid = s.nextEid + 1 := rfl
@[simp] theorem State.register_nextWid (d m : Byte) (h : Handler) : (s.register d m h).nextWid = s.nextWid := rfl
@[simp] theorem State.register_nextCall (d m : Byte) (h : Handler) : (s.register d m h).nextCall = s.nextCall := rfl
@[simp] theorem State.register_waiters (d m : Byte) (h : Handler) : (s.register d m h).waiters = s.waiters := rfl
@[simp] theorem State.register_calls (d m : Byte) (h : Handler) : (s.register d m h).calls = s.calls := rfl
@[simp] theorem State.register_params (d m : Byte) (h : Handler) : (s.register d m h).params = s.params := rfl
@[simp] theorem State.register_schedule (d m : Byte) (h : Handler) : (s.register d m h).schedule = s.schedule := rfl
@[simp] theorem State.register_history (d m : Byte) (h : Handler) : (s.register d m h).history = s.history := rfl
@[simp] theorem State.register_consumers (d m : Byte) (h : Handler) : (s.register d m h).consumers = s.consumers := rfl
@[simp] theorem State.register_draws (d m : Byte) (h : Handler) : (s.register d m h).draws = s.draws := rfl

/-! `State.unregister` -/
@[simp] theorem State.unregister_rxbuf (e : Nat) : (s.unregister e).rxbuf = s.rxbuf := rfl
@[simp] theorem State.unregister_rxLen (e : Nat) : (s.unregister e).rxLen = s.rxLen := rfl
@[simp] theorem State.unregister_rxEsc (e : Nat) : (s.unregister e).rxEsc = s.rxEsc := rfl
@[simp] theorem State.unregister_rxs (e : Nat) : (s.unregister e).rxs = s.rxs := rfl
@[simp] theorem State.unregister_rxChunk (e : Nat) : (s.unregister e).rxChunk = s.rxChunk := rfl
@[simp] theorem State.unregister_rxPos (e : Nat) : (s.unregister e).rxPos = s.rxPos := rfl
@[simp] theorem State.unregister_dsp (e : Nat) : (s.unregister e).dsp = s.dsp := rfl
@[simp] theorem State.unregister_regy (e : Nat) : (s.unregister e).regy = s.regy.filter (fun x => x.eid != e) := rfl
@[simp] theorem State.unregister_nextEid (e : Nat) : (s.unregister e).nextEid = s.nextEid := rfl
@[simp] theorem State.unregister_nextWid (e : Nat) : (s.unregister e).nextWid = s.nextWid := rfl
@[simp] theorem State.unregister_nextCall (e : Nat) : (s.unregister e).nextCall = s.nextCall := rfl
@[simp] theorem State.unregister_waiters (e : Nat) : (s.unregister e).waiters = s.waiters := rfl
@[simp] theorem State.unregister_calls (e : Nat) : (s.unregister e).calls = s.calls := rfl
@[simp] theorem State.unregister_params (e : Nat) : (s.unregister e).params = s.params := rfl
@[simp] theorem State.unregister_schedule (e : Nat) : (s.unregister e).schedule = s.schedule := rfl
@[simp] theorem State.unregister_history (e : Nat) : (s.unregister e).history = s.history := rfl
@[simp] theorem State.unregister_consumers (e : Nat) : (s.unregister e).consumers = s.consumers := rfl
@[simp] theorem State.unregister_draws (e : Nat) : (s.unregister e).draws = s.draws := rfl

/-! `State.setWaiter` -/
@[simp] theorem State.setWaiter_rxbuf (w : Nat) (v : Waiter) : (s.setWaiter w v).rxbuf = s.rxbuf := rfl
@[simp] theorem State.setWaiter_rxLen (w : Nat) (v : Waiter) : (s.setWaiter w v).rxLen = s.rxLen := rfl
@[simp] theorem State.setWaiter_rxEsc (w : Nat) (v : Waiter) : (s.setWaiter w v).rxEsc = s.rxEsc := rfl
@[simp] theorem State.setWaiter_rxs (w : Nat) (v : Waiter) : (s.setWaiter w v).rxs = s.rxs := rfl
@[simp] theorem State.setWaiter_rxChunk (w : Nat) (v : Waiter) : (s.setWaiter w v).rxChunk = s.rxChunk := rfl
@[simp] theorem State.setWaiter_rxPos (w : Nat) (v : Waiter) : (s.setWaiter w v).rxPos = s.rxPos := rfl
@[simp] theorem State.setWaiter_dsp (w : Nat) (v : Waiter) : (s.setWaiter w v).dsp = s.dsp := rfl
@[simp] theorem State.setWaiter_regy (w : Nat) (v : Waiter) : (s.setWaiter w v).regy = s.regy := rfl
@[simp] theorem State.setWaiter_nextEid (w : Nat) (v : Waiter) : (s.setWaiter w v).nextEid = s.nextEid := rfl
@[simp] theorem State.setWaiter_nextWid (w : Nat) (v : Waiter) : (s.setWaiter w v).nextWid = s.nextWid := rfl
@[simp] theorem State.setWaiter_nextCall (w : Nat) (v : Waiter) : (s.setWaiter w v).nextCall = s.nextCall := rfl
@[simp] theorem State.setWaiter_waiters (w : Nat) (v : Waiter) : (s.setWaiter w v).waiters = Table.set s.waiters w v := rfl
@[simp] theorem State.setWaiter_calls (w : Nat) (v : Waiter) : (s.setWaiter w v).calls = s.calls := rfl
@[simp] theorem State.setWaiter_params (w : Nat) (v : Waiter) : (s.setWaiter w v).params = s.params := rfl
@[simp] theorem State.setWaiter_schedule (w : Nat) (v : Waiter) : (s.setWaiter w v).schedule = s.schedule := rfl
@[simp] theorem State.setWaiter_history (w : Nat) (v : Waiter) : (s.setWaiter w v).history = s.history := rfl
@[simp] theorem State.setWaiter_consumers (w : Nat) (v : Waiter) : (s.setWaiter w v).consumers = s.consumers := rfl
@[simp] theorem State.setWaiter_draws (w : Nat) (v : Waiter) : (s.setWaiter w v).draws = s.draws := rfl

/-! `State.setCall` -/
@[simp] theorem State.setCall_rxbuf (c : Nat) (k : Call) : (s.setCall c k).rxbuf = s.rxbuf := rfl
@[simp] theorem State.setCall_rxLen (c : Nat) (k : Call) : (s.setCall c k).rxLen = s.rxLen := rfl
@[simp] theorem State.setCall_rxEsc (c : Nat) (k : Call) : (s.setCall c k).rxEsc = s.rxEsc := rfl
@[simp] theorem State.setCall_rxs (c : Nat) (k : Call) : (s.setCall c k).rxs = s.rxs := rfl
@[simp] theorem State.setCall_rxChunk (c : Nat) (k : Call) : (s.setCall c k).rxChunk = s.rxChunk := rfl
@[simp] theorem State.setCall_rxPos (c : Nat) (k : Call) : (s.setCall c k).rxPos = s.rxPos := rfl
@[simp] theorem State.setCall_dsp (c : Nat) (k : Call) : (s.setCall c k).dsp = s.dsp := rfl
@[simp] theorem State.setCall_regy (c : Nat) (k : Call) : (s.setCall c k).regy = s.regy := rfl
@[simp] theorem State.setCall_nextEid (c : Nat) (k : Call) : (s.setCall c k).nextEid = s.nextEid := rfl
@[simp] theorem State.setCall_nextWid (c : Nat) (k : Call) : (s.setCall c k).nextWid = s.nextWid := rfl
@[simp] theorem State.setCall_nextCall (c : Nat) (k : Call) : (s.setCall c k).nextCall = s.nextCall := rfl
@[simp] theorem State.setCall_waiters (c : Nat) (k : Call) : (s.setCall c k).waiters = s.waiters := rfl
@[simp] theorem State.setCall_calls (c : Nat) (k : Call) : (s.setCall c k).calls = Table.set s.calls c k := rfl
@[simp] theorem State.setCall_params (c : Nat) (k : Call) : (s.setCall c k).params = s.params := rfl
@[simp] theorem State.setCall_schedule (c : Nat) (k : Call) : (s.setCall c k).schedule = s.schedule := rfl
@[simp] theorem State.setCall_history (c : Nat) (k : Call) : (s.setCall c k).history = s.history := rfl
@[simp] theorem State.setCall_consumers (c : Nat) (k : Call) : (s.setCall c k).consumers = s.consumers := rfl
@[simp] theorem State.setCall_draws (c : Nat) (k : Call) : (s.setCall c k).draws = s.draws := rfl

/-! `State.startCall` -/
@[simp] theorem State.startCall_rxbuf (d m : Byte) (p : Bytes) (ed em : Byte) : (s.startCall d m p ed em).rxbuf = s.rxbuf := rfl
@[simp] theorem State.startCall_rxLen (d m : Byte) (p : Bytes) (ed em : Byte) : (s.startCall d m p ed em).rxLen = s.rxLen := rfl
@[simp] theorem State.startCall_rxEsc (d m : Byte) (p : Bytes) (ed em : Byte) : (s.startCall d m p ed em).rxEsc = s.rxEsc := rfl
@[simp] theorem State.startCall_rxs (d m : Byte) (p : Bytes) (ed em : Byte) : (s.startCall d m p ed em).rxs = s.rxs := rfl
@[simp] theorem State.startCall_rxChunk (d m : Byte) (p : Bytes) (ed em : Byte) : (s.startCall d m p ed em).rxChunk = s.rxChunk := rfl
@[simp] theorem State.startCall_rxPos (d m : Byte) (p : Bytes) (ed em : Byte) : (s.startCall d m p ed em).rxPos = s.rxPos := rfl
@[simp] theorem State.startCall_dsp (d m : Byte) (p : Bytes) (ed em : Byte) : (s.startCall d m p ed em).dsp = s.dsp := rfl
@[simp] theorem State.startCall_regy (d m : Byte) (p : Bytes) (ed em : Byte) : (s.startCall d m p ed em).regy = s.regy := rfl
@[simp] theorem State.startCall_nextEid (d m : Byte) (p : Bytes) (ed em : Byte) : (s.startCall d m p ed em).nextEid = s.nextEid := rfl
@[simp] theorem State.startCall_nextWid (d m : Byte) (p : Bytes) (ed em : Byte) : (s.startCall d m p ed em).nextWid = s.nextWid := rfl
@[simp] theorem State.startCall_nextCall (d m : Byte) (p : Bytes) (ed em : Byte) : (s.startCall d m p ed em).nextCall = s.nextCall + 1 := rfl
@[simp] theorem State.startCall_waiters (d m : Byte) (p : Bytes) (ed em : Byte) : (s.startCall d m p ed em).waiters = s.waiters := rfl
@[simp] theorem State.startCall_calls (d m : Byte) (p : Bytes) (ed em : Byte) : (s.startCall d m p ed em).calls = Table.set s.calls s.nextCall (Call.fresh d m p ed em) := rfl
@[simp] theorem State.startCall_params (d m : Byte) (p : Bytes) (ed em : Byte) : (s.startCall d m p ed em).params = s.params := rfl
@[simp] theorem State.startCall_schedule (d m : Byte) (p : Bytes) (ed em : Byte) : (s.startCall d m p ed em).schedule = s.schedule := rfl
@[simp] theorem State.startCall_history (d m : Byte) (p : Bytes) (ed em : Byte) : (s.startCall d m p ed em).history = s.history := rfl
@[simp] theorem State.startCall_consumers (d m : Byte) (p : Bytes) (ed em : Byte) : (s.startCall d m p ed em).consumers = s.consumers := rfl
@[simp] theorem State.startCall_draws (d m : Byte) (p : Bytes) (ed em : Byte) : (s.startCall d m p ed em).draws = s.draws := rfl

/-! `State.popTurn` -/
@[simp] theorem State.popTurn_rxbuf : (s.popTurn).rxbuf = s.rxbuf := rfl
@[simp] theorem State.popTurn_rxLen : (s.popTurn).rxLen = s.rxLen := rfl
@[simp] theorem State.popTurn_rxEsc : (s.popTurn).rxEsc = s.rxEsc := rfl
@[simp] theorem State.popTurn_rxs : (s.popTurn).rxs = s.rxs := rfl
@[simp] theorem State.popTurn_rxChunk : (s.popTurn).rxChunk = s.rxChunk := rfl
@[simp] theorem State.popTurn_rxPos : (s.popTurn).rxPos = s.rxPos := rfl
@[simp] theorem State.popTurn_dsp : (s.popTurn).dsp = s.dsp := rfl
@[simp] theorem State.popTurn_regy : (s.popTurn).regy = s.regy := rfl
@[simp] theorem State.popTurn_nextEid : (s.popTurn).nextEid = s.nextEid := rfl
@[simp] theorem State.popTurn_nextWid : (s.popTurn).nextWid = s.nextWid := rfl
@[simp] theorem State.popTurn_nextCall : (s.popTurn).nextCall = s.nextCall := rfl
@[simp] theorem State.popTurn_waiters : (s.popTurn).waiters = s.waiters := rfl
@[simp] theorem State.popTurn_calls : (s.popTurn).calls = s.calls := rfl
@[simp] theorem State.popTurn_params : (s.popTurn).params = s.params := rfl
@[simp] theorem State.popTurn_schedule : (s.popTurn).schedule = s.schedule.tail := rfl
@[simp] theorem State.popTurn_history : (s.popTurn).history = s.history := rfl
@[simp] theorem State.popTurn_consumers : (s.popTurn).consumers = s.consumers := rfl
@[simp] theorem State.popTurn_draws : (s.popTurn).draws = s.draws := rfl

/-! `State.noteDraw` and `State.waiterAt` -/
@[simp] theorem State.noteDraw_rxbuf (w : Nat) : (s.noteDraw w).rxbuf = s.rxbuf := rfl
@[simp] theorem State.noteDraw_rxLen (w : Nat) : (s.noteDraw w).rxLen = s.rxLen := rfl
@[simp] theorem State.noteDraw_rxEsc (w : Nat) : (s.noteDraw w).rxEsc = s.rxEsc := rfl
@[simp] theorem State.noteDraw_rxs (w : Nat) : (s.noteDraw w).rxs = s.rxs := rfl
@[simp] theorem State.noteDraw_rxChunk (w : Nat) : (s.noteDraw w).rxChunk = s.rxChunk := rfl
@[simp] theorem State.noteDraw_rxPos (w : Nat) : (s.noteDraw w).rxPos = s.rxPos := rfl
@[simp] theorem State.noteDraw_dsp (w : Nat) : (s.noteDraw w).dsp = s.dsp := rfl
@[simp] theorem State.noteDraw_regy (w : Nat) : (s.noteDraw w).regy = s.regy := rfl
@[simp] theorem State.noteDraw_nextEid (w : Nat) : (s.noteDraw w).nextEid = s.nextEid := rfl
@[simp] theorem State.noteDraw_nextWid (w : Nat) : (s.noteDraw w).nextWid = s.nextWid := rfl
@[simp] theorem State.noteDraw_nextCall (w : Nat) : (s.noteDraw w).nextCall = s.nextCall := rfl
@[simp] theorem State.noteDraw_waiters (w : Nat) : (s.noteDraw w).waiters = s.waiters := rfl
@[simp] theorem State.noteDraw_calls (w : Nat) : (s.noteDraw w).calls = s.calls := rfl
@[simp] theorem State.noteDraw_params (w : Nat) : (s.noteDraw w).params = s.params := rfl
@[simp] theorem State.noteDraw_schedule (w : Nat) : (s.noteDraw w).schedule = s.schedule := rfl
@[simp] theorem State.noteDraw_history (w : Nat) : (s.noteDraw w).history = s.history := rfl
@[simp] theorem State.noteDraw_consumers (w : Nat) : (s.noteDraw w).consumers = s.consumers := rfl

variable {s}

theorem State.waiterAt_some {w : Nat} {v : Waiter} (h : Table.lookup s.waiters w = some v) : s.waiterAt w = v := by
  simp [State.waiterAt, h]

theorem State.waiterAt_none {w : Nat} (h : Table.lookup s.waiters w = none) :
    s.waiterAt w = ⟨Config.unallocatedDone s.draws, 0, []⟩ := by
  simp [State.waiterAt, h]

theorem State.noteDraw_some {w : Nat} {v : Waiter} (h : Table.lookup s.waiters w = some v) : s.noteDraw w = s := by
  simp [State.noteDraw, h]

theorem State.noteDraw_none {w : Nat} (h : Table.lookup s.waiters w = none) :
    s.noteDraw w = { s with draws := s.draws + 1 } := by
  simp [State.noteDraw, h]

end Sys2Proof.Machine
end

