-- ==== Sys2Proof/Laws/Table.lean ====
section
/-! SUPPORT. Tables and byte memories: a read after a write, the canonical form, the dense form, byte ranges. -/

namespace Sys2Proof.Machine

variable {α : Type}

@[simp] theorem Table.lookup_nil (k : Nat) : Table.lookup ([] : Table α) k = none := rfl

@[simp] theorem Table.lookup_set_same (t : Table α) (k : Nat) (v : α) : Table.lookup (Table.set t k v) k = some v := by
  induction t with
  | nil => simp [Table.set, Table.lookup]
  | cons x t ih =>
    obtain ⟨j, u⟩ := x
    simp only [Table.set]
    split
    · simp [Table.lookup]
    · split
      · simp [Table.lookup]
      · simp [Table.lookup, *]

theorem Table.lookup_set_other (t : Table α) {j k : Nat} (v : α) (h : j ≠ k) :
    Table.lookup (Table.set t k v) j = Table.lookup t j := by
  induction t with
  | nil => simp [Table.set, Table.lookup, h.symm]
  | cons x t ih =>
    obtain ⟨i, u⟩ := x
    simp only [Table.set]
    split
    · simp [Table.lookup, h.symm]
    · split
      · next e => subst e; simp [Table.lookup, h.symm]
      · simp [Table.lookup, ih]

theorem Table.lookup_set (t : Table α) (j k : Nat) (v : α) :
    Table.lookup (Table.set t k v) j = if j = k then some v else Table.lookup t j := by
  split
  · next h => subst h; simp
  · next h => exact Table.lookup_set_other t v h

/-- Every key of the table after a write is the one written or was there before. -/
theorem Table.mem_set {t : Table α} {k : Nat} {v : α} {x : Nat × α} (h : x ∈ Table.set t k v) : x = (k, v) ∨ x ∈ t := by
  induction t with
  | nil => simpa [Table.set] using h
  | cons y t ih =>
    obtain ⟨j, u⟩ := y
    simp only [Table.set] at h
    split at h
    · simpa using h
    · split at h
      · simp only [List.mem_cons] at h ⊢; tauto
      · simp only [List.mem_cons] at h ⊢
        rcases h with h | h
        · tauto
        · rcases ih h with h | h <;> tauto

/-- A write keeps the canonical form. -/
theorem Table.set_wf {t : Table α} (h : Table.wf t) (k : Nat) (v : α) : Table.wf (Table.set t k v) := by
  induction t with
  | nil => simp [Table.set, Table.wf]
  | cons x t ih =>
    obtain ⟨j, u⟩ := x
    simp only [Table.wf, List.pairwise_cons] at h
    simp only [Table.set]
    split
    · next lt =>
      simp only [Table.wf, List.pairwise_cons, List.mem_cons]
      refine ⟨?_, h.1, h.2⟩
      rintro y (rfl | hy)
      · exact lt
      · exact lt_trans lt (h.1 y hy)
    · split
      · next e => subst e; exact List.pairwise_cons.2 ⟨h.1, h.2⟩
      · next hlt hne =>
        refine List.pairwise_cons.2 ⟨fun y hy => ?_, ih h.2⟩
        rcases Table.mem_set hy with rfl | hy
        · show j < k; omega
        · exact h.1 y hy

/-- A single-byte write keeps the memory's canonical form. -/
theorem Memory.write_wf {m : Memory} (h : Memory.wf m) (a : Nat) (v : Byte) : Memory.wf (Memory.write m a v) :=
  Table.set_wf h a v

/-- A range write keeps the memory's canonical form. -/
theorem Memory.writeBytes_wf {m : Memory} (h : Memory.wf m) (a : Nat) (bs : Bytes) : Memory.wf (Memory.writeBytes m a bs) := by
  induction bs generalizing m a with
  | nil => exact h
  | cons b bs ih => exact ih (Memory.write_wf h a b) _

/-- The memories of the reset state are in canonical form. -/
theorem State.reset_memory_wf : Memory.wf State.reset.rxbuf := by simp [State.reset, Memory.wf, Table.wf]

@[simp] theorem Memory.read_write_same (m : Memory) (a : Nat) (v : Byte) : Memory.read (Memory.write m a v) a = some v :=
  Table.lookup_set_same m a v

theorem Memory.read_write_other (m : Memory) {a b : Nat} (v : Byte) (h : b ≠ a) :
    Memory.read (Memory.write m a v) b = Memory.read m b :=
  Table.lookup_set_other m v h

/-! ### Dense tables: the keys are `0 .. n` -/

/-- A dense table is in canonical form. -/
theorem Table.dense.wf {t : Table α} {n : Nat} (h : Table.dense t n) : Table.wf t := by
  have := List.pairwise_lt_range (n := n)
  rw [← show t.map Prod.fst = List.range n from h, List.pairwise_map] at this
  exact this

theorem Table.lookup_isSome_iff (t : Table α) (k : Nat) : (Table.lookup t k).isSome = true ↔ k ∈ t.map Prod.fst := by
  induction t with
  | nil => simp
  | cons x t ih =>
    obtain ⟨j, u⟩ := x
    simp only [Table.lookup, List.map_cons, List.mem_cons]
    split
    · next h => simp [h]
    · next h => rw [ih]; simp [Ne.symm h]

/-- A dense table holds exactly the keys below its bound. -/
theorem Table.dense.isSome_iff {t : Table α} {n : Nat} (h : Table.dense t n) (k : Nat) :
    (Table.lookup t k).isSome = true ↔ k < n := by
  rw [Table.lookup_isSome_iff, show t.map Prod.fst = List.range n from h, List.mem_range]

/-- A write above every key goes to the end. -/
theorem Table.set_above {t : Table α} {k : Nat} (v : α) (h : ∀ x ∈ t, x.1 < k) : Table.set t k v = t ++ [(k, v)] := by
  induction t with
  | nil => rfl
  | cons x t ih =>
    obtain ⟨j, u⟩ := x
    have hj : j < k := h (j, u) (by simp)
    simp only [Table.set, if_neg (by omega : ¬ k < j), if_neg (by omega : ¬ j = k), List.cons_append]
    rw [ih (fun y hy => h y (by simp [hy]))]

/-- Drawing the next id keeps a table dense. -/
theorem Table.dense.set_next {t : Table α} {n : Nat} (h : Table.dense t n) (v : α) :
    Table.dense (Table.set t n v) (n + 1) := by
  have hall : ∀ x ∈ t, x.1 < n := by
    intro x hx
    have : x.1 ∈ t.map Prod.fst := List.mem_map_of_mem hx
    rw [show t.map Prod.fst = List.range n from h] at this
    exact List.mem_range.1 this
  rw [Table.set_above v hall]
  show (t ++ [(n, v)]).map Prod.fst = _
  rw [List.map_append, show t.map Prod.fst = List.range n from h]
  simp [List.range_succ]

/-- Writing under a key that is present leaves the keys of a canonical table as they are. -/
theorem Table.set_keys {t : Table α} (hw : Table.wf t) {k : Nat} (h : (Table.lookup t k).isSome = true) (v : α) :
    (Table.set t k v).map Prod.fst = t.map Prod.fst := by
  induction t with
  | nil => simp at h
  | cons x t ih =>
    obtain ⟨j, u⟩ := x
    simp only [Table.wf, List.pairwise_cons] at hw
    simp only [Table.set]
    split
    · next lt =>
      exfalso
      rw [Table.lookup_isSome_iff, List.map_cons, List.mem_cons] at h
      rcases h with h | h
      · simp only at h; omega
      · obtain ⟨y, hy, rfl⟩ := List.mem_map.1 h
        have := hw.1 y hy
        omega
    · split
      · next e => subst e; rfl
      · next hne =>
        rw [List.map_cons, List.map_cons, ih hw.2]
        simpa [Table.lookup, hne] using h

/-- Writing under an id already issued keeps a table dense. -/
theorem Table.dense.set_old {t : Table α} {n k : Nat} (h : Table.dense t n) (hk : (Table.lookup t k).isSome = true) (v : α) :
    Table.dense (Table.set t k v) n :=
  (Table.set_keys h.wf hk v).trans h

/-! ### Byte ranges -/

@[simp] theorem Memory.readBytes_zero (m : Memory) (a : Nat) : Memory.readBytes m a 0 = some [] := rfl

theorem Memory.readBytes_length {m : Memory} {a n : Nat} {bs : Bytes} (h : Memory.readBytes m a n = some bs) :
    bs.length = n := by
  induction n generalizing a bs with
  | zero => simp only [Memory.readBytes_zero, Option.some.injEq] at h; subst h; rfl
  | succ n ih =>
    simp only [Memory.readBytes] at h
    split at h
    · next b bs' _ h2 => cases h; simp [ih h2]
    · cases h

/-- A range read succeeds exactly when every cell of the range holds a value. -/
theorem Memory.readBytes_isSome {m : Memory} {a n : Nat} (h : ∀ i, i < n → (Memory.read m (a + i)).isSome = true) :
    (Memory.readBytes m a n).isSome = true := by
  induction n generalizing a with
  | zero => rfl
  | succ n ih =>
    have h0 := h 0 (by omega)
    have ht := ih (a := a + 1) (fun i hi => by have := h (i + 1) (by omega); rwa [show a + 1 + i = a + (i + 1) by omega])
    obtain ⟨b, hb⟩ := Option.isSome_iff_exists.1 h0
    obtain ⟨bs, hbs⟩ := Option.isSome_iff_exists.1 ht
    rw [Nat.add_zero] at hb
    simp [Memory.readBytes, hb, hbs]

/-- A dense memory can be read whole. -/
theorem Memory.readBytes_dense {m : Memory} {n : Nat} (h : Table.dense m n) : ∃ bs, Memory.readBytes m 0 n = some bs :=
  Option.isSome_iff_exists.1 <| Memory.readBytes_isSome fun i hi => by
    rw [Nat.zero_add]; exact (h.isSome_iff i).2 hi

/-- A write outside a range leaves what the range reads. -/
theorem Memory.readBytes_write_outside (m : Memory) {a n k : Nat} (v : Byte) (h : k < a ∨ a + n ≤ k) :
    Memory.readBytes (Memory.write m k v) a n = Memory.readBytes m a n := by
  induction n generalizing a with
  | zero => rfl
  | succ n ih =>
    simp only [Memory.readBytes]
    rw [Memory.read_write_other m v (by omega), ih (by omega)]

/-- Appending one byte at the end of a range that reads `bs` makes it read `bs ++ [v]`. -/
theorem Memory.readBytes_append (m : Memory) {a n : Nat} {bs : Bytes} (v : Byte) (h : Memory.readBytes m a n = some bs) :
    Memory.readBytes (Memory.write m (a + n) v) a (n + 1) = some (bs ++ [v]) := by
  induction n generalizing a bs with
  | zero =>
    simp only [Memory.readBytes_zero, Option.some.injEq] at h; subst h
    simp [Memory.readBytes]
  | succ n ih =>
    simp only [Memory.readBytes] at h
    split at h
    · next b bs' h1 h2 =>
      cases h
      have h3 := ih h2
      rw [show a + 1 + n = a + (n + 1) by omega] at h3
      rw [Memory.readBytes, h3, Memory.read_write_other m v (by omega), h1]
      rfl
    · cases h

/-- A range write below a key leaves what is read there. -/
theorem Memory.read_writeBytes_below (m : Memory) {a k : Nat} (bs : Bytes) (h : k < a) :
    Memory.read (Memory.writeBytes m a bs) k = Memory.read m k := by
  induction bs generalizing m a with
  | nil => rfl
  | cons b bs ih =>
    rw [Memory.writeBytes, ih _ (by omega), Memory.read_write_other _ _ (by omega)]

/-- A range read after the write of that range gives the bytes written. -/
theorem Memory.readBytes_writeBytes (m : Memory) (a : Nat) (bs : Bytes) :
    Memory.readBytes (Memory.writeBytes m a bs) a bs.length = some bs := by
  induction bs generalizing m a with
  | nil => rfl
  | cons b bs ih =>
    simp only [Memory.writeBytes, List.length_cons, Memory.readBytes]
    rw [Memory.read_writeBytes_below _ _ (by omega), Memory.read_write_same, ih]

/-- Writing a byte sequence from index 0 into an empty memory fills exactly its indices. -/
theorem Memory.dense_writeBytes {m : Memory} {n : Nat} (h : Table.dense m n) (bs : Bytes) :
    Table.dense (Memory.writeBytes m n bs) (n + bs.length) := by
  induction bs generalizing m n with
  | nil => exact h
  | cons b bs ih =>
    have := ih (Table.dense.set_next h b)
    rw [List.length_cons, show n + (bs.length + 1) = n + 1 + bs.length by omega]
    exact this

end Sys2Proof.Machine
end

