-- ==== Sys2Proof/Laws/Ops.lean ====
section
/-! SUPPORT. One lemma for each shared operation, saying everything it can do: guards, sequencing, the registry,
handlers, frame completion, delivery of a result. -/

namespace Sys2Proof.Machine

/-! ### Guards and sequencing -/

@[simp] theorem whenGuard_next {g : Prop} [Decidable g] {r : Result} {t : State} :
    whenGuard g r = .next t ↔ g ∧ r = .next t := by
  unfold whenGuard; split <;> simp [*]

@[simp] theorem whenGuard_fault {g : Prop} [Decidable g] {r : Result} {x : Fault} :
    whenGuard g r = .fault x ↔ (¬ g ∧ x = .noStep) ∨ (g ∧ r = .fault x) := by
  unfold whenGuard; split <;> simp [*, eq_comm]

@[simp] theorem whenGuard_refused {g : Prop} [Decidable g] {r : Result} {x : Refusal} :
    whenGuard g r = .refused x ↔ g ∧ r = .refused x := by
  unfold whenGuard; split <;> simp [*]

theorem whenGuard_pos {g : Prop} [Decidable g] (r : Result) (h : g) : whenGuard g r = r := by simp [whenGuard, h]

theorem whenGuard_neg {g : Prop} [Decidable g] (r : Result) (h : ¬ g) : whenGuard g r = .fault .noStep := by
  simp [whenGuard, h]

@[simp] theorem andThen_next {r : Result} {f : State → Result} {t : State} :
    andThen r f = .next t ↔ ∃ u, r = .next u ∧ f u = .next t := by
  cases r <;> simp [andThen]

@[simp] theorem andThen_fault {r : Result} {f : State → Result} {x : Fault} :
    andThen r f = .fault x ↔ r = .fault x ∨ ∃ u, r = .next u ∧ f u = .fault x := by
  cases r <;> simp [andThen]

@[simp] theorem andThen_refused {r : Result} {f : State → Result} {x : Refusal} :
    andThen r f = .refused x ↔ r = .refused x ∨ ∃ u, r = .next u ∧ f u = .refused x := by
  cases r <;> simp [andThen]

@[simp] theorem inPhase_next {s : State} {c : Nat} {ph : Phase} {f : Call → Result} {t : State} :
    inPhase s c ph f = .next t ↔ ∃ k, Table.lookup s.calls c = some k ∧ k.ph = ph ∧ f k = .next t := by
  unfold inPhase; split <;> simp [*]

@[simp] theorem inPhase_fault {s : State} {c : Nat} {ph : Phase} {f : Call → Result} {x : Fault} :
    inPhase s c ph f = .fault x ↔
      (x = .noStep ∧ ∀ k, Table.lookup s.calls c = some k → k.ph ≠ ph) ∨
      ∃ k, Table.lookup s.calls c = some k ∧ k.ph = ph ∧ f k = .fault x := by
  unfold inPhase; split
  · simp [*, eq_comm]
  · simp only [whenGuard_fault, *, Option.some.injEq, forall_eq', exists_eq_left']
    tauto

/-- The step of a call that is in the phase is its body. -/
theorem inPhase_pos {s : State} {c : Nat} {ph : Phase} (f : Call → Result) {k : Call}
    (h : Table.lookup s.calls c = some k) (hp : k.ph = ph) : inPhase s c ph f = f k := by
  simp [inPhase, h, hp, whenGuard]

/-! ### The registry -/

@[simp] theorem scan_nil (d m : Byte) : scan [] d m = none := rfl

/-- A scan answers an entry of the registry that matches. -/
theorem scan_some {regy : List Entry} {d m : Byte} {e : Entry} (h : scan regy d m = some e) :
    e ∈ regy ∧ e.dst = d ∧ e.msg = m := by
  refine ⟨List.mem_of_find?_eq_some h, ?_⟩
  have := List.find?_some h
  simpa [Entry.matchesPair] using this

theorem scan_none {regy : List Entry} {d m : Byte} :
    scan regy d m = none ↔ ∀ e ∈ regy, ¬ (e.dst = d ∧ e.msg = m) := by
  simp [scan, Entry.matchesPair]

theorem State.registryFull_eq_false_iff (s : State) :
    s.registryFull = false ↔ ∀ cap, s.params.regCap = some cap → s.regy.length < cap := by
  unfold State.registryFull; split <;> simp [*]

theorem State.registryFull_iff (s : State) :
    s.registryFull = true ↔ ∃ cap, s.params.regCap = some cap ∧ cap ≤ s.regy.length := by
  unfold State.registryFull; split <;> simp [*]

/-! ### Handlers -/

/-- What the test-and-set can do: leave a completed waiter alone, or complete an open one. -/
theorem completeWaiter_next {w : Nat} {p : Bytes} {s t : State} :
    completeWaiter w p s = .next t ↔
      ((s.waiterAt w).done = true ∧ t = s.noteDraw w) ∨
        ((s.waiterAt w).done = false ∧ p.length ≤ Config.maxPayload ∧
          t = (s.noteDraw w).setWaiter w ((s.waiterAt w).complete p)) := by
  unfold completeWaiter
  cases (s.waiterAt w).done
  · by_cases hp : p.length > Config.maxPayload
    · simp [hp]
    · have hp' : p.length ≤ Config.maxPayload := by omega
      simp only [Bool.false_eq_true, if_false, if_neg hp, Host.Outcome.next.injEq, hp', false_and, true_and, false_or]
      exact eq_comm
  · simp only [if_true, Host.Outcome.next.injEq, true_and, Bool.true_eq_false, false_and, or_false]
    exact eq_comm

theorem completeWaiter_fault {w : Nat} {p : Bytes} {s : State} {x : Fault} :
    completeWaiter w p s = .fault x ↔
      (s.waiterAt w).done = false ∧ Config.maxPayload < p.length ∧ x = .indexRange := by
  unfold completeWaiter
  cases (s.waiterAt w).done
  · by_cases hp : p.length > Config.maxPayload
    · have hp' : Config.maxPayload < p.length := hp
      simp only [Bool.false_eq_true, if_false, hp', if_true, Host.Outcome.fault.injEq, true_and]
      exact eq_comm
    · simp [hp]
  · simp

theorem completeWaiter_not_refused {w : Nat} {p : Bytes} {s : State} {x : Refusal} :
    completeWaiter w p s ≠ .refused x := by
  unfold completeWaiter; split
  · simp
  · split <;> simp

/-- What a handler can do: complete its waiter, or emit one event. -/
theorem runHandler_next {l : Latch} {s t : State} :
    runHandler l s = .next t ↔
      (∃ w, l.hnd = .waiter w ∧ completeWaiter w l.p s = .next t) ∨
      (∃ tag, l.hnd = .ext tag ∧ t = s.emit (.ext tag l.dst l.msg l.p)) := by
  unfold runHandler; split <;> simp [*, eq_comm]

/-- A handler writes nothing but the waiters, the history and the count of draws. -/
theorem runHandler_writes {l : Latch} {s t : State} (h : runHandler l s = .next t) :
    t = { s with waiters := t.waiters, history := t.history, draws := t.draws } := by
  rcases runHandler_next.1 h with ⟨w, _, h⟩ | ⟨tag, _, rfl⟩
  · obtain ⟨_, rfl⟩ | ⟨_, _, rfl⟩ := completeWaiter_next.1 h <;> rfl
  · rfl

/-! ### Frame completion -/

/-- What frame completion can do to a state: discard as short, discard as damaged, drop, or latch. -/
theorem frameDone_next {s t : State} :
    frameDone s = .next t ↔
      (s.rxLen < Config.minFrame ∧ t = (s.emit (.diag (.short s.rxLen))).clearBuffer) ∨
      (Config.minFrame ≤ s.rxLen ∧ ∃ d m rest, Memory.readBytes s.rxbuf 0 s.rxLen = some (d :: m :: rest) ∧
        ((fcsVerify (d :: m :: rest) = false ∧ t = (s.emit (.diag (.badFcs d m s.rxLen))).clearBuffer) ∨
         (fcsVerify (d :: m :: rest) = true ∧ t = (dispatchFrame d m (framePayload rest) s).clearBuffer))) := by
  unfold frameDone
  by_cases hn : s.rxLen < Config.minFrame
  · have hn' : ¬ Config.minFrame ≤ s.rxLen := by omega
    simp only [hn, hn', if_true, Host.Outcome.next.injEq, true_and, false_and, or_false]
    exact eq_comm
  · simp only [hn, if_false, false_and, false_or]
    split
    · next d m rest hr =>
      simp only [hr, Option.some.injEq, List.cons.injEq]
      cases hv : fcsVerify (d :: m :: rest)
      · constructor
        · intro h
          simp only [Bool.false_eq_true, if_false, Host.Outcome.next.injEq] at h
          exact ⟨by omega, d, m, rest, ⟨rfl, rfl, rfl⟩, .inl ⟨hv, h.symm⟩⟩
        · rintro ⟨-, d', m', r', ⟨rfl, rfl, rfl⟩, ⟨-, rfl⟩ | ⟨h, -⟩⟩
          · rfl
          · rw [hv] at h; cases h
      · constructor
        · intro h
          simp only [if_true, Host.Outcome.next.injEq] at h
          exact ⟨by omega, d, m, rest, ⟨rfl, rfl, rfl⟩, .inr ⟨hv, h.symm⟩⟩
        · rintro ⟨-, d', m', r', ⟨rfl, rfl, rfl⟩, ⟨h, -⟩ | ⟨-, rfl⟩⟩
          · rw [hv] at h; cases h
          · rfl
    · next hr =>
      simp only [reduceCtorEq, false_iff, not_and, not_exists]
      intro _ d m rest h
      exact absurd h (hr d m rest)

theorem frameDone_fault {s : State} {x : Fault} (h : frameDone s = .fault x) :
    x = .unspecifiedCell ∧ Config.minFrame ≤ s.rxLen ∧
      ∀ d m rest, Memory.readBytes s.rxbuf 0 s.rxLen ≠ some (d :: m :: rest) := by
  unfold frameDone at h
  split at h
  · cases h
  · split at h
    · split at h <;> cases h
    · next hn hr => cases h; exact ⟨rfl, by omega, fun d m rest e => hr d m rest e⟩

theorem frameDone_not_refused {s : State} {x : Refusal} : frameDone s ≠ .refused x := by
  unfold frameDone; split
  · simp
  · split
    · split <;> simp
    · simp

/-- Dispatch writes nothing but the latch and `rxs`. -/
theorem dispatchFrame_cases (d m : Byte) (p : Bytes) (s : State) :
    (scan s.regy d m = none ∧ dispatchFrame d m p s = s) ∨
    (∃ e, scan s.regy d m = some e ∧ dispatchFrame d m p s = s.latch ⟨e.hnd, d, m, p⟩) := by
  unfold dispatchFrame; split <;> simp [*]

/-- Frame completion writes nothing but the buffer, the latch with `rxs`, and the history. -/
theorem frameDone_writes {s t : State} (h : frameDone s = .next t) :
    t = { s with rxbuf := [], rxLen := 0, rxs := t.rxs, dsp := t.dsp, history := t.history } := by
  rcases frameDone_next.1 h with ⟨_, rfl⟩ | ⟨_, d, m, rest, _, ⟨_, rfl⟩ | ⟨_, rfl⟩⟩
  · rfl
  · rfl
  · rcases dispatchFrame_cases d m (framePayload rest) s with ⟨_, e⟩ | ⟨e', _, e⟩ <;> rw [e] <;> rfl

theorem framePayload_length (rest : Bytes) : (framePayload rest).length = rest.length - 2 := by
  simp [framePayload]

/-! ### Delivery -/

/-- Delivering a result writes nothing but the history and the consumers. -/
theorem deliverResult_writes (c : Nat) (r : CallResult) (s : State) :
    deliverResult c r s =
      { s with history := (deliverResult c r s).history, consumers := (deliverResult c r s).consumers } := by
  unfold deliverResult; split <;> rfl

/-! ### What the step does with the schedule -/

/-- A step that answers a next state took the first turn of the schedule. -/
theorem step_next {s t : State} :
    step s = .next t ↔ ∃ turn rest, s.schedule = turn :: rest ∧ perform (select s turn) s.popTurn = .next t := by
  unfold step; split <;> simp [*]

/-- What a turn can perform that answers a next state: an operation, or the refusal of an unknown number. -/
theorem perform_next {sel : Selection} {s t : State} :
    perform sel s = .next t ↔
      (∃ i, sel = .op i ∧ exec i s = .next t) ∨ (∃ op, sel = .errCmd op ∧ t = rejectCommand op s) := by
  cases sel <;> simp [perform, eq_comm]

end Sys2Proof.Machine
end

