-- ==== Sys2Proof/Laws/Exec.lean ====
section
/-! SUPPORT. One inversion lemma for each meaning that has a guard or a choice: what holds when it answers a next
state, and which state that is. The meanings not listed here always answer one, by definition. -/

namespace Sys2Proof.Machine

variable {s t : State}

theorem execStuffLit_next {b : Byte} :
    execStuffLit b s = .next t ↔ (b ≠ Config.endByte ∧ b ≠ Config.escByte) ∧ t = s.deliver (.bytes [b]) := by
  simp only [execStuffLit, whenGuard_next, Host.Outcome.next.injEq]
  exact and_congr_right fun _ => eq_comm

theorem execEncFrame_next {d m : Byte} {p : Bytes} :
    execEncFrame d m p s = .next t ↔
      (Config.maxPayload < p.length ∧ t = s.deliver (.status (.errLen p.length))) ∨
      (p.length ≤ Config.maxPayload ∧ t = s.deliver (.bytes (frameOf d m p))) := by
  unfold execEncFrame; split
  · next h => have h' : Config.maxPayload < p.length := h
              have h'' : ¬ p.length ≤ Config.maxPayload := by omega
              simp only [Host.Outcome.next.injEq, h', h'', true_and, false_and, or_false]; exact eq_comm
  · next h => have h' : ¬ Config.maxPayload < p.length := h
              have h'' : p.length ≤ Config.maxPayload := by omega
              simp only [Host.Outcome.next.injEq, h', h'', true_and, false_and, false_or]; exact eq_comm

theorem execReg_next {d m : Byte} {h : Handler} :
    execReg d m h s = .next t ↔
      (s.registryFull = true ∧ t = s.deliver (.status .regFull)) ∨
        (s.registryFull = false ∧ t = (s.register d m h).deliver (.registered s.nextEid)) := by
  unfold execReg
  cases s.registryFull <;> simp [eq_comm]

theorem execDspInvoke_next :
    execDspInvoke s = .next t ↔
      s.rxs = .dsp ∧ ∃ l u, s.dsp = some l ∧ runHandler l s = .next u ∧ t = u.unlatch := by
  unfold execDspInvoke
  rw [whenGuard_next]
  refine and_congr_right fun _ => ?_
  cases s.dsp with
  | none => simp
  | some l =>
    simp only [andThen_next, Host.Outcome.next.injEq, Option.some.injEq, exists_and_left, exists_eq_left']
    exact exists_congr fun u => and_congr_right fun _ => eq_comm

theorem execRxChunk_next {data : Bytes} :
    execRxChunk data s = .next t ↔ s.rxs = .idle ∧ t = { s with rxChunk := data, rxPos := 0, rxs := .run } := by
  simp only [execRxChunk, whenGuard_next, Host.Outcome.next.injEq]
  exact and_congr_right fun _ => eq_comm

theorem State.mayReturn_run (h : s.mayReturn = true) : s.rxs = .run := by
  unfold State.mayReturn at h
  simp only [Bool.and_eq_true, beq_iff_eq] at h
  exact h.1

theorem execRxReturn_next :
    execRxReturn s = .next t ↔ s.mayReturn = true ∧ t = { s.emit (.consumed s.rxPos) with rxs := .idle } := by
  simp only [execRxReturn, whenGuard_next, Host.Outcome.next.injEq]
  exact and_congr_right fun _ => eq_comm

theorem execFrameDone_next : execFrameDone s = .next t ↔ 0 < s.rxLen ∧ frameDone s = .next t := by
  simp [execFrameDone]

theorem execRxReset_next :
    execRxReset s = .next t ↔ s.rxs = .idle ∧
      t = { s.clearBuffer.clearEsc with rxs := .idle, rxChunk := [], rxPos := 0, dsp := none } := by
  simp only [execRxReset, whenGuard_next, Host.Outcome.next.injEq]
  exact and_congr_right fun _ => eq_comm

theorem execRxbEnd_next :
    execRxbEnd s = .next t ↔
      s.takes false Config.endByte false ∧
        ((s.rxLen = 0 ∧ t = s.advance) ∨ (0 < s.rxLen ∧ ∃ u, frameDone s = .next u ∧ t = u.advance)) := by
  unfold execRxbEnd
  rw [whenGuard_next]
  refine and_congr_right fun _ => ?_
  by_cases h : 0 < s.rxLen
  · have h' : s.rxLen ≠ 0 := by omega
    simp only [h, h', if_true, andThen_next, Host.Outcome.next.injEq, false_and, true_and, false_or]
    exact exists_congr fun u => and_congr_right fun _ => eq_comm
  · have h' : s.rxLen = 0 := by omega
    simp only [h', lt_irrefl, if_false, Host.Outcome.next.injEq, true_and, false_and, or_false]
    exact eq_comm

theorem execRxbEsc_next :
    execRxbEsc s = .next t ↔ s.takes false Config.escByte false ∧ t = s.setEsc.advance := by
  simp only [execRxbEsc, whenGuard_next, Host.Outcome.next.injEq]
  exact and_congr_right fun _ => eq_comm

theorem execRxbLit_next {b : Byte} :
    execRxbLit b s = .next t ↔
      (s.takes false b true ∧ b ≠ Config.endByte ∧ b ≠ Config.escByte) ∧ t = (s.append b).advance := by
  simp only [execRxbLit, whenGuard_next, Host.Outcome.next.injEq]
  exact and_congr_right fun _ => eq_comm

theorem execRxbEscEnd_next :
    execRxbEscEnd s = .next t ↔
      s.takes true Config.escEnd true ∧ t = (s.append Config.endByte).clearEsc.advance := by
  simp only [execRxbEscEnd, whenGuard_next, Host.Outcome.next.injEq]
  exact and_congr_right fun _ => eq_comm

theorem execRxbEscEsc_next :
    execRxbEscEsc s = .next t ↔
      s.takes true Config.escEsc true ∧ t = (s.append Config.escByte).clearEsc.advance := by
  simp only [execRxbEscEsc, whenGuard_next, Host.Outcome.next.injEq]
  exact and_congr_right fun _ => eq_comm

theorem execRxbBadEsc_next {b : Byte} :
    execRxbBadEsc b s = .next t ↔
      (s.takes true b false ∧ b ≠ Config.escEnd ∧ b ≠ Config.escEsc) ∧
        t = (s.emit (.diag (.badEsc b))).clearEsc.advance := by
  simp only [execRxbBadEsc, whenGuard_next, Host.Outcome.next.injEq]
  exact and_congr_right fun _ => eq_comm

theorem execReqBuild_next {c : Nat} :
    execReqBuild c s = .next t ↔ ∃ k, Table.lookup s.calls c = some k ∧ k.ph = .new ∧
      ((Config.maxPayload < k.payload.length ∧ t = s.setCall c (k.refuse .errLen)) ∨
       (k.payload.length ≤ Config.maxPayload ∧
        t = { s.setWaiter s.nextWid Waiter.fresh with nextWid := s.nextWid + 1 }.setCall c
          { k with wid := some s.nextWid, ph := .built })) := by
  simp only [execReqBuild, inPhase_next]
  refine exists_congr fun k => and_congr_right fun _ => and_congr_right fun _ => ?_
  split
  · next h => have h' : Config.maxPayload < k.payload.length := h
              have h'' : ¬ k.payload.length ≤ Config.maxPayload := by omega
              simp only [Host.Outcome.next.injEq, h', h'', true_and, false_and, or_false]; exact eq_comm
  · next h => have h' : ¬ Config.maxPayload < k.payload.length := h
              have h'' : k.payload.length ≤ Config.maxPayload := by omega
              simp only [Host.Outcome.next.injEq, h', h'', true_and, false_and, false_or]; exact eq_comm

theorem execReqRegister_next {c : Nat} :
    execReqRegister c s = .next t ↔ ∃ k w, Table.lookup s.calls c = some k ∧ k.ph = .built ∧ k.wid = some w ∧
      ((s.registryFull = true ∧ t = s.setCall c (k.refuse .regFull)) ∨
       (s.registryFull = false ∧
        t = (s.register k.edst k.emsg (.waiter w)).setCall c
          { k with eid := some s.nextEid, st := .registered, ph := .enc })) := by
  simp only [execReqRegister, inPhase_next]
  refine exists_congr fun k => ?_
  cases k.wid <;> cases s.registryFull <;> simp [eq_comm]

theorem execReqEncode_next {c : Nat} :
    execReqEncode c s = .next t ↔ ∃ k, Table.lookup s.calls c = some k ∧ k.ph = .enc ∧
      t = s.setCall c { k with wire := encWire (frameOf k.dst k.msg k.payload), cur := 0, ph := .send } := by
  simp only [execReqEncode, inPhase_next, Host.Outcome.next.injEq]
  exact exists_congr fun k => and_congr_right fun _ => and_congr_right fun _ => eq_comm

theorem execTxByte_next {c : Nat} :
    execTxByte c s = .next t ↔ ∃ k b, Table.lookup s.calls c = some k ∧ k.ph = .send ∧ k.wire[k.cur]? = some b ∧
      t = (s.emit (.tx b)).setCall c { k with cur := k.cur + 1 } := by
  simp only [execTxByte, inPhase_next]
  refine exists_congr fun k => ?_
  cases k.wire[k.cur]? <;> simp [eq_comm]

theorem execTxDone_next {c : Nat} :
    execTxDone c s = .next t ↔ ∃ k, Table.lookup s.calls c = some k ∧ k.ph = .send ∧ k.cur = k.wire.length ∧
      t = s.setCall c { k with ph := .wait } := by
  simp only [execTxDone, inPhase_next, whenGuard_next, Host.Outcome.next.injEq]
  exact exists_congr fun k => and_congr_right fun _ => and_congr_right fun _ => and_congr_right fun _ => eq_comm

theorem execEvWrfail_next {c code : Nat} :
    execEvWrfail c code s = .next t ↔ ∃ k, Table.lookup s.calls c = some k ∧ k.ph = .send ∧
      t = s.setCall c (k.endWith (.wrFailed code)) := by
  simp only [execEvWrfail, inPhase_next, Host.Outcome.next.injEq]
  exact exists_congr fun k => and_congr_right fun _ => and_congr_right fun _ => eq_comm

theorem execReqWake_next {c : Nat} :
    execReqWake c s = .next t ↔ ∃ k, Table.lookup s.calls c = some k ∧ k.ph = .wait ∧ s.callDone k ∧
      t = s.setCall c (k.endWith .completed) := by
  simp only [execReqWake, inPhase_next, whenGuard_next, Host.Outcome.next.injEq]
  exact exists_congr fun k => and_congr_right fun _ => and_congr_right fun _ => and_congr_right fun _ => eq_comm

theorem execEvExpire_next {c : Nat} :
    execEvExpire c s = .next t ↔ ∃ k, Table.lookup s.calls c = some k ∧ k.ph = .wait ∧ s.mayExpire k ∧
      t = s.setCall c (k.endWith .timedOut) := by
  simp only [execEvExpire, inPhase_next, whenGuard_next, Host.Outcome.next.injEq]
  exact exists_congr fun k => and_congr_right fun _ => and_congr_right fun _ => and_congr_right fun _ => eq_comm

theorem execReqUnreg_next {c : Nat} :
    execReqUnreg c s = .next t ↔ ∃ k e st, Table.lookup s.calls c = some k ∧ k.ph = .unreg ∧ k.eid = some e ∧
      k.out.terminal = some st ∧ t = (s.unregister e).setCall c { k with st := st, ph := .ret } := by
  simp only [execReqUnreg, inPhase_next]
  refine exists_congr fun k => ?_
  cases k.eid <;> cases k.out.terminal <;> simp [eq_comm]

theorem execReqReturn_next {c : Nat} :
    execReqReturn c s = .next t ↔ ∃ k r, Table.lookup s.calls c = some k ∧ k.ph = .ret ∧ callResult s k = some r ∧
      t = deliverResult c r (s.setCall c { k with res := some r, ph := .fin }) := by
  simp only [execReqReturn, inPhase_next]
  refine exists_congr fun k => ?_
  cases callResult s k <;> simp [eq_comm]

/-- The result of a completed call is its waiter's payload, read back from the slot (R242). -/
theorem callResult_completed {k : Call} {w : Nat} {v : Waiter} (ho : k.out = .completed) (hw : k.wid = some w)
    (hv : Table.lookup s.waiters w = some v) :
    callResult s k = (Memory.readBytes v.slot 0 v.plen).map .ok := by
  simp [callResult, ho, hw, hv]

/-! ### What a step can do -/

/-- A step that answers a next state either executed the operation its turn selects, or refused a number that is
no command. -/
theorem step_cases (h : step s = .next t) :
    ∃ turn rest, s.schedule = turn :: rest ∧
      ((∃ i, select s turn = .op i ∧ exec i s.popTurn = .next t) ∨
       (∃ op args, turn = .host op args ∧ t = rejectCommand op s.popTurn)) := by
  obtain ⟨turn, rest, hs, hp⟩ := step_next.1 h
  refine ⟨turn, rest, hs, ?_⟩
  rcases perform_next.1 hp with ⟨i, hi, he⟩ | ⟨op, hi, rfl⟩
  · exact .inl ⟨i, hi, he⟩
  · right
    cases turn with
    | host o args =>
      refine ⟨o, args, rfl, ?_⟩
      simp only [select, hostSelect, decode, decodeCommand] at hi
      split at hi
      · cases hi
      · next n heq =>
        split at heq
        · cases heq; cases hi; rfl
        · split at heq <;> cases heq
      · cases hi
    | rx => simp only [select, agentSelect] at hi; split at hi <;> cases hi
    | call c => simp only [select, agentSelect] at hi; split at hi <;> cases hi
    | rxReturn => cases hi
    | stuff b => cases hi
    | fcsUpdate c d => cases hi
    | expire c => cases hi
    | wrFail c d => cases hi
    | ping => cases hi
    | getInfo => cases hi

/-- The operations a host command can be: those of R98's table. -/
theorem hostSelect_op {op : Byte} {args : List Arg} {i : Instr} (h : hostSelect op args = .op i) :
    ∃ n : CommandName, commandOf op = some n ∧ decodeOperands n args = some i := by
  simp only [hostSelect, decode, decodeCommand] at h
  cases hc : commandOf op with
  | none => simp [hc] at h
  | some n =>
    cases hd : decodeOperands n args with
    | none => simp [hc, hd] at h
    | some j => simp [hc, hd] at h; exact ⟨n, rfl, by rw [hd, h]⟩

end Sys2Proof.Machine
end

