-- ==== Sys2Proof/Laws/PerInstr.lean ====
section
/-! SUPPORT. Per-instruction laws: the encoding of a well-formed operation decodes to it. -/

namespace Sys2Proof.Laws.RoundTrip

open Sys2Proof.Machine

/-- Every encoding of the well-formed operation decodes to it (R84, R88, R98); an operation of R99 has none. -/
def Statement (i : Instr) : Prop := ∀ code, i.wellFormed = true → encode i = some code → decode code = .ok i

/-- The command numbers name their commands (R98). -/
theorem commandOf_op (n : CommandName) : commandOf n.op = some n := by cases n <;> decide

/-- A command record with its own operands decodes to its operation. -/
theorem decode_command (n : CommandName) (args : List Arg) (i : Instr) (h : decodeOperands n args = some i) :
    decode (.command n.op args) = .ok i := by
  simp [decode, decodeCommand, commandOf_op, h]

theorem rxbEscEnd : Statement .rxbEscEnd := by
  intro code _ h; cases h; decide

theorem rxbEscEsc : Statement .rxbEscEsc := by
  intro code _ h; cases h; decide

theorem rxbBadEsc (b : Byte) : Statement (.rxbBadEsc b) := by
  intro code hw h; cases h
  simp only [Instr.wellFormed, Bool.and_eq_true, bne_iff_ne] at hw
  simp [decode, decodeWire, hw]

theorem rxbEnd : Statement .rxbEnd := by
  intro code _ h; cases h; decide

theorem rxbEsc : Statement .rxbEsc := by
  intro code _ h; cases h; decide

theorem rxbLit (b : Byte) : Statement (.rxbLit b) := by
  intro code hw h; cases h
  simp only [Instr.wellFormed, Bool.and_eq_true, bne_iff_ne] at hw
  simp [decode, decodeWire, hw]

theorem stuffEnd : Statement .stuffEnd := by
  intro code _ h; cases h; decide

theorem stuffEsc : Statement .stuffEsc := by
  intro code _ h; cases h; decide

theorem stuffLit (b : Byte) : Statement (.stuffLit b) := by
  intro code hw h; cases h
  simp only [Instr.wellFormed, Bool.and_eq_true, bne_iff_ne] at hw
  simp [decode, decodeRaw, hw]

theorem fcsCompute (data : Bytes) : Statement (.fcsCompute data) := by
  intro code _ h; cases h; exact decode_command .fcsCompute _ _ rfl

theorem fcsVerify (frame : Bytes) : Statement (.fcsVerify frame) := by
  intro code _ h; cases h; exact decode_command .fcsVerify _ _ rfl

theorem encFrame (dst : Byte) (msg : Byte) (payload : Bytes) : Statement (.encFrame dst msg payload) := by
  intro code _ h; cases h; exact decode_command .encFrame _ _ rfl

theorem encWire (raw : Bytes) : Statement (.encWire raw) := by
  intro code _ h; cases h; exact decode_command .encWire _ _ rfl

theorem rxChunk (data : Bytes) : Statement (.rxChunk data) := by
  intro code _ h; cases h; exact decode_command .rxChunk _ _ rfl

theorem rxReset : Statement .rxReset := by
  intro code _ h; cases h; exact decode_command .rxReset _ _ rfl

theorem reg (dst : Byte) (msg : Byte) (hnd : Handler) : Statement (.reg dst msg hnd) := by
  intro code _ h; cases h; exact decode_command .reg _ _ rfl

theorem unreg (eid : Nat) : Statement (.unreg eid) := by
  intro code _ h; cases h; exact decode_command .unreg _ _ rfl

theorem req (dst : Byte) (msg : Byte) (payload : Bytes) (edst : Byte) (emsg : Byte) : Statement (.req dst msg payload edst emsg) := by
  intro code _ h; cases h; exact decode_command .req _ _ rfl

theorem reset : Statement .reset := by
  intro code _ h; cases h; exact decode_command .reset _ _ rfl

theorem fcsUpdate (crc : Fcs) (data : Bytes) : Statement (.fcsUpdate crc data) := by
  intro code _ h; cases h

theorem rxReturn : Statement .rxReturn := by
  intro code _ h; cases h

theorem frameDone : Statement .frameDone := by
  intro code _ h; cases h

theorem dspScan (dst : Byte) (msg : Byte) : Statement (.dspScan dst msg) := by
  intro code _ h; cases h

theorem dspInvoke : Statement .dspInvoke := by
  intro code _ h; cases h

theorem hndWaiter (w : Nat) (p : Bytes) : Statement (.hndWaiter w p) := by
  intro code _ h; cases h

theorem hndExt (tag : Nat) (dst : Byte) (msg : Byte) (p : Bytes) : Statement (.hndExt tag dst msg p) := by
  intro code _ h; cases h

theorem reqBuild (c : Nat) : Statement (.reqBuild c) := by
  intro code _ h; cases h

theorem reqRegister (c : Nat) : Statement (.reqRegister c) := by
  intro code _ h; cases h

theorem reqEncode (c : Nat) : Statement (.reqEncode c) := by
  intro code _ h; cases h

theorem txByte (c : Nat) : Statement (.txByte c) := by
  intro code _ h; cases h

theorem txDone (c : Nat) : Statement (.txDone c) := by
  intro code _ h; cases h

theorem evWrfail (c : Nat) (code : Nat) : Statement (.evWrfail c code) := by
  intro x _ h; cases h

theorem reqWake (c : Nat) : Statement (.reqWake c) := by
  intro code _ h; cases h

theorem evExpire (c : Nat) : Statement (.evExpire c) := by
  intro code _ h; cases h

theorem reqUnreg (c : Nat) : Statement (.reqUnreg c) := by
  intro code _ h; cases h

theorem reqReturn (c : Nat) : Statement (.reqReturn c) := by
  intro code _ h; cases h

theorem ping : Statement .ping := by
  intro code _ h; cases h

theorem getInfo : Statement .getInfo := by
  intro code _ h; cases h

end Sys2Proof.Laws.RoundTrip
end

