-- ==== Sys2Proof/Laws/Run.lean ====
section
/-! SUPPORT. Runs of several steps: one step off the front, two runs end to end, and the host's run. -/

namespace Sys2Proof.Machine

@[simp] theorem steps_zero (s : State) : steps 0 s = .next s := rfl

theorem steps_succ {k : Nat} {s u : State} (h : step s = .next u) : steps (k + 1) s = steps k u := by
  simp [steps, andThen, h]

theorem steps_succ_next {k : Nat} {s t : State} :
    steps (k + 1) s = .next t ↔ ∃ u, step s = .next u ∧ steps k u = .next t := by
  simp [steps]

theorem steps_add {j k : Nat} {s u : State} (h : steps j s = .next u) : steps (j + k) s = steps k u := by
  induction j generalizing s with
  | zero => cases h; simp
  | succ j ih =>
    obtain ⟨v, hv, hr⟩ := steps_succ_next.1 h
    rw [Nat.succ_add, steps_succ hv, ih hr]

/-- The run the host's interface defines is the same. -/
theorem core_run (k : Nat) (s : State) : Sys2Proof.core.run k s = steps k s := by
  induction k generalizing s with
  | zero => rfl
  | succ k ih =>
    simp only [steps]
    cases h : step s with
    | next u =>
      have := ih u
      simpa [Host.Core.run, Sys2Proof.core, h, andThen] using this
    | fault x => simp [Host.Core.run, Sys2Proof.core, h, andThen]
    | refused x => simp [Host.Core.run, Sys2Proof.core, h, andThen]

end Sys2Proof.Machine
end

