-- ==== Sys2Proof/Tests/Slice0.lean ====
section
/-! SUPPORT. The model's own tests: well-formedness, decoding of words written out from the spec's tables, one-step
tests whose expected values are the vectors of 95_test_vectors.md, and a witness for the hypotheses of each
statement that has some. -/

namespace Sys2Proof.Tests

open Sys2Proof Sys2Proof.Machine

/-! ### Well-formedness: one ill-formed term for each check -/

theorem test_wf_refuses_badesc_of_esc_end : (Instr.rxbBadEsc 0xDC#8).wellFormed = false := by decide
theorem test_wf_refuses_badesc_of_esc_esc : (Instr.rxbBadEsc 0xDD#8).wellFormed = false := by decide
theorem test_wf_refuses_lit_of_end : (Instr.rxbLit 0xC0#8).wellFormed = false := by decide
theorem test_wf_refuses_lit_of_esc : (Instr.rxbLit 0xDB#8).wellFormed = false := by decide
theorem test_wf_refuses_stuff_lit_of_end : (Instr.stuffLit 0xC0#8).wellFormed = false := by decide
theorem test_wf_refuses_stuff_lit_of_esc : (Instr.stuffLit 0xDB#8).wellFormed = false := by decide
theorem test_wf_refuses_long_waiter_payload : (Instr.hndWaiter 0 (List.replicate 301 0#8)).wellFormed = false := by
  decide +kernel
theorem test_wf_refuses_long_ext_payload : (Instr.hndExt 7 1#8 2#8 (List.replicate 301 0#8)).wellFormed = false := by
  decide +kernel
theorem test_wf_accepts_longest_waiter_payload : (Instr.hndWaiter 0 (List.replicate 300 0#8)).wellFormed = true := by
  decide +kernel
theorem test_wf_accepts_badesc_of_end : (Instr.rxbBadEsc 0xC0#8).wellFormed = true := by decide

/-! ### Decoding: words written out from R88, R84 and R98 -/

theorem test_decode_esc_end : decode (.wire 0b1_11011100#9) = .ok .rxbEscEnd := by rfl
theorem test_decode_esc_esc : decode (.wire 0b1_11011101#9) = .ok .rxbEscEsc := by rfl
theorem test_decode_badesc_end : decode (.wire 0b1_11000000#9) = .ok (.rxbBadEsc 0xC0#8) := by rfl
theorem test_decode_badesc_esc : decode (.wire 0b1_11011011#9) = .ok (.rxbBadEsc 0xDB#8) := by rfl
theorem test_decode_end : decode (.wire 0b0_11000000#9) = .ok .rxbEnd := by rfl
theorem test_decode_esc : decode (.wire 0b0_11011011#9) = .ok .rxbEsc := by rfl
theorem test_decode_lit_dc : decode (.wire 0b0_11011100#9) = .ok (.rxbLit 0xDC#8) := by rfl
theorem test_decode_lit_dd : decode (.wire 0b0_11011101#9) = .ok (.rxbLit 0xDD#8) := by rfl
theorem test_decode_stuff_end : decode (.raw 0b11000000#8) = .ok .stuffEnd := by rfl
theorem test_decode_stuff_esc : decode (.raw 0b11011011#8) = .ok .stuffEsc := by rfl
theorem test_decode_stuff_lit : decode (.raw 0b11011100#8) = .ok (.stuffLit 0xDC#8) := by rfl
theorem test_decode_fcs_compute :
    decode (.command 0b00000001#8 [.bytes [1#8, 1#8]]) = .ok (.fcsCompute [1#8, 1#8]) := by rfl
theorem test_decode_fcs_verify : decode (.command 0b00000010#8 [.bytes [7#8]]) = .ok (.fcsVerify [7#8]) := by rfl
theorem test_decode_enc_frame :
    decode (.command 0b00000011#8 [.byte 1#8, .byte 2#8, .bytes [0#8]]) = .ok (.encFrame 1#8 2#8 [0#8]) := by rfl
theorem test_decode_enc_wire : decode (.command 0b00000100#8 [.bytes [9#8]]) = .ok (.encWire [9#8]) := by rfl
theorem test_decode_rx_chunk : decode (.command 0b00000101#8 [.bytes [0xC0#8]]) = .ok (.rxChunk [0xC0#8]) := by rfl
theorem test_decode_rx_reset : decode (.command 0b00000110#8 []) = .ok .rxReset := by rfl
theorem test_decode_reg :
    decode (.command 0b00000111#8 [.byte 1#8, .byte 2#8, .handler (.waiter 3)]) = .ok (.reg 1#8 2#8 (.waiter 3)) := by rfl
theorem test_decode_unreg : decode (.command 0b00001000#8 [.ident 5]) = .ok (.unreg 5) := by rfl
theorem test_decode_req :
    decode (.command 0b00001001#8 [.byte 1#8, .byte 3#8, .bytes [], .byte 1#8, .byte 4#8]) =
      .ok (.req 1#8 3#8 [] 1#8 4#8) := by rfl
theorem test_decode_reset : decode (.command 0b00001111#8 []) = .ok .reset := by rfl
theorem test_decode_unknown_command : decode (.command 0b00001110#8 []) = .error (.unknownCommand 0x0E#8) := by rfl
theorem test_decode_command_zero : decode (.command 0#8 []) = .error (.unknownCommand 0#8) := by rfl
theorem test_decode_bad_operands : decode (.command 0x08#8 [.byte 5#8]) = .error (.badOperands 0x08#8) := by rfl

/-- The rows of spec/opcode_table.json that have a match, by number. -/
theorem test_table_words :
    [decodeTableWord 16 0x1DC, decodeTableWord 16 0x1DD, decodeTableWord 16 0x100, decodeTableWord 16 0x0C0,
      decodeTableWord 16 0x0DB, decodeTableWord 16 0x000, decodeTableWord 8 0xC0, decodeTableWord 8 0xDB,
      decodeTableWord 8 0x00, decodeTableWord 8 0x01, decodeTableWord 8 0x07, decodeTableWord 8 0x0F] =
    [some .rxbEscEnd, some .rxbEscEsc, some (.rxbBadEsc 0#8), some .rxbEnd, some .rxbEsc, some (.rxbLit 0#8),
      some .stuffEnd, some .stuffEsc, some (.stuffLit 0#8), some (.fcsCompute []), some (.reg 0#8 0#8 (.ext 0)),
      some .reset] := by decide

/-! ### One step -/

/-- The next state of an outcome, if it is one. -/
def nextOf : Result → Option State
  | .next s => some s
  | .fault _ => none
  | .refused _ => none

/-- The fault of an outcome, if it is one. -/
def faultOf : Result → Option Fault
  | .next _ => none
  | .fault x => some x
  | .refused _ => none

/-- What a test looks at in the next state. -/
def look {α : Type} (r : Result) (f : State → α) : Option α := (nextOf r).map f

/-- The next state, if the outcome is one, passes a check. -/
def after (r : Result) (p : State → Bool) : Bool :=
  match r with
  | .next s => p s
  | .fault _ => false
  | .refused _ => false

/-- A chunk in progress: `n` bytes of it consumed, `buf` accumulated, the mode bit. -/
def rxState (chunk : Bytes) (n : Nat) (buf : Bytes) (esc : Bool) (regy : List Entry) : State :=
  { State.reset with
    rxbuf := Memory.writeBytes [] 0 buf, rxLen := buf.length, rxEsc := esc, rxs := .run, rxChunk := chunk, rxPos := n,
    regy := regy, nextEid := regy.length }

/-- The link receive state and the cursor. -/
def link (s : State) : Option Bytes × Nat × Bool × RxState × Nat :=
  (Memory.readBytes s.rxbuf 0 s.rxLen, s.rxLen, s.rxEsc, s.rxs, s.rxPos)

/-- A ping in a given phase, its waiter open. -/
def ping (ph : Phase) (st : CallState) : Call :=
  { Call.fresh 1#8 1#8 [] 1#8 2#8 with
    st := st, ph := ph, wid := some 0, eid := some 0, wire := [0xC0#8, 1#8, 1#8, 0x16#8, 7#8, 0xC0#8], cur := 6 }

/-- One call, its entry and its waiter. -/
def callState (k : Call) (v : Waiter) : State :=
  { State.reset with
    regy := [⟨0, 1#8, 2#8, .waiter 0⟩], nextEid := 1, nextWid := 1, nextCall := 1, waiters := [(0, v)], calls := [(0, k)] }

/-- The waiter of the tests once the ping's answer is in. -/
def answered : Waiter := ⟨true, 1, [(0, 0#8)]⟩

/-- V-FCS-6, V-FCS-9 -/
theorem test_fcs_compute :
    (fcsCompute [1#8, 1#8], fcsCompute [1#8, 0xD0#8]) = (0x0716#16, 0xC012#16) := by decide +kernel
/-- V-FCS-10 -/
theorem test_fcs_catalogue :
    fcsCompute [0x31#8, 0x32#8, 0x33#8, 0x34#8, 0x35#8, 0x36#8, 0x37#8, 0x38#8, 0x39#8] = 0x906E#16 := by decide +kernel
/-- V-FCS-11, V-FCS-12, V-FCS-14 -/
theorem test_fcs_verify :
    [fcsVerify [1#8, 1#8, 0x16#8, 7#8], fcsVerify [1#8, 1#8, 7#8, 0x16#8], fcsVerify []] = [true, false, false] := by decide +kernel
/-- V-FCS-1, V-FCS-16 -/
theorem test_fcs_update :
    (crcByte 0xFFFF#16 1#8, fcsUpdate (fcsUpdate 0xFFFF#16 [1#8]) [2#8, 0#8]) = (0x1E0E#16, 0x505F#16) := by decide +kernel
/-- V-STF-1 -/
theorem test_stuff : [stuff 0xC0#8, stuff 0xDB#8, stuff 0xDC#8] = [[0xDB#8, 0xDC#8], [0xDB#8, 0xDD#8], [0xDC#8]] := by decide
/-- V-STF-3 -/
theorem test_enc_frame :
    look (exec (.encFrame 1#8 2#8 [0#8]) .reset) State.history = some [.reply (.bytes [1#8, 2#8, 0#8, 0xA0#8, 0xAF#8])] := by
  decide +kernel
/-- V-STF-8 -/
theorem test_enc_wire :
    look (exec (.encWire [0xC0#8, 0xDB#8, 0xB3#8, 0xAD#8]) .reset) State.history =
      some [.reply (.bytes [0xC0#8, 0xDB#8, 0xDC#8, 0xDB#8, 0xDD#8, 0xB3#8, 0xAD#8, 0xC0#8])] := by decide
/-- V-STF-12 -/
theorem test_enc_frame_too_long :
    look (exec (.encFrame 1#8 1#8 (List.replicate 301 0#8)) .reset) State.history = some [.reply (.status (.errLen 301))] := by
  decide +kernel
/-- V-DST-2, third byte -/
theorem test_rxb_esc_end :
    look (exec .rxbEscEnd (rxState [1#8, 0xDB#8, 0xDC#8, 2#8] 2 [1#8] true [])) link =
      some (some [1#8, 0xC0#8], 2, false, .run, 3) := by decide
/-- V-DST-3, third byte -/
theorem test_rxb_esc_esc :
    look (exec .rxbEscEsc (rxState [1#8, 0xDB#8, 0xDD#8] 2 [1#8] true [])) link =
      some (some [1#8, 0xDB#8], 2, false, .run, 3) := by decide
/-- V-DST-4, first byte -/
theorem test_rxb_lit :
    look (exec (.rxbLit 0xDC#8) (rxState [0xDC#8, 0xDD#8] 0 [] false [])) link = some (some [0xDC#8], 1, false, .run, 1) := by
  decide
/-- V-DST-5, second byte -/
theorem test_rxb_esc :
    look (exec .rxbEsc (rxState [1#8, 0xDB#8] 1 [1#8] false [])) link = some (some [1#8], 1, true, .run, 2) := by decide
/-- V-DST-6, third byte -/
theorem test_rxb_badesc :
    after (exec (.rxbBadEsc 0xC0#8) (rxState [1#8, 0xDB#8, 0xC0#8, 2#8, 0xC0#8] 2 [1#8] true []))
      (fun s => link s = (some [1#8], 1, false, .run, 3) && s.history = [.diag (.badEsc 0xC0#8)]) := by decide
/-- V-DST-1, first byte -/
theorem test_rxb_end_idle :
    after (exec .rxbEnd (rxState [0xC0#8, 0xC0#8] 0 [] false []))
      (fun s => link s = (some [], 0, false, .run, 1) && s.history = []) := by decide
/-- P1 step 19 -/
theorem test_rxb_end_latches :
    look (exec .rxbEnd (rxState [0xC0#8] 0 [1#8, 2#8, 0#8, 0xA0#8, 0xAF#8] false [⟨0, 1#8, 2#8, .waiter 0⟩]))
      (fun s => (s.rxLen, s.rxs, s.rxPos, s.dsp)) =
      some (0, .dsp, 1, some ⟨.waiter 0, 1#8, 2#8, [0#8]⟩) := by decide +kernel
/-- P5 step 3 -/
theorem test_frame_done_bad_fcs :
    look (exec .frameDone (rxState [] 0 [1#8, 2#8, 1#8, 0xA0#8, 0xAF#8] false [⟨0, 1#8, 2#8, .waiter 0⟩]))
      (fun s => (s.rxLen, s.rxs, s.history)) = some (0, .run, [.diag (.badFcs 1#8 2#8 5)]) := by decide +kernel
/-- V-ASM-5, length 3 -/
theorem test_frame_done_short :
    look (exec .frameDone (rxState [] 0 [1#8, 2#8, 3#8] false [])) (fun s => (s.rxLen, s.history)) =
      some (0, [.diag (.short 3)]) := by decide
/-- P2 step 7 -/
theorem test_rx_chunk :
    look (exec (.rxChunk [0xDC#8]) { rxState [7#8] 1 [1#8, 1#8] true [] with rxs := .idle })
      (fun s => (s.rxChunk, s.rxPos, s.rxs, s.rxLen, s.rxEsc)) = some ([0xDC#8], 0, .run, 2, true) := by decide
/-- P2 step 6 -/
theorem test_rx_return :
    look (exec .rxReturn (rxState [0xC0#8, 1#8, 1#8, 0xDB#8] 4 [1#8, 1#8] true [])) (fun s => (s.rxs, s.history, s.rxLen)) =
      some (.idle, [.consumed 4], 2) := by decide
/-- R170: not before the end of the chunk. -/
theorem test_rx_return_too_early : faultOf (exec .rxReturn (rxState [1#8, 2#8] 1 [1#8] false [])) = some .noStep := by decide
/-- V-RST-2 -/
theorem test_rx_reset :
    look (exec .rxReset { rxState [] 0 [1#8, 2#8] true [⟨0, 1#8, 2#8, .ext 1⟩] with rxs := .idle })
      (fun s => (s.rxLen, s.rxEsc, s.regy.length)) = some (0, false, 1) := by decide
/-- V-RST-3 -/
theorem test_rx_reset_in_chunk : faultOf (exec .rxReset (rxState [1#8] 0 [] false [])) = some .noStep := by decide
/-- V-RST-1 -/
theorem test_reset :
    nextOf (exec .reset (callState (ping .fin .completed) answered)) = some .reset := by decide
/-- R201, example -/
theorem test_reg :
    look (exec (.reg 1#8 2#8 (.ext 7)) .reset) (fun s => (s.regy, s.nextEid, s.history)) =
      some ([⟨0, 1#8, 2#8, .ext 7⟩], 1, [.reply (.registered 0)]) := by decide
/-- V-DSP-7 -/
theorem test_reg_full :
    look (exec (.reg 1#8 4#8 (.ext 2))
        { rxState [] 0 [] false [⟨0, 1#8, 2#8, .ext 1⟩] with params := { Params.default with regCap := some 1 } })
      (fun s => (s.regy.length, s.nextEid, s.history)) = some (1, 1, [.reply (.status .regFull)]) := by decide
/-- A waiter never allocated (assumption 13): the entry is made all the same. -/
theorem test_reg_unallocated_waiter :
    look (step { State.reset with schedule := [.host 0x07#8 [.byte 1#8, .byte 2#8, .handler (.waiter 6)]] }) State.regy =
      some [⟨0, 1#8, 2#8, .waiter 6⟩] := by decide
/-- R202, example -/
theorem test_unreg :
    look (exec (.unreg 0) (rxState [] 0 [] false [⟨0, 1#8, 2#8, .waiter 0⟩, ⟨1, 1#8, 2#8, .waiter 1⟩])) State.regy =
      some [⟨1, 1#8, 2#8, .waiter 1⟩] := by decide
/-- V-DSP-8 -/
theorem test_unreg_absent :
    look (exec (.unreg 5) (rxState [] 0 [] false [⟨0, 1#8, 2#8, .ext 1⟩])) (fun s => s.regy.length) = some 1 := by decide
/-- V-DSP-2 -/
theorem test_dsp_scan :
    [scan [⟨0, 1#8, 2#8, .ext 0⟩, ⟨1, 1#8, 4#8, .ext 0⟩, ⟨2, 1#8, 2#8, .ext 0⟩] 1#8 2#8,
      scan [⟨0, 1#8, 2#8, .ext 0⟩, ⟨1, 1#8, 4#8, .ext 0⟩, ⟨2, 1#8, 2#8, .ext 0⟩] 2#8 1#8] =
      [some ⟨0, 1#8, 2#8, .ext 0⟩, none] := by decide
/-- A waiter never allocated (assumption 13): whatever its completion bit reads as, the step completes. -/
theorem test_hnd_waiter_unallocated :
    after (exec (.hndWaiter 9 [0x55#8]) .reset) (fun s => s.draws = 1 && s.regy = []) = true := by
  cases h : Config.unallocatedDone 0 <;> simp [exec, execHndWaiter, completeWaiter, State.waiterAt, State.reset, h] <;> decide
/-- P1 step 20 -/
theorem test_dsp_invoke_waiter :
    look (exec .dspInvoke
        { callState (ping .wait .registered) Waiter.fresh with rxs := .dsp, dsp := some ⟨.waiter 0, 1#8, 2#8, [0#8]⟩ })
      (fun s => (s.waiters, s.dsp, s.rxs)) = some ([(0, answered)], none, .run) := by decide
/-- P2 step 18 -/
theorem test_dsp_invoke_ext :
    look (exec .dspInvoke { State.reset with rxs := .dsp, dsp := some ⟨.ext 7, 1#8, 1#8, [0xC0#8]⟩ })
      (fun s => (s.history, s.dsp, s.rxs)) = some ([.ext 7 1#8 1#8 [0xC0#8]], none, .run) := by decide
/-- V-DSP-9 -/
theorem test_hnd_waiter_empty :
    look (exec (.hndWaiter 0 []) (callState (ping .wait .registered) Waiter.fresh)) State.waiters =
      some [(0, ⟨true, 0, []⟩)] := by decide
/-- V-DSP-4 -/
theorem test_hnd_waiter_once :
    look (exec (.hndWaiter 0 [0x55#8]) (callState (ping .wait .registered) answered)) State.waiters =
      some [(0, answered)] := by decide
/-- R208, example -/
theorem test_hnd_ext :
    look (exec (.hndExt 7 1#8 1#8 [0xC0#8, 0xDB#8]) .reset) State.history = some [.ext 7 1#8 1#8 [0xC0#8, 0xDB#8]] := by decide
/-- P1 step 1 -/
theorem test_req :
    look (exec (.req 1#8 1#8 [] 1#8 2#8) .reset) (fun s => (s.calls, s.nextCall)) =
      some ([(0, Call.fresh 1#8 1#8 [] 1#8 2#8)], 1) := by decide
/-- P1 step 2 -/
theorem test_req_build :
    after (exec (.reqBuild 0) { State.reset with calls := [(0, Call.fresh 1#8 1#8 [] 1#8 2#8)], nextCall := 1 })
      (fun s => s.waiters = [(0, ⟨false, 0, []⟩)] && s.nextWid = 1 &&
        s.calls = [(0, { Call.fresh 1#8 1#8 [] 1#8 2#8 with wid := some 0, ph := .built })]) := by decide
/-- V-ARB-7 -/
theorem test_req_build_too_long :
    after (exec (.reqBuild 0) { State.reset with calls := [(0, Call.fresh 1#8 1#8 (List.replicate 301 0#8) 1#8 2#8)] })
      (fun s => s.waiters = [] && s.nextWid = 0 && s.calls = [(0, { Call.fresh 1#8 1#8 (List.replicate 301 0#8) 1#8 2#8 with
        out := .refused .errLen, st := .refused, ph := .ret })]) := by decide +kernel
/-- P1 step 3 -/
theorem test_req_register :
    after (exec (.reqRegister 0) { callState { ping .built .idle with eid := none } Waiter.fresh with regy := [], nextEid := 0 })
      (fun s => s.regy = [⟨0, 1#8, 2#8, .waiter 0⟩] && s.nextEid = 1 && s.calls = [(0, ping .enc .registered)]) := by decide
/-- V-ARB-8 -/
theorem test_req_register_full :
    after (exec (.reqRegister 0)
        { callState { ping .built .idle with eid := none } Waiter.fresh with
          regy := [], nextEid := 0, params := { Params.default with regCap := some 0 } })
      (fun s => s.regy = [] && s.nextEid = 0 &&
        s.calls = [(0, { ping .ret .refused with eid := none, out := .refused .regFull })]) := by decide
/-- P1 step 4 -/
theorem test_req_encode :
    look (exec (.reqEncode 0) (callState { ping .enc .registered with wire := [], cur := 3 } Waiter.fresh))
      (fun s => (Table.lookup s.calls 0).map fun k => (k.wire, k.cur, k.ph)) =
      some (some ([0xC0#8, 1#8, 1#8, 0x16#8, 7#8, 0xC0#8], 0, .send)) := by decide +kernel
/-- P1 step 8 -/
theorem test_tx_byte :
    look (exec (.txByte 0) (callState { ping .send .registered with cur := 3 } Waiter.fresh))
      (fun s => (s.history, (Table.lookup s.calls 0).map Call.cur)) = some ([.tx 0x16#8], some 4) := by decide
/-- P1 step 11 -/
theorem test_tx_done :
    look (exec (.txDone 0) (callState (ping .send .registered) Waiter.fresh))
      (fun s => (Table.lookup s.calls 0).map Call.ph) = some (some .wait) := by decide
/-- P7 step 3 -/
theorem test_ev_wrfail :
    look (exec (.evWrfail 0 5) (callState { ping .send .registered with cur := 3 } answered))
      (fun s => (Table.lookup s.calls 0).map fun k => (k.out, k.ph)) = some (some (.wrFailed 5, .unreg)) := by decide
/-- P1 step 22 -/
theorem test_req_wake :
    look (exec (.reqWake 0) (callState (ping .wait .registered) answered))
      (fun s => (Table.lookup s.calls 0).map fun k => (k.out, k.ph)) = some (some (.completed, .unreg)) := by decide
/-- P4 step 2 -/
theorem test_ev_expire :
    look (exec (.evExpire 0) (callState (ping .wait .registered) Waiter.fresh))
      (fun s => (Table.lookup s.calls 0).map fun k => (k.out, k.ph)) = some (some (.timedOut, .unreg)) := by decide
/-- V-ARB-10 -/
theorem test_ev_expire_completed :
    faultOf (exec (.evExpire 0) (callState (ping .wait .registered) answered)) = some .noStep := by decide
/-- P1 step 23 -/
theorem test_req_unreg :
    look (exec (.reqUnreg 0) (callState { ping .unreg .registered with out := .completed } answered))
      (fun s => (s.regy, (Table.lookup s.calls 0).map fun k => (k.st, k.ph))) = some ([], some (.completed, .ret)) := by decide
/-- P1 step 24 -/
theorem test_req_return :
    look (exec (.reqReturn 0) (callState { ping .ret .completed with out := .completed } answered))
      (fun s => (s.history, (Table.lookup s.calls 0).map fun k => (k.res, k.ph))) =
      some ([.callReturn 0 (.ok [0#8])], some (some (.ok [0#8]), .fin)) := by decide
/-- R270 -/
theorem test_ping :
    look (exec .ping .reset) (fun s => (s.calls, s.consumers)) =
      some ([(0, Call.fresh 1#8 1#8 [] 1#8 2#8)], [(0, ⟨.ping, none⟩)]) := by decide
/-- V-CON-1 -/
theorem test_ping_check :
    [ConsumerKind.ping.check (.ok [0#8]), ConsumerKind.ping.check (.ok [0#8, 0xFF#8]), ConsumerKind.ping.check (.ok [1#8]),
      ConsumerKind.ping.check (.ok [])] = [.success [], .success [], .protoErr, .protoErr] := by decide
/-- R271 -/
theorem test_getinfo :
    look (exec .getInfo .reset) (fun s => (s.calls, s.consumers)) =
      some ([(0, Call.fresh 1#8 3#8 [] 1#8 4#8)], [(0, ⟨.getInfo, none⟩)]) := by decide
/-- V-CON-2 -/
theorem test_getinfo_check :
    [ConsumerKind.getInfo.check (.ok [0#8, 0x10#8, 0x11#8, 0x12#8, 0x13#8, 0x14#8, 0x15#8, 0x16#8, 0x17#8, 0x18#8]),
      ConsumerKind.getInfo.check (.ok [0#8, 0x10#8, 0x11#8, 0x12#8, 0x13#8, 0x14#8, 0x15#8, 0x16#8, 0x17#8])] =
      [.success [0x10#8, 0x11#8, 0x12#8, 0x13#8, 0x14#8, 0x15#8, 0x16#8, 0x17#8, 0x18#8], .protoErr] := by decide

/-! ### A step from reset on a word of the opcode table -/

theorem test_step_table_lit :
    look (step (State.reset.withFetchWord 16 0x041)) link = some (some [0x41#8], 1, false, .run, 1) := by decide
theorem test_step_table_badesc :
    look (step (State.reset.withFetchWord 16 0x1C0)) State.history = some [.diag (.badEsc 0xC0#8)] := by decide
theorem test_step_table_stuff :
    look (step (State.reset.withFetchWord 8 0xDB)) State.history = some [.reply (.bytes [0xDB#8, 0xDD#8])] := by decide
theorem test_step_table_reg :
    look (step (State.reset.withFetchWord 8 0x07)) State.regy = some [⟨0, 0#8, 0#8, .ext 0⟩] := by decide
theorem test_step_unknown_command :
    look (step { State.reset with schedule := [.host 0x0A#8 []] }) State.history = some [.reply (.status (.errCmd 0x0A#8))] := by
  decide
theorem test_step_idle : faultOf (step .reset) = some .idle := by decide

/-! ### Witnesses: concrete states and operands that meet the hypotheses of each statement that has some -/

/-- A byte of no special meaning. -/
theorem witness_StuffOperations : (0xDC#8 : Byte) ≠ 0xC0#8 ∧ (0xDC#8 : Byte) ≠ 0xDB#8 := by decide
theorem witness_WireKeyClassification :
    (0xC0#8 : Byte) ≠ 0xDC#8 ∧ (0xC0#8 : Byte) ≠ 0xDD#8 ∧ (0xDD#8 : Byte) ≠ 0xC0#8 ∧ (0xDD#8 : Byte) ≠ 0xDB#8 := by decide
/-- The first bit and the last bit of the ping frame. -/
theorem witness_SingleBitFlipIsDetected :
    fcsVerify [1#8, 1#8, 0x16#8, 7#8] = true ∧ [1#8, 1#8, 0x16#8, 7#8][0]? = some 1#8 ∧
      [1#8, 1#8, 0x16#8, 7#8][3]? = some 7#8 ∧ 0 < 8 ∧ 7 < 8 := by decide +kernel
theorem witness_WireFormShape :
    (encWire [0xDB#8])[1]? = some 0xDB#8 ∧ (List.replicate 300 0#8 : Bytes).length ≤ 300 ∧
      ([0#8, 0#8, 0xF0#8, 0xF0#8] : Bytes).length = (frameOf 0#8 0#8 []).length := by decide +kernel
theorem witness_EncFrameReturnsFrameOrErrLen :
    (List.replicate 300 0#8 : Bytes).length ≤ 300 ∧ 300 < (List.replicate 301 0#8 : Bytes).length := by decide +kernel
theorem witness_EncodeThenDecodeIsIdentity :
    (Instr.reg 1#8 2#8 (.waiter 3)).wellFormed = true ∧
      encode (.reg 1#8 2#8 (.waiter 3)) = some (.command 0x07#8 [.byte 1#8, .byte 2#8, .handler (.waiter 3)]) := by decide
theorem witness_DecodeThenEncodeIsIdentity : decode (.wire 0b1_11000000#9) = .ok (.rxbBadEsc 0xC0#8) := by rfl
theorem witness_UnknownCommandIsRefused :
    ({ State.reset with schedule := [.host 0x0A#8 []] } : State).schedule = .host 0x0A#8 [] :: [] ∧
      (0x0A#8 : Byte) ∉ [0x01#8, 0x02#8, 0x03#8, 0x04#8, 0x05#8, 0x06#8, 0x07#8, 0x08#8, 0x09#8, 0x0F#8] := by decide

/-- A full buffer, in a chunk whose next byte is given. -/
def fullState (b : Byte) (esc : Bool) (policy : FullPolicy) : State :=
  { rxState [b] 0 (List.replicate 304 0x41#8) esc [] with params := { Params.default with fullPolicy := policy } }

theorem witness_StepRunsTheSelectedOperation :
    decode (.command 0x08#8 [.ident 5]) = .ok (.unreg 5) ∧ decode (.command 0x08#8 []) = .error (.badOperands 0x08#8) ∧
      decode (.raw 0xC0#8) = .ok .stuffEnd ∧
      ((rxState [7#8] 0 [] false []).rxs = .run ∧ (rxState [7#8] 0 [] false []).rxChunk[0]? = some 7#8 ∧
        decode (.wire (wireKey false 7#8)) = .ok (.rxbLit 7#8) ∧ (rxState [7#8] 0 [] false []).rxLen < 304) ∧
      ((fullState 0xC0#8 false .stallAppend).rxChunk[0]? = some 0xC0#8 ∧ Instr.appends .rxbEnd = false ∧
        (fullState 0xC0#8 false .stallAppend).params.fullPolicy = .stallAppend) ∧
      (304 ≤ (fullState 0xC0#8 false .stallAll).rxLen ∧ (fullState 0xC0#8 false .stallAll).params.fullPolicy = .stallAll) ∧
      (rxState [7#8] 1 [7#8] false []).rxChunk[1]? = none ∧ State.reset.rxs = .idle := by decide +kernel

/-- One call in each phase. -/
theorem witness_CallTurnFollowsThePhase :
    ∀ ph ∈ [Phase.new, .built, .enc, .send, .wait, .unreg, .ret, .fin],
      (Table.lookup (callState (ping ph .registered) Waiter.fresh).calls 0).map Call.ph = some ph ∧
        (ping ph .registered).wire.length ≤ (ping ph .registered).cur ∧
        ({ ping ph .registered with cur := 5 } : Call).cur < (ping ph .registered).wire.length := by decide

theorem witness_AppendingByteOperations :
    ((rxState [7#8] 0 [] false []).rxs = .run ∧ (rxState [7#8] 0 [] false []).rxLen < 304 ∧
      (rxState [7#8] 0 [] false []).rxChunk[0]? = some 7#8 ∧ (rxState [7#8] 0 [] false []).rxEsc = false) ∧
    ((rxState [0xDC#8] 0 (List.replicate 303 0#8) true []).rxLen = 303 ∧
      (rxState [0xDC#8] 0 (List.replicate 303 0#8) true []).rxChunk[0]? = some 0xDC#8 ∧
      (rxState [0xDC#8] 0 (List.replicate 303 0#8) true []).rxEsc = true) ∧
    (rxState [0xDD#8] 0 [] true []).rxChunk[0]? = some 0xDD#8 := by decide +kernel
theorem witness_AppendStoresOneCell :
    after (exec (.rxbLit 7#8) (rxState [7#8] 0 [1#8] false [])) (fun t => t.rxLen = 2) = true ∧
      after (exec .rxbEscEnd (rxState [0xDC#8] 0 [1#8] true [])) (fun t => t.rxLen = 2) = true ∧
      after (exec .rxbEscEsc (rxState [0xDD#8] 0 [1#8] true [])) (fun t => t.rxLen = 2) = true ∧
      after (exec .rxbEsc (rxState [0xDB#8] 0 [1#8] false [])) (fun t => t.rxLen = 1) = true ∧
      after (exec (.rxbBadEsc 7#8) (rxState [7#8] 0 [1#8] true [])) (fun t => t.rxLen = 1) = true := by decide
theorem witness_EscapeAndBadEscape :
    ((rxState [0xDB#8] 0 [1#8] false []).rxs = .run ∧ (rxState [0xDB#8] 0 [1#8] false []).rxLen < 304 ∧
      (rxState [0xDB#8] 0 [1#8] false []).rxChunk[0]? = some 0xDB#8 ∧ (rxState [0xDB#8] 0 [1#8] false []).rxEsc = false) ∧
    ((fullState 0xC0#8 true .stallAppend).params.fullPolicy = .stallAppend ∧
      (fullState 0xC0#8 true .stallAppend).rxChunk[0]? = some 0xC0#8 ∧ (fullState 0xC0#8 true .stallAppend).rxEsc = true) := by
  decide +kernel

/-- The raw frame of the ping's answer, and the same with its first checksum byte off by one. -/
def goodFrame : Bytes := [1#8, 2#8, 0#8, 0xA0#8, 0xAF#8]
def badFrame : Bytes := [1#8, 2#8, 0#8, 0xA1#8, 0xAF#8]
/-- Two entries for the answer's pair behind one for another pair. -/
def threeEntries : List Entry := [⟨0, 1#8, 4#8, .ext 0⟩, ⟨1, 1#8, 2#8, .waiter 0⟩, ⟨2, 1#8, 2#8, .ext 9⟩]
/-- A state with a completed frame in the buffer and the closing `END` under the cursor. -/
def frameState (frame : Bytes) (regy : List Entry) : State := rxState [0xC0#8] 0 frame false regy

theorem witness_FrameDoneOutcomes :
    (0 < (frameState [1#8] []).rxLen ∧ (frameState [1#8, 2#8, 3#8] []).rxLen < 4) ∧
    (Memory.readBytes (frameState badFrame []).rxbuf 0 (frameState badFrame []).rxLen =
        some ([1#8, 2#8] ++ [0#8] ++ [0xA1#8, 0xAF#8]) ∧ fcsVerify badFrame = false) ∧
    (Memory.readBytes (frameState goodFrame threeEntries).rxbuf 0 (frameState goodFrame threeEntries).rxLen =
        some ([1#8, 2#8] ++ [0#8] ++ [0xA0#8, 0xAF#8]) ∧ fcsVerify goodFrame = true) ∧
    (Memory.readBytes (frameState [1#8, 1#8, 0x16#8, 7#8] []).rxbuf 0 4 = some ([1#8, 1#8] ++ [] ++ [0x16#8, 7#8])) ∧
    threeEntries = [⟨0, 1#8, 4#8, .ext 0⟩] ++ ⟨1, 1#8, 2#8, .waiter 0⟩ :: [⟨2, 1#8, 2#8, .ext 9⟩] ∧
    (∀ x ∈ ([⟨0, 1#8, 4#8, .ext 0⟩] : List Entry), ¬ (x.dst = 1#8 ∧ x.msg = 2#8)) ∧
    (∀ x ∈ threeEntries, ¬ (x.dst = 2#8 ∧ x.msg = 1#8)) := by decide +kernel
theorem witness_EndRunsFrameDone :
    ((frameState [] []).rxs = .run ∧ (frameState [] []).rxLen < 304 ∧ (frameState [] []).rxChunk[0]? = some 0xC0#8 ∧
      (frameState [] []).rxEsc = false ∧ (frameState [] []).rxLen = 0) ∧
    (0 < (frameState goodFrame threeEntries).rxLen ∧
      after (exec .frameDone (frameState goodFrame threeEntries)) (fun t => t.rxs = .dsp) = true) ∧
    (fullState 0xC0#8 false .stallAppend).params.fullPolicy = .stallAppend := by decide +kernel
theorem witness_OnlyGoodFramesAreDispatched :
    after (exec .rxbEnd (frameState goodFrame threeEntries)) (fun t => t.dsp ≠ (frameState goodFrame threeEntries).dsp) = true := by
  decide +kernel
theorem witness_LongestReceivedPayload :
    (frameState goodFrame threeEntries).params.fullPolicy = .stallAll ∧
      after (exec .rxbEnd (frameState goodFrame threeEntries)) (fun t => t.dsp = some ⟨.waiter 0, 1#8, 2#8, [0#8]⟩) = true := by
  decide +kernel
theorem witness_LinkCommandsOnlyBetweenChunks :
    State.reset.rxs = .idle ∧ (frameState [] []).rxs ≠ .idle := by decide
theorem witness_ReturnDeliversConsumedCount :
    (rxState [7#8] 1 [7#8] false []).rxs = .run ∧
      (rxState [7#8] 1 [7#8] false []).rxPos = (rxState [7#8] 1 [7#8] false []).rxChunk.length ∧
      ((fullState 0xC0#8 false .stallAll).rxLen = 304 ∧ (fullState 0xC0#8 false .stallAll).params.fullPolicy = .stallAll) ∧
      ((fullState 7#8 false .stallAppend).rxLen = 304 ∧ (fullState 7#8 false .stallAppend).rxChunk[0]? = some 7#8 ∧
        Instr.appends (decodeWire (wireKey false 7#8)) = true) ∧
      ((rxState [7#8] 0 [] false []).rxPos < (rxState [7#8] 0 [] false []).rxChunk.length ∧
        (rxState [7#8] 0 [] false []).rxLen ≠ 304 ∧ (rxState [7#8] 0 [] false []).params.returnGuard = .exact) ∧
      ((fullState 0xC0#8 false .stallAppend).rxLen = 304 ∧ (fullState 0xC0#8 false .stallAppend).params.fullPolicy = .stallAppend ∧
        (fullState 0xC0#8 false .stallAppend).params.returnGuard = .exact ∧
        (fullState 0xC0#8 false .stallAppend).rxPos ≠ (fullState 0xC0#8 false .stallAppend).rxChunk.length ∧
        (fullState 0xC0#8 false .stallAppend).rxChunk[0]? = some 0xC0#8 ∧
        Instr.appends (decodeWire (wireKey false 0xC0#8)) = false) ∧
      State.reset.rxs ≠ .run ∧
      ({ Params.default with returnGuard := .anyPrefix } : Params).returnGuard = .anyPrefix := by decide +kernel
theorem witness_FullBufferTakesNoByte :
    ({ fullState 0xC0#8 false .stallAll with rxs := .idle } : State).rxLen = 304 ∧
      ({ fullState 0xC0#8 false .stallAll with rxs := .idle } : State).params.fullPolicy = .stallAll ∧
      ({ fullState 0xC0#8 false .stallAll with rxs := .idle } : State).rxs = .idle := by decide +kernel
theorem witness_StallIsPermanent :
    let s : State := { fullState 0xC0#8 false .stallAll with schedule := [.rx] }
    s.rxLen = 304 ∧ s.params.fullPolicy = .stallAll ∧ (nextOf (step s)).isSome = true ∧
      s.schedule.head? ≠ some (.host 0x06#8 []) ∧ s.schedule.head? ≠ some (.host 0x0F#8 []) := by decide +kernel

/-- A wire form between other bytes, not yet begun. -/
def wireState (before raw after : Bytes) (regy : List Entry) (sched : List Turn) : State :=
  { rxState (before ++ encWire raw ++ after) before.length [] false regy with schedule := sched }

theorem witness_DecoderRebuildsTheRawFrame :
    let s := wireState [5#8] [0xC0#8] [6#8] [] (List.replicate 3 .rx ++ .rx :: [])
    1 ≤ ([0xC0#8] : Bytes).length ∧ ([0xC0#8] : Bytes).length ≤ 303 ∧ s.rxbuf = [] ∧ s.rxLen = 0 ∧ s.rxEsc = false ∧
      s.rxs = .run ∧ s.rxChunk = [5#8] ++ encWire [0xC0#8] ++ [6#8] ∧ s.rxPos = ([5#8] : Bytes).length ∧
      s.schedule = List.replicate ((encWire [0xC0#8]).length - 1) .rx ++ .rx :: [] := by decide
theorem witness_EncodedFrameIsDelivered :
    let s := wireState [5#8] (frameOf 1#8 2#8 [0#8]) [6#8] threeEntries
      (List.replicate (encWire (frameOf 1#8 2#8 [0#8])).length .rx ++ [])
    ([0#8] : Bytes).length ≤ 299 ∧ s.rxbuf = [] ∧ s.rxLen = 0 ∧ s.rxEsc = false ∧ s.rxs = .run ∧
      s.rxChunk = [5#8] ++ encWire (frameOf 1#8 2#8 [0#8]) ++ [6#8] ∧ s.rxPos = ([5#8] : Bytes).length ∧
      s.schedule = List.replicate (encWire (frameOf 1#8 2#8 [0#8])).length .rx ++ [] ∧
      s.regy = [⟨0, 1#8, 4#8, .ext 0⟩] ++ ⟨1, 1#8, 2#8, .waiter 0⟩ :: [⟨2, 1#8, 2#8, .ext 9⟩] ∧
      (∀ x ∈ ([⟨0, 1#8, 4#8, .ext 0⟩] : List Entry), ¬ (x.dst = 1#8 ∧ x.msg = 2#8)) ∧
      (∀ x ∈ s.regy, ¬ (x.dst = 2#8 ∧ x.msg = 1#8)) := by decide +kernel
theorem witness_LongestFrameStallsTheReceiver :
    let raw : Bytes := List.replicate 304 0x41#8
    let s := wireState [] raw [] [] (List.replicate ((encWire raw).length - 1) .rx ++ .rx :: [])
    raw.length = 304 ∧ s.params.fullPolicy = .stallAll ∧ s.rxbuf = [] ∧ s.rxLen = 0 ∧ s.rxEsc = false ∧ s.rxs = .run ∧
      s.rxChunk = encWire raw ∧ s.rxPos = 0 ∧
      s.schedule = List.replicate ((encWire raw).length - 1) .rx ++ .rx :: [] := by decide +kernel
theorem witness_ChunkBoundariesDoNotMatter :
    let s : State := { rxState [7#8, 0xDB#8] 0 [] false [] with schedule := List.replicate 2 .rx ++ [] }
    s.rxs ≠ .idle ∧ after (steps 2 s) (fun t => t.rxs ≠ .idle) = true ∧ s.rxChunk = [7#8, 0xDB#8] ∧
      s.rxPos ≤ ([7#8, 0xDB#8] : Bytes).length := by decide

theorem witness_RegAppendsOrRefuses :
    (frameState [] threeEntries).params.regCap = none ∧
      (∀ cap, some 4 = some cap → threeEntries.length < cap) ∧ (∀ cap, some 3 = some cap → cap ≤ threeEntries.length) := by
  refine ⟨rfl, ?_, ?_⟩ <;> rintro _ ⟨⟩ <;> decide
theorem witness_UnregRemovesTheEntry :
    threeEntries = [⟨0, 1#8, 4#8, .ext 0⟩] ++ ⟨1, 1#8, 2#8, .waiter 0⟩ :: [⟨2, 1#8, 2#8, .ext 9⟩] ∧
      (∀ x ∈ ([⟨0, 1#8, 4#8, .ext 0⟩] ++ [⟨2, 1#8, 2#8, .ext 9⟩] : List Entry), x.eid ≠ 1) ∧
      (∀ x ∈ threeEntries, x.eid ≠ 3) := by decide
theorem witness_ScanAnswersTheOldestMatch :
    threeEntries = [⟨0, 1#8, 4#8, .ext 0⟩] ++ ⟨1, 1#8, 2#8, .waiter 0⟩ :: [⟨2, 1#8, 2#8, .ext 9⟩] ∧
      (∀ x ∈ ([⟨0, 1#8, 4#8, .ext 0⟩] : List Entry), ¬ (x.dst = 1#8 ∧ x.msg = 2#8)) ∧
      (∀ x ∈ threeEntries, ¬ (x.dst = 2#8 ∧ x.msg = 1#8)) := by decide
theorem witness_WaiterTakesOnePayload :
    (Table.lookup (callState (ping .wait .registered) answered).waiters 0 = some answered ∧ answered.done = true) ∧
      (Table.lookup (callState (ping .wait .registered) Waiter.fresh).waiters 0 = some Waiter.fresh ∧
        Waiter.fresh.done = false ∧ (List.replicate 300 0#8 : Bytes).length ≤ 300) := by decide +kernel
theorem witness_WaiterOperandsOutsideTheirRange :
    Table.lookup (callState (ping .wait .registered) Waiter.fresh).waiters 1 = none ∧
      Table.lookup (callState (ping .wait .registered) Waiter.fresh).waiters 0 = some Waiter.fresh ∧
      Waiter.fresh.done = false ∧ 300 < (List.replicate 301 0#8 : Bytes).length := by decide +kernel
theorem witness_InvokeRunsTheLatchedHandler :
    let s : State :=
      { callState (ping .wait .registered) Waiter.fresh with rxs := .dsp, dsp := some ⟨.waiter 0, 1#8, 2#8, [0#8]⟩ }
    (s.rxs = .dsp ∧ s.dsp = some ⟨.waiter 0, 1#8, 2#8, [0#8]⟩ ∧ (nextOf (exec (.hndWaiter 0 [0#8]) s)).isSome = true) ∧
      ({ s with dsp := some ⟨.ext 7, 1#8, 1#8, []⟩ } : State).dsp = some ⟨.ext 7, 1#8, 1#8, []⟩ := by decide

theorem witness_BuildMakesTheWaiterOrRefuses :
    let s := callState (Call.fresh 1#8 1#8 (List.replicate 300 0#8) 1#8 2#8) Waiter.fresh
    let u := callState (Call.fresh 1#8 1#8 (List.replicate 301 0#8) 1#8 2#8) Waiter.fresh
    ((Table.lookup s.calls 0).map fun k => (k.ph, k.payload.length)) = some (.new, 300) ∧
      ((Table.lookup u.calls 0).map fun k => (k.ph, k.payload.length)) = some (.new, 301) := by decide +kernel
theorem witness_RegisterEntersTheCall :
    let s := callState { ping .built .idle with eid := none } Waiter.fresh
    ((Table.lookup s.calls 0).map fun k => (k.ph, k.wid)) = some (.built, some 0) ∧ s.params.regCap = none ∧
      ({ s with params := { Params.default with regCap := some 1 } } : State).params.regCap = some s.regy.length := by decide
theorem witness_EncodeAndTransmit :
    ((Table.lookup (callState (ping .enc .registered) Waiter.fresh).calls 0).map Call.ph = some .enc) ∧
      ((Table.lookup (callState { ping .send .registered with cur := 5 } Waiter.fresh).calls 0).bind fun k => k.wire[k.cur]?) =
        some 0xC0#8 ∧
      ((Table.lookup (callState (ping .send .registered) Waiter.fresh).calls 0).map fun k => (k.ph, k.cur, k.wire.length)) =
        some (.send, 6, 6) := by decide
theorem witness_WaysOutOfSendAndWait :
    ((Table.lookup (callState (ping .send .registered) answered).calls 0).map Call.ph = some .send) ∧
      ((Table.lookup (callState (ping .wait .registered) answered).calls 0).map fun k => (k.ph, k.wid)) = some (.wait, some 0) ∧
      Table.lookup (callState (ping .wait .registered) answered).waiters 0 = some answered ∧ answered.done = true ∧
      Table.lookup (callState (ping .wait .registered) Waiter.fresh).waiters 0 = some Waiter.fresh ∧
      Waiter.fresh.done = false ∧ State.reset.params.expireGuard = .whileNotDone := by decide
/-- The entry present between two others, and absent. -/
theorem witness_ReqUnregRemovesTheEntry :
    (∀ out ∈ [CallOut.completed, .timedOut, .wrFailed 5],
      ((Table.lookup (callState { ping .unreg .registered with out := out } answered).calls 0).map
        fun k => (k.ph, k.eid, k.out)) = some (.unreg, some 0, out)) ∧
    (threeEntries = [] ++ ⟨0, 1#8, 4#8, .ext 0⟩ :: [⟨1, 1#8, 2#8, .waiter 0⟩, ⟨2, 1#8, 2#8, .ext 9⟩] ∧
      ∀ y ∈ ([] ++ [⟨1, 1#8, 2#8, .waiter 0⟩, ⟨2, 1#8, 2#8, .ext 9⟩] : List Entry), y.eid ≠ 0) ∧
    ∀ y ∈ threeEntries.tail, y.eid ≠ 0 := by decide
theorem witness_ReqReturnDeliversTheResult :
    (∀ out ∈ [CallOut.completed, .timedOut, .wrFailed 5, .refused .errLen, .refused .regFull],
      ((Table.lookup (callState { ping .ret .completed with out := out } answered).calls 0).map
        fun k => (k.ph, k.out, k.wid)) = some (.ret, out, some 0)) ∧
      (callState (ping .ret .completed) answered).consumers = [] ∧
      Table.lookup (callState (ping .ret .completed) answered).waiters 0 = some answered ∧
      Memory.readBytes answered.slot 0 answered.plen = some [0#8] := by decide

/-- A consumer's call about to return. -/
def consumerState (kind : ConsumerKind) (out : CallOut) (v : Waiter) : State :=
  { callState { ping .ret .completed with out := out } v with consumers := [(0, ⟨kind, none⟩)] }

/-- The four cases: both successes, a protocol error, a result passed through. -/
theorem witness_ConsumersCheckTheResult :
    (Table.lookup (consumerState .ping .completed answered).consumers 0 = some ⟨.ping, none⟩ ∧
      after (exec (.reqReturn 0) { consumerState .ping .completed answered with consumers := [] })
        (fun t => t.history = [.callReturn 0 (.ok (0x00#8 :: []))]) = true) ∧
    (Table.lookup (consumerState .getInfo .completed answered).consumers 0 = some ⟨.getInfo, none⟩ ∧
      after (exec (.reqReturn 0)
          { consumerState .getInfo .completed (Waiter.fresh.complete (List.replicate 10 0#8)) with consumers := [] })
        (fun t => t.history = [.callReturn 0 (.ok (0x00#8 :: (List.replicate 9 0#8 ++ [])))]) = true) ∧
    (after (exec (.reqReturn 0) { consumerState .getInfo .completed answered with consumers := [] })
        (fun t => t.history = [.callReturn 0 (.ok [0#8])]) = true ∧ ([0#8] : Bytes).length < 10) ∧
    after (exec (.reqReturn 0) { consumerState .ping .timedOut answered with consumers := [] })
      (fun t => t.history = [.callReturn 0 .timeout]) = true := by decide +kernel
theorem witness_SendEmitsTheWireInOrder :
    let s : State :=
      { callState { ping .send .registered with cur := 3 } Waiter.fresh with schedule := List.replicate (6 - 3) (.call 0) ++ [] }
    Table.wf s.calls ∧ ((Table.lookup s.calls 0).map fun k => (k.ph, k.cur, k.wire.length)) = some (.send, 3, 6) ∧
      s.schedule = List.replicate (6 - 3) (.call 0) ++ [] := by decide

/-! A busy engine: a call in every phase, three kinds of entry, a frame in the buffer whose closing `END` is next. -/

def pingWire : Bytes := encWire (frameOf 1#8 1#8 [])

/-- A ping's call record with the parts that its phase sets. -/
def busyCall (ph : Phase) (st : CallState) (wid eid : Option Nat) (wire : Bytes) (cur : Nat) (out : CallOut) : Call :=
  { Call.fresh 1#8 1#8 [] 1#8 2#8 with st := st, ph := ph, wid := wid, eid := eid, wire := wire, cur := cur, out := out }

def busyCalls : Table Call :=
  [(0, busyCall .new .idle none none [] 0 .undecided), (1, busyCall .built .idle (some 0) none [] 0 .undecided),
    (2, busyCall .enc .registered (some 1) (some 0) [] 0 .undecided),
    (3, busyCall .send .registered (some 2) (some 1) pingWire 3 .undecided),
    (4, busyCall .wait .registered (some 3) (some 2) pingWire pingWire.length .undecided),
    (5, busyCall .unreg .registered (some 4) (some 3) pingWire pingWire.length .completed),
    (6, busyCall .ret .timedOut (some 5) (some 4) pingWire pingWire.length .timedOut),
    (7, { busyCall .fin .refused none none [] 0 (.refused .errLen) with
      payload := List.replicate 301 0#8, res := some (.errLen 301) })]

def busy (sched : List Turn) : State :=
  { rxState [0xC0#8, 1#8] 0 goodFrame false
      [⟨0, 1#8, 2#8, .waiter 1⟩, ⟨1, 1#8, 2#8, .waiter 2⟩, ⟨2, 1#8, 2#8, .waiter 3⟩, ⟨3, 1#8, 2#8, .waiter 4⟩,
        ⟨5, 1#8, 1#8, .ext 7⟩] with
    nextEid := 6, nextWid := 6, nextCall := 8,
    waiters := [(0, Waiter.fresh), (1, Waiter.fresh), (2, Waiter.fresh), (3, Waiter.fresh), (4, answered), (5, Waiter.fresh)],
    calls := busyCalls, schedule := sched }

/-- What a lookup answers stands in the table. -/
theorem mem_of_lookup {α : Type} {t : Table α} {k : Nat} {v : α} (h : Table.lookup t k = some v) : (k, v) ∈ t := by
  induction t with
  | nil => cases h
  | cons x t ih =>
    simp only [Table.lookup] at h
    split at h
    · simp_all [Prod.ext_iff]
    · exact List.mem_cons_of_mem _ (ih h)

theorem busy_rxInv (sched : List Turn) : (busy sched).RxInv where
  len_le := (by decide : (busy []).rxLen ≤ Config.rxCap)
  filled := (by decide : Table.dense (busy []).rxbuf (busy []).rxLen)
  latch_iff := (by decide : (busy []).dsp.isSome = true ↔ (busy []).rxs = .dsp)
  pos_le := (by decide : (busy []).rxPos ≤ (busy []).rxChunk.length)
  latch_payload := by rintro _ ⟨⟩

theorem busy_regyInv (sched : List Turn) : (busy sched).RegyInv where
  rising := (by decide : List.Pairwise (fun a b : Entry => a.eid < b.eid) (busy []).regy)
  issued := (by decide : ∀ e ∈ (busy []).regy, e.eid < (busy []).nextEid)
  within := by rintro _ ⟨⟩

theorem busy_waiterInv (sched : List Turn) : (busy sched).WaiterInv where
  rising := (by decide : Table.wf (busy []).waiters)
  allocated := (by decide : ∀ w, w < 6 → (Table.lookup (busy []).waiters w).isSome = true)
  open_one w v h hd := by
    have := mem_of_lookup h
    simp only [busy, List.mem_cons, Prod.mk.injEq, List.not_mem_nil, or_false] at this
    rcases this with ⟨-, rfl⟩ | ⟨-, rfl⟩ | ⟨-, rfl⟩ | ⟨-, rfl⟩ | ⟨-, rfl⟩ | ⟨-, rfl⟩ <;> revert hd <;> decide
  completed w v h hd := by
    have := mem_of_lookup h
    simp only [busy, List.mem_cons, Prod.mk.injEq, List.not_mem_nil, or_false] at this
    rcases this with ⟨-, rfl⟩ | ⟨-, rfl⟩ | ⟨-, rfl⟩ | ⟨-, rfl⟩ | ⟨-, rfl⟩ | ⟨-, rfl⟩ <;> revert hd <;> decide

/-- The eight calls, one by one. -/
theorem busy_call {sched : List Turn} {c : Nat} {k : Call} (h : Table.lookup (busy sched).calls c = some k)
    {P : Nat → Call → Prop} (hP : ∀ x ∈ busyCalls, P x.1 x.2) : P c k := hP (c, k) (mem_of_lookup h)

theorem busy_callInv (sched : List Turn) : (busy sched).CallInv where
  dense := (by decide : Table.dense (busy []).calls (busy []).nextCall)
  legal c k h := by
    refine busy_call (P := fun _ k => (busy sched).LegalCall k) h ?_
    have adm (w e : Nat) (k : Call) (hw : k.wid = some w) (hw' : w < 6) (he : k.eid = some e) (he' : e < 6)
        (hp : k.payload.length ≤ 300) : (busy sched).Admitted k := ⟨⟨w, hw, hw'⟩, ⟨e, he, he'⟩, hp⟩
    simp only [busyCalls, List.mem_cons, List.not_mem_nil, or_false, forall_eq_or_imp, forall_eq]
    refine ⟨⟨rfl, rfl, rfl, rfl, rfl⟩, ⟨rfl, ⟨0, rfl, (by decide : 0 < 6)⟩, rfl, by decide, rfl, rfl⟩,
      ⟨rfl, adm 1 0 _ rfl (by decide) rfl (by decide) (by decide), rfl, rfl⟩,
      ⟨rfl, adm 2 1 _ rfl (by decide) rfl (by decide) (by decide), rfl, rfl, rfl, by decide +kernel⟩,
      ⟨rfl, adm 3 2 _ rfl (by decide) rfl (by decide) (by decide), rfl, rfl, rfl⟩,
      ⟨rfl, adm 4 3 _ rfl (by decide) rfl (by decide) (by decide), .inl ⟨rfl, rfl⟩, rfl⟩,
      ⟨.inl ⟨adm 5 4 _ rfl (by decide) rfl (by decide) (by decide), .inr (.inl rfl), rfl⟩, rfl⟩,
      ⟨.inr ⟨rfl, rfl, .errLen, rfl⟩, rfl⟩⟩

theorem busy_handlerInv (sched : List Turn) : (busy sched).HandlerInv where
  entries := by
    intro e he w hw
    have key : ∀ e ∈ (busy []).regy, e.hnd ∈ [.waiter 1, .waiter 2, .waiter 3, .waiter 4, .ext 7] := by decide
    have := key e he
    rw [hw] at this
    simp at this
    exact (by omega : w < 6)
  latched := by rintro _ ⟨⟩

theorem busy_inv (sched : List Turn) : (busy sched).Inv :=
  ⟨busy_rxInv sched, busy_regyInv sched, busy_waiterInv sched, busy_callInv sched⟩

theorem busy_ownerInv (sched : List Turn) : (busy sched).OwnerInv where
  registered_iff c k h := by
    refine busy_call (P := fun _ k => k.st = .registered ↔ ∃ e ∈ (busy sched).regy, k.eid = some e.eid) h ?_
    exact (by decide +kernel : ∀ x ∈ busyCalls, x.2.st = .registered ↔ ∃ e ∈ (busy []).regy, x.2.eid = some e.eid)
  distinct c c' k k' e h h' he he' := by
    have key : ∀ x ∈ busyCalls, ∀ y ∈ busyCalls, x.2.eid.isSome = true → x.2.eid = y.2.eid → x.1 = y.1 := by decide +kernel
    exact key (c, k) (mem_of_lookup h) (c', k') (mem_of_lookup h') (by simp [he]) (by simp [he, he'])

theorem witness_EndAlwaysCompletes :
    (busy []).RxInv ∧ (busy []).rxs = .run ∧ (busy []).rxChunk[(busy []).rxPos]? = some 0xC0#8 ∧ (busy []).rxEsc = false ∧
      (busy []).rxLen < 304 := ⟨busy_rxInv [], by decide⟩
/-- The RX agent completes the frame and latches it; then its handler runs; a call sends a byte. -/
theorem witness_invariants_and_a_step :
    (busy [.rx, .rx, .call 3]).Inv ∧ (busy [.rx, .rx, .call 3]).OwnerInv ∧ (busy [.rx, .rx, .call 3]).ownEntriesOnly ∧
      ¬ (busy [.rx, .rx, .call 3]).resetNext ∧
      after (steps 3 (busy [.rx, .rx, .call 3]))
        (fun t => t.dsp = none && t.rxLen = 0 && Table.lookup t.waiters 1 = some answered && t.history = [.tx 0x16#8]) = true := by
  refine ⟨busy_inv _, busy_ownerInv _, ?_, by decide, by decide +kernel⟩
  rintro eid args ⟨⟩
/-- A registry client that removes the external entry, which is no call's. -/
theorem witness_RegisteredExactlyWhileEntered :
    (busy [.host 0x08#8 [.ident 5]]).Inv ∧ (busy [.host 0x08#8 [.ident 5]]).OwnerInv ∧
      (busy [.host 0x08#8 [.ident 5]]).ownEntriesOnly ∧
      after (step (busy [.host 0x08#8 [.ident 5]])) (fun t => t.regy.length = 4) = true := by
  refine ⟨busy_inv _, busy_ownerInv _, ?_, by decide⟩
  intro eid args h ha c k hk
  obtain ⟨-, rfl⟩ : (0x08#8 : Byte) = CommandName.unreg.op ∧ [Arg.ident 5] = args := by simpa [busy] using h
  obtain rfl : 5 = eid := by simpa using ha
  exact busy_call (P := fun _ k => k.eid ≠ some 5) hk (by decide +kernel)
theorem witness_RxInvariantIsKept :
    (busy [.rx]).RxInv ∧ after (step (busy [.rx])) (fun t => t.rxs = .dsp) = true := ⟨busy_rxInv _, by decide +kernel⟩
/-- The host command that registers a handler for the ping's pair and waiter `w`. -/
def regTurn (w : Nat) : Turn := .host 0x07#8 [.byte 1#8, .byte 2#8, .handler (.waiter w)]

theorem witness_RegistryAndWaiterInvariantsAreKept :
    (busy [.call 1]).RegyInv ∧ (busy [.call 1]).WaiterInv ∧
      after (step (busy [.call 1])) (fun t => t.regy.length = 6) = true :=
  ⟨busy_regyInv _, busy_waiterInv _, by decide +kernel⟩
/-- A call that builds its waiter; a registry client that registers a handler for the last waiter allocated. -/
theorem witness_CallAndHandlerInvariantsAreKept :
    ((busy [.call 0]).Inv ∧ (busy [.call 0]).HandlerInv ∧ (busy [.call 0]).registersAllocated ∧
      after (step (busy [.call 0])) (fun t => t.nextWid = 7) = true) ∧
    ((busy [regTurn 5]).Inv ∧ (busy [regTurn 5]).HandlerInv ∧ (busy [regTurn 5]).registersAllocated ∧
      after (step (busy [regTurn 5])) (fun t => t.nextEid = 7) = true) := by
  refine ⟨⟨busy_inv _, busy_handlerInv _, ?_, by decide +kernel⟩, ⟨busy_inv _, busy_handlerInv _, ?_, by decide +kernel⟩⟩
  · rintro d m h ⟨⟩
  · intro d m h e w hw
    simp only [busy, regTurn, List.head?_cons, Option.some.injEq, Turn.host.injEq, List.cons.injEq, Arg.handler.injEq] at e
    obtain rfl : w = 5 := by simpa [hw] using e.2.2.2.1.symm
    exact (by decide : 5 < 6)
theorem witness_CompletedWaiterNeverChanges :
    (busy [.call 5]).WaiterInv ∧ (nextOf (step (busy [.call 5]))).isSome = true ∧ ¬ (busy [.call 5]).resetNext ∧
      4 < (busy [.call 5]).nextWid ∧ Table.lookup (busy [.call 5]).waiters 4 = some answered ∧ answered.done = true :=
  ⟨busy_waiterInv _, by decide +kernel⟩
theorem witness_DecidedCallReturnsInTwoSteps :
    (busy [.call 5, .call 5]).Inv ∧ ((Table.lookup (busy [.call 5, .call 5]).calls 5).map Call.ph = some .unreg) ∧
      (busy [.call 5, .call 5]).schedule = .call 5 :: .call 5 :: [] := ⟨busy_inv _, by decide +kernel⟩
/-- One transition of each kind: `IDLE` to `REGISTERED`, and `REGISTERED` to `COMPLETED`. -/
theorem witness_CallStateTransitions :
    ((busy [.call 1]).Inv ∧ ¬ (busy [.call 1]).resetNext ∧
      after (step (busy [.call 1])) (fun t => (Table.lookup t.calls 1).map Call.st = some .registered) = true) ∧
    ((busy [.call 5]).Inv ∧ ¬ (busy [.call 5]).resetNext ∧
      after (step (busy [.call 5])) (fun t => (Table.lookup t.calls 5).map Call.st = some .completed) = true) :=
  ⟨⟨busy_inv _, by decide, by decide +kernel⟩, ⟨busy_inv _, by decide, by decide +kernel⟩⟩
theorem witness_LinkStateHasOneWriter :
    (busy [.rx]).dsp = none ∧ after (step (busy [.rx])) (fun t => t.dsp.isSome) = true := by decide +kernel
theorem witness_ReceiveAgentLeavesCallersAlone :
    let l : Latch := ⟨.waiter 3, 1#8, 2#8, [0#8]⟩
    let s : State := { busy [.rx] with rxs := .dsp, dsp := some l }
    s.schedule = .rx :: [] ∧ s.rxs = .dsp ∧ s.dsp = some l ∧ l.hnd = .waiter 3 ∧ (s.waiterAt 3).done = false ∧
      after (step s) (fun t => t.waiters ≠ s.waiters) = true := by decide +kernel
theorem witness_OutputsOnlyGrow : after (step (busy [.call 3])) (fun t => t.history = [.tx 0x16#8]) = true := by decide +kernel
/-- The stops: nothing scheduled, no enabled step, an ill-typed record. -/
theorem witness_EngineNeverFaults :
    (busy []).Inv ∧ faultOf (step (busy [])) = some .idle ∧ faultOf (step (busy [.call 7])) = some .noStep ∧
      step (busy [.host 0x08#8 []]) = .refused (.badOperands 0x08#8) :=
  ⟨busy_inv _, by decide, by decide, rfl⟩

end Sys2Proof.Tests
end

section
/-! The decoder's opcode map (R88), family 30_encoding.md. -/

namespace Sys2Proof.Proofs.Encoding

open Sys2Proof Sys2Proof.Machine Sys2Proof.Laws

/-- R88: in the escaped mode every byte but `ESC_END` and `ESC_ESC` is a bad escape. -/
theorem decode_wireKey_badEsc {b : Byte} (hEnd : b ≠ Config.escEnd) (hEsc : b ≠ Config.escEsc) :
    decode (.wire (wireKey true b)) = .ok (.rxbBadEsc b) :=
  have hwf : (Instr.rxbBadEsc b).wellFormed = true := by simp [Instr.wellFormed, hEnd, hEsc]
  RoundTrip.rxbBadEsc b _ hwf rfl

/-- R88: in the plain mode every byte but `END` and `ESC` is a literal. -/
theorem decode_wireKey_lit {b : Byte} (hEnd : b ≠ Config.endByte) (hEsc : b ≠ Config.escByte) :
    decode (.wire (wireKey false b)) = .ok (.rxbLit b) :=
  have hwf : (Instr.rxbLit b).wellFormed = true := by simp [Instr.wellFormed, hEnd, hEsc]
  RoundTrip.rxbLit b _ hwf rfl

/-- Settles O9: each row of the map is the encoding of its operation, so the round trip of that operation gives the
row; the two rows with a byte operand need the byte to be none of the special ones of the mode. -/
theorem wireKeyClassification : Obligations.WireKeyClassification := by
  unfold Obligations.WireKeyClassification
  refine ⟨?escEnd, ?escEsc, ?badEsc, ?endByte, ?escByte, ?lit⟩
  case escEnd => exact RoundTrip.rxbEscEnd _ rfl rfl
  case escEsc => exact RoundTrip.rxbEscEsc _ rfl rfl
  case badEsc => exact fun _ hEnd hEsc => decode_wireKey_badEsc hEnd hEsc
  case endByte => exact RoundTrip.rxbEnd _ rfl rfl
  case escByte => exact RoundTrip.rxbEsc _ rfl rfl
  case lit => exact fun _ hEnd hEsc => decode_wireKey_lit hEnd hEsc

end Sys2Proof.Proofs.Encoding
end

section
/-! The Frame Check Sequence unit, family 40_fcs.md.

The byte step is linear over exclusive-or and loses nothing: a turn of the shift loop can be undone, because the top bit
of its result is the bit it shifted out. So a damaged byte is never forgotten, and the two bytes that bring the register
to the residual are determined by it. -/

namespace Sys2Proof.Proofs.FrameCheck

open Sys2Proof Sys2Proof.Machine

/-! ### The shift loop -/

/-- The bits after one turn of the loop: the next higher bit, and the polynomial's where the bit shifted out was set. -/
theorem getLsbD_crcShift (c : Fcs) (i : Nat) :
    (crcShift c).getLsbD i = (c.getLsbD (i + 1) ^^ (c.getLsbD 0 && Config.fcsPoly.getLsbD i)) := by
  cases h : c.getLsbD 0 with
  | false => simp only [crcShift, h, Bool.false_eq_true, if_false, BitVec.getLsbD_ushiftRight, Nat.add_comm,
      Bool.false_and, Bool.xor_false]
  | true => simp only [crcShift, h, if_true, BitVec.getLsbD_xor, BitVec.getLsbD_ushiftRight, Nat.add_comm,
      Bool.true_and]

theorem crcShift_xor (x y : Fcs) : crcShift (x ^^^ y) = crcShift x ^^^ crcShift y := by
  refine BitVec.eq_of_getLsbD_eq fun i _ => ?_
  simp only [getLsbD_crcShift, BitVec.getLsbD_xor, Bool.and_xor_distrib_right,
    Bool.xor_assoc, Bool.xor_left_comm]

/-- The polynomial has its top bit set, so the top bit of the result is the bit that was shifted out. -/
theorem getLsbD_crcShift_top (c : Fcs) : (crcShift c).getLsbD 15 = c.getLsbD 0 := by
  rw [getLsbD_crcShift, BitVec.getLsbD_of_ge c _ (Nat.le_refl 16), Bool.false_xor]
  exact Bool.and_true _

theorem crcShift_injective : Function.Injective crcShift := by
  intro x y h
  have h0 : x.getLsbD 0 = y.getLsbD 0 := by rw [← getLsbD_crcShift_top, h, getLsbD_crcShift_top]
  refine BitVec.eq_of_getLsbD_eq fun i _ => ?_
  cases i with
  | zero => exact h0
  | succ i =>
    have hi : (crcShift x).getLsbD i = (crcShift y).getLsbD i := by rw [h]
    simpa only [getLsbD_crcShift, h0, Bool.xor_left_inj] using hi

theorem crcShifts_xor (n : Nat) (x y : Fcs) : crcShifts n (x ^^^ y) = crcShifts n x ^^^ crcShifts n y := by
  induction n generalizing x y with
  | zero => rfl
  | succ n ih => simp only [crcShifts, crcShift_xor, ih]

theorem crcShifts_add (m n : Nat) (c : Fcs) : crcShifts (m + n) c = crcShifts n (crcShifts m c) := by
  induction m generalizing c with
  | zero => rw [Nat.zero_add]; rfl
  | succ m ih => rw [Nat.succ_add]; exact ih _

theorem crcShifts_injective (n : Nat) : Function.Injective (crcShifts n) := by
  induction n with
  | zero => exact Function.injective_id
  | succ n ih => exact ih.comp crcShift_injective

/-- Eight turns bring a byte from the register's high half down to the low half, without the polynomial. -/
theorem crcShifts_eight_high (b : Byte) : crcShifts 8 (b.setWidth 16 <<< 8) = b.setWidth 16 := by
  revert b; decide +kernel

/-! ### One byte of a sequence -/

theorem crcByte_register_injective (b : Byte) : Function.Injective (crcByte · b) :=
  fun _ _ h => (BitVec.xor_left_inj _).mp (crcShifts_injective 8 h)

theorem crcByte_byte_injective (c : Fcs) : Function.Injective (crcByte c) := by
  intro a b h
  have hw : a.setWidth 16 = b.setWidth 16 := (BitVec.xor_right_inj _).mp (crcShifts_injective 8 h)
  simpa using congrArg (BitVec.setWidth 8) hw

theorem fcsUpdate_register_injective (data : Bytes) : Function.Injective (fcsUpdate · data) := by
  induction data with
  | nil => exact Function.injective_id
  | cons b bs ih => exact ih.comp (crcByte_register_injective b)

/-- Sequences that differ in one byte leave different registers. -/
theorem fcsUpdate_set_ne {f : Bytes} {i : Nat} {b b' : Byte} (hi : f[i]? = some b) (hne : b' ≠ b) (c : Fcs) :
    fcsUpdate c (f.set i b') ≠ fcsUpdate c f := by
  induction f generalizing c i with
  | nil => simp at hi
  | cons x xs ih =>
    cases i with
    | zero =>
      obtain rfl : x = b := by simpa using hi
      exact fun h => hne (crcByte_byte_injective c (fcsUpdate_register_injective xs h))
    | succ i => exact ih (by simpa using hi) (crcByte c x)

/-- Whatever replaces one byte of a sequence that verifies, the result does not. -/
theorem fcsVerify_set_eq_false {f : Bytes} {i : Nat} {b b' : Byte} (hf : fcsVerify f = true) (hi : f[i]? = some b)
    (hne : b' ≠ b) : fcsVerify (f.set i b') = false := by
  rw [Bool.eq_false_iff]
  intro hg
  exact fcsUpdate_set_ne hi hne _ (((fcsVerify_iff _).mp hg).trans ((fcsVerify_iff _).mp hf).symm)

theorem flipBit_ne (b : Byte) {k : Nat} (hk : k < 8) : b ^^^ (1#8 <<< k) ≠ b := by
  have hbit : ∀ k < 8, 1#8 <<< k ≠ 0#8 := by decide
  intro h
  exact hbit k hk ((BitVec.xor_right_inj b).mp (by rw [h, BitVec.xor_zero]))

/-! ### The last two bytes -/

/-- Two bytes in one register: they share no bit, so exclusive-or joins them. -/
theorem append_eq_shiftLeft_xor (hi lo : Byte) :
    (hi ++ lo : BitVec (8 + 8)) = hi.setWidth 16 <<< 8 ^^^ lo.setWidth 16 := by
  refine BitVec.eq_of_getLsbD_eq fun i h => ?_
  rw [BitVec.getLsbD_append]
  rcases Nat.lt_or_ge i 8 with low | high
  · simp [low, h]
  · simp [high.not_gt, h, BitVec.getLsbD_of_ge lo i high]

/-- Two byte steps are sixteen turns on the register with both bytes, the first one low. -/
theorem crcByte_crcByte (c : Fcs) (lo hi : Byte) :
    crcByte (crcByte c lo) hi = crcShifts 16 (c ^^^ (hi ++ lo : BitVec (8 + 8))) := by
  calc crcByte (crcByte c lo) hi
      = crcShifts 8 (crcShifts 8 (c ^^^ lo.setWidth 16) ^^^ crcShifts 8 (hi.setWidth 16 <<< 8)) := by
        rw [crcShifts_eight_high]; rfl
    _ = crcShifts 16 (c ^^^ lo.setWidth 16 ^^^ hi.setWidth 16 <<< 8) := by
        rw [← crcShifts_xor, ← crcShifts_add]
    _ = crcShifts 16 (c ^^^ (hi ++ lo : BitVec (8 + 8))) := by
        rw [append_eq_shiftLeft_xor]; congr 1; ac_rfl

/-- Sixteen turns on the full register give the complement of the residual. -/
theorem crcShifts_allOnes : crcShifts 16 (BitVec.allOnes 16) = ~~~Config.fcsGood := by decide +kernel

/-- A sequence with two more bytes verifies exactly when these are its checksum, the low byte first. -/
theorem fcsVerify_append_iff_append_eq (d : Bytes) (lo hi : Byte) :
    fcsVerify (d ++ [lo, hi]) = true ↔ (hi ++ lo : BitVec (8 + 8)) = fcsCompute d := by
  let c := fcsUpdate Config.fcsInit d
  calc fcsVerify (d ++ [lo, hi]) = true
      ↔ crcShifts 16 (c ^^^ (hi ++ lo : BitVec (8 + 8))) = crcShifts 16 (BitVec.allOnes 16) := by
        rw [fcsVerify_iff, fcsUpdate_append, crcShifts_allOnes, ← crcByte_crcByte]; rfl
    _ ↔ c ^^^ (hi ++ lo : BitVec (8 + 8)) = c ^^^ ~~~c := by
        rw [(crcShifts_injective 16).eq_iff, ← BitVec.not_xor_right, BitVec.xor_self, BitVec.not_zero]
    _ ↔ (hi ++ lo : BitVec (8 + 8)) = fcsCompute d := BitVec.xor_right_inj c

/-- A register value as its two bytes. -/
theorem append_eq_iff_extractLsb' (v : Fcs) (lo hi : Byte) :
    (hi ++ lo : BitVec (8 + 8)) = v ↔ lo = v.extractLsb' 0 8 ∧ hi = v.extractLsb' 8 8 := by
  constructor
  · rintro rfl
    exact ⟨BitVec.extractLsb'_append_eq_right.symm, BitVec.extractLsb'_append_eq_left.symm⟩
  · rintro ⟨rfl, rfl⟩
    exact BitVec.extractLsb'_append_extractLsb'

theorem fcsVerify_append_iff (d : Bytes) (lo hi : Byte) :
    fcsVerify (d ++ [lo, hi]) = true ↔ lo = (fcsCompute d).extractLsb' 0 8 ∧ hi = (fcsCompute d).extractLsb' 8 8 :=
  (fcsVerify_append_iff_append_eq d lo hi).trans (append_eq_iff_extractLsb' _ lo hi)

/-- Settles O3: the two bytes of the checksum are the two that verify. -/
theorem residualLaw : Obligations.ResidualLaw := by
  unfold Obligations.ResidualLaw
  exact fun d => (fcsVerify_append_iff d _ _).mpr ⟨rfl, rfl⟩

/-- Settles O4: a flipped bit is a different byte, which the register keeps apart; and sixteen turns of the shift loop
reach the residual from the full register alone. -/
theorem singleBitFlipIsDetected : Obligations.SingleBitFlipIsDetected := by
  unfold Obligations.SingleBitFlipIsDetected
  exact ⟨fun _ _ _ b hf hi hk => fcsVerify_set_eq_false hf hi (flipBit_ne b hk), fcsVerify_append_iff⟩

end Sys2Proof.Proofs.FrameCheck
end

section
/-! The byte-destuffer decoder, family 42_destuffer_assembler.md: when a wire-byte operation has a step, and which. -/

namespace Sys2Proof.Proofs.Destuffer

open Sys2Proof Sys2Proof.Machine

variable {s t : State} {esc : Bool} {b : Byte}

/-- R166: an operation that appends needs room for a byte, whatever the full-buffer policy. -/
theorem takes_appending_iff :
    s.takes esc b true ↔ s.rxs = .run ∧ s.rxLen < 304 ∧ s.rxChunk[s.rxPos]? = some b ∧ s.rxEsc = esc := by
  simp only [State.takes, State.roomFor, State.nextByte, reduceCtorEq, and_false, or_false]
  exact and_congr_right fun _ => and_left_comm

/-- R166, R169: an operation that appends nothing also runs on a full buffer, under the alternative policy. -/
theorem takes_keeping_iff :
    s.takes esc b false ↔
      s.rxs = .run ∧ (s.rxLen < 304 ∨ s.params.fullPolicy = .stallAppend) ∧ s.rxChunk[s.rxPos]? = some b ∧
        s.rxEsc = esc := by
  simp only [State.takes, State.roomFor, State.nextByte, and_true]
  exact and_congr_right fun _ => and_left_comm

/-- R171: the buffer is empty after a completed frame, whatever became of the frame. -/
theorem frameDone_rxLen (h : frameDone s = .next t) : t.rxLen = 0 := by rw [frameDone_writes h]

/-- Frame completion leaves the chunk cursor: consuming the closing byte is the rest of the step. -/
theorem frameDone_rxPos (h : frameDone s = .next t) : t.rxPos = s.rxPos := by rw [frameDone_writes h]

/-- Settles O16: each of the three has a step exactly when it takes its byte with room left to append. -/
theorem appendingByteOperations : Obligations.AppendingByteOperations := by
  unfold Obligations.AppendingByteOperations
  refine fun s => ⟨fun hrun hroom => ⟨?litStep, ?escEndStep, ?escEscStep⟩,
    fun t => ⟨?litGuard, ?escEndGuard, ?escEscGuard⟩⟩
  case litStep =>
    intro b hb hesc hEnd hEsc
    exact execRxbLit_next.mpr ⟨⟨takes_appending_iff.mpr ⟨hrun, hroom, hb, hesc⟩, hEnd, hEsc⟩, rfl⟩
  case escEndStep =>
    exact fun hb hesc => execRxbEscEnd_next.mpr ⟨takes_appending_iff.mpr ⟨hrun, hroom, hb, hesc⟩, rfl⟩
  case escEscStep =>
    exact fun hb hesc => execRxbEscEsc_next.mpr ⟨takes_appending_iff.mpr ⟨hrun, hroom, hb, hesc⟩, rfl⟩
  case litGuard =>
    intro b h
    obtain ⟨⟨htakes, hEnd, hEsc⟩, -⟩ := execRxbLit_next.mp h
    obtain ⟨hrun, hroom, hb, hesc⟩ := takes_appending_iff.mp htakes
    exact ⟨hrun, hroom, hb, hesc, hEnd, hEsc⟩
  case escEndGuard => exact fun h => takes_appending_iff.mp (execRxbEscEnd_next.mp h).1
  case escEscGuard => exact fun h => takes_appending_iff.mp (execRxbEscEsc_next.mp h).1

/-- Settles O18: both take their byte without appending, so their guard is the one that R169 widens. -/
theorem escapeAndBadEscape : Obligations.EscapeAndBadEscape := by
  unfold Obligations.EscapeAndBadEscape
  refine fun s => ⟨fun hrun hroom => ⟨?escStep, ?badEscStep⟩, fun t => ⟨?escGuard, ?badEscGuard⟩⟩
  case escStep =>
    exact fun hb hesc => execRxbEsc_next.mpr ⟨takes_keeping_iff.mpr ⟨hrun, hroom, hb, hesc⟩, rfl⟩
  case badEscStep =>
    intro b hb hesc hEnd hEsc
    exact execRxbBadEsc_next.mpr ⟨⟨takes_keeping_iff.mpr ⟨hrun, hroom, hb, hesc⟩, hEnd, hEsc⟩, rfl⟩
  case escGuard => exact fun h => takes_keeping_iff.mp (execRxbEsc_next.mp h).1
  case badEscGuard =>
    intro b h
    obtain ⟨⟨htakes, hEnd, hEsc⟩, -⟩ := execRxbBadEsc_next.mp h
    obtain ⟨hrun, hroom, hb, hesc⟩ := takes_keeping_iff.mp htakes
    exact ⟨hrun, hroom, hb, hesc, hEnd, hEsc⟩

/-- Settles O20: `END` takes its byte without appending and then splits on whether the buffer is empty; in the second
case `FRAME.DONE` ends inside the same step, with the buffer empty and the cursor where it was. -/
theorem endRunsFrameDone : Obligations.EndRunsFrameDone := by
  unfold Obligations.EndRunsFrameDone
  refine fun s t => ⟨fun hrun hroom hb hesc => ?step, ?guard⟩
  case step =>
    have htakes : s.takes false Config.endByte false := takes_keeping_iff.mpr ⟨hrun, hroom, hb, hesc⟩
    constructor
    · exact fun hempty => execRxbEnd_next.mpr ⟨htakes, .inl ⟨hempty, rfl⟩⟩
    · intro hpos hdone
      have hframe : frameDone s = .next t := (execFrameDone_next.mp hdone).2
      rw [← frameDone_rxPos hframe]
      exact execRxbEnd_next.mpr ⟨htakes, .inr ⟨hpos, t, hframe, rfl⟩⟩
  case guard =>
    intro h
    obtain ⟨htakes, hcase⟩ := execRxbEnd_next.mp h
    obtain ⟨hrun, hroom, hb, hesc⟩ := takes_keeping_iff.mp htakes
    have hlen : t.rxLen = 0 := by
      rcases hcase with ⟨hempty, rfl⟩ | ⟨-, u, hframe, rfl⟩
      · exact hempty
      · exact (State.advance_rxLen u).trans (frameDone_rxLen hframe)
    exact ⟨hrun, hroom, hb, hesc, hlen⟩

end Sys2Proof.Proofs.Destuffer
end

section
/-! The frame dispatcher, family 43_dispatcher.md: removal from the registry, the test-and-set of a waiter, and the
handler of a latched frame. -/

namespace Sys2Proof.Proofs.Dispatcher

open Sys2Proof Sys2Proof.Machine

variable {s : State} {eid : Nat}

/-! ### Removal from the registry -/

/-- R202: with no entry of this id, removal changes nothing. -/
theorem unregister_eq_self (h : ∀ x ∈ s.regy, x.eid ≠ eid) : s.unregister eid = s := by
  have hkeep : s.regy.filter (fun e => e.eid != eid) = s.regy :=
    List.filter_eq_self.mpr fun x hx => bne_iff_ne.mpr (h x hx)
  rw [State.unregister, hkeep]

/-- R202: removal takes the one entry of this id out of the list and leaves both sides of it in their order. -/
theorem unregister_of_split {pre post : List Entry} {e : Entry} (hregy : s.regy = pre ++ e :: post) (he : e.eid = eid)
    (hothers : ∀ x ∈ pre ++ post, x.eid ≠ eid) : s.unregister eid = { s with regy := pre ++ post } := by
  have hdrop : (pre ++ e :: post).filter (fun x => x.eid != eid) = (pre ++ post).filter (fun x => x.eid != eid) := by
    simp [he]
  have hkeep : (pre ++ post).filter (fun x => x.eid != eid) = pre ++ post :=
    List.filter_eq_self.mpr fun x hx => bne_iff_ne.mpr (hothers x hx)
  rw [State.unregister, hregy, hdrop, hkeep]

/-- Settles O33: the two cases of removal. -/
theorem unregRemovesTheEntry : Obligations.UnregRemovesTheEntry := by
  unfold Obligations.UnregRemovesTheEntry
  refine fun s eid => ⟨fun pre e post hregy he hothers => ?present, fun habsent => ?absent⟩
  case present => exact congrArg Host.Outcome.next (unregister_of_split hregy he hothers)
  case absent => exact congrArg Host.Outcome.next (unregister_eq_self habsent)

/-! ### The test-and-set of a waiter -/

/-- A range write leaves what is read at or beyond its end. -/
theorem read_writeBytes_above (m : Memory) {a k : Nat} (bs : Bytes) (h : a + bs.length ≤ k) :
    Memory.read (Memory.writeBytes m a bs) k = Memory.read m k := by
  induction bs generalizing m a with
  | nil => rfl
  | cons b bs ih =>
    rw [List.length_cons] at h
    rw [Memory.writeBytes, ih _ (by omega), Memory.read_write_other _ _ (by omega)]

variable {w : Nat} {p : Bytes} {v : Waiter}

/-- R207: a completed waiter is left alone. -/
theorem completeWaiter_of_done (hv : Table.lookup s.waiters w = some v) (hdone : v.done = true) :
    completeWaiter w p s = .next s :=
  completeWaiter_next.mpr <| .inl ⟨by rwa [State.waiterAt_some hv], (State.noteDraw_some hv).symm⟩

/-- R207: an open waiter takes a payload that fits its slot. -/
theorem completeWaiter_of_open (hv : Table.lookup s.waiters w = some v) (hopen : v.done = false)
    (hp : p.length ≤ Config.maxPayload) : completeWaiter w p s = .next (s.setWaiter w (v.complete p)) :=
  completeWaiter_next.mpr <| .inr
    ⟨by rwa [State.waiterAt_some hv], hp, by rw [State.noteDraw_some hv, State.waiterAt_some hv]⟩

/-- Settles O35: the new record is `Waiter.complete`, whose slot is the old one with the payload written from index 0. -/
theorem waiterTakesOnePayload : Obligations.WaiterTakesOnePayload := by
  unfold Obligations.WaiterTakesOnePayload
  refine fun s w p v hv => ⟨fun hdone => ?completed, fun hopen hp =>
    ⟨v.complete p, ?step, rfl, rfl, ?payload, ?rest, ?others⟩⟩
  case completed => exact completeWaiter_of_done hv hdone
  case step => exact completeWaiter_of_open hv hopen hp
  case payload => exact Memory.readBytes_writeBytes v.slot 0 p
  case rest => exact fun a ha => read_writeBytes_above v.slot p (by omega)
  case others => exact fun w' hne => Table.lookup_set_other s.waiters (v.complete p) hne

/-! ### The handler of a latched frame -/

/-- Settles O37: `DSP.INVOKE` is the handler followed by the release of the latch, under the guard of R205. -/
theorem invokeRunsTheLatchedHandler : Obligations.InvokeRunsTheLatchedHandler := by
  unfold Obligations.InvokeRunsTheLatchedHandler
  refine fun s t => ⟨fun l hrxs hl => ⟨fun tag htag => ?ext, fun w hw hrun => ?waiter⟩, fun h => ?guard,
    fun tag dst msg p => ?extAlone⟩
  case ext => exact execDspInvoke_next.mpr ⟨hrxs, l, _, hl, runHandler_next.mpr (.inr ⟨tag, htag, rfl⟩), rfl⟩
  case waiter => exact execDspInvoke_next.mpr ⟨hrxs, l, t, hl, runHandler_next.mpr (.inl ⟨w, hw, hrun⟩), rfl⟩
  case guard => exact (execDspInvoke_next.mp h).1
  case extAlone => rfl

end Sys2Proof.Proofs.Dispatcher
end

section
/-! The request/response arbiter, family 44_arbiter.md: a step of a call exists in its phase only, and there it does
what its rule says. -/

namespace Sys2Proof.Proofs.Arbiter

open Sys2Proof Sys2Proof.Machine Sys2Proof.Proofs.Dispatcher

variable {s t : State} {c : Nat} {k : Call}

/-! ### Phases and guards -/

/-- R230: a step of a call answers a next state only in its phase. -/
theorem callIn_of_inPhase_next {ph : Phase} {f : Call → Result} (h : inPhase s c ph f = .next t) : s.callIn c ph := by
  obtain ⟨k, hk, hph, -⟩ := inPhase_next.mp h
  exact ⟨k, hk, hph⟩

/-- R13: where the step's own guard is false there is no step, in its phase either. -/
theorem inPhase_whenGuard_neg {ph : Phase} {g : Call → Prop} [DecidablePred g] {f : Call → Result}
    (hk : Table.lookup s.calls c = some k) (hph : k.ph = ph) (hg : ¬ g k) :
    inPhase s c ph (fun k => whenGuard (g k) (f k)) = .fault .noStep :=
  (inPhase_pos _ hk hph).trans (whenGuard_neg _ hg)

/-- R235: there is no byte at or beyond the end of the wire form. -/
theorem execTxByte_noStep (hk : Table.lookup s.calls c = some k) (hph : k.ph = .send) (hend : k.wire.length ≤ k.cur) :
    execTxByte c s = .fault .noStep := by
  have hnone : k.wire[k.cur]? = none := List.getElem?_eq_none hend
  rw [execTxByte, inPhase_pos _ hk hph, hnone]

/-- R29: the completion bit of a call is that of its waiter's record. -/
theorem doneBit_eq {w : Nat} {v : Waiter} (hw : k.wid = some w) (hv : Table.lookup s.waiters w = some v) :
    s.doneBit k = some v.done := by
  simp [State.doneBit, hw, hv]

/-! ### The entry of a call -/

/-- R241: the step in terms of what removal makes of the state. -/
theorem execReqUnreg_of_unregister {u : State} {e : Nat} {st : CallState} (hk : Table.lookup s.calls c = some k)
    (hph : k.ph = .unreg) (he : k.eid = some e) (hst : k.out.terminal = some st) (hu : s.unregister e = u) :
    execReqUnreg c s = .next (u.setCall c { k with st := st, ph := .ret }) :=
  execReqUnreg_next.mpr ⟨k, e, st, hk, hph, he, hst, by rw [hu]⟩

/-- R241: the three outcomes that have a terminal state, and which. -/
theorem terminal_eq_some_iff {out : CallOut} {st : CallState} :
    out.terminal = some st ↔ (out = .completed ∧ st = .completed) ∨ (out = .timedOut ∧ st = .timedOut) ∨
      ∃ code, out = .wrFailed code ∧ st = .wrFailed := by
  cases out <;> simp [CallOut.terminal, eq_comm]

/-! ### The statements -/

/-- Settles O39: `REQ` has no guard, and its new record is `Call.fresh`. -/
theorem reqCreatesTheCall : Obligations.ReqCreatesTheCall := by
  unfold Obligations.ReqCreatesTheCall
  intro s dst msg payload edst emsg
  rfl

/-- Settles O41: the two cases are whether the registry is full. -/
theorem registerEntersTheCall : Obligations.RegisterEntersTheCall := by
  unfold Obligations.RegisterEntersTheCall
  refine fun s c => ⟨fun k w hk hph hw => ⟨fun hroom => ?entered, fun cap hcap hlen => ?refused⟩,
    fun t h => callIn_of_inPhase_next h⟩
  case entered =>
    have hfull : s.registryFull = false := s.registryFull_eq_false_iff.mpr hroom
    exact execReqRegister_next.mpr ⟨k, w, hk, hph, hw, .inr ⟨hfull, rfl⟩⟩
  case refused =>
    have hfull : s.registryFull = true := s.registryFull_iff.mpr ⟨cap, hcap, hlen⟩
    exact execReqRegister_next.mpr ⟨k, w, hk, hph, hw, .inl ⟨hfull, rfl⟩⟩

/-- Settles O42: the cursor decides between the two steps of sending, one below the end of the wire form and one at
it. -/
theorem encodeAndTransmit : Obligations.EncodeAndTransmit := by
  unfold Obligations.EncodeAndTransmit
  refine fun s c => ⟨fun k hk => ⟨fun hph => ?encode, fun b hph hb => ?byte, fun hph hend => ?byteNoStep,
    fun hph hend => ?done, fun hph hne => ?doneNoStep⟩,
    fun t => ⟨fun h => callIn_of_inPhase_next h, fun h => callIn_of_inPhase_next h, fun h => callIn_of_inPhase_next h⟩⟩
  case encode => exact execReqEncode_next.mpr ⟨k, hk, hph, rfl⟩
  case byte => exact execTxByte_next.mpr ⟨k, b, hk, hph, hb, rfl⟩
  case byteNoStep => exact execTxByte_noStep hk hph hend
  case done => exact execTxDone_next.mpr ⟨k, hk, hph, hend, rfl⟩
  case doneNoStep => exact inPhase_whenGuard_neg hk hph hne

/-- Settles O43: waking and expiry both turn on the completion bit of the call's waiter, which the run's parameter can
make expiry disregard. -/
theorem waysOutOfSendAndWait : Obligations.WaysOutOfSendAndWait := by
  unfold Obligations.WaysOutOfSendAndWait
  refine fun s c => ⟨fun k hk => ⟨fun code hph => ?wrFail, fun w v hph hw hv => ?waiting⟩,
    fun t => ⟨fun code h => callIn_of_inPhase_next h, fun h => callIn_of_inPhase_next h,
      fun h => callIn_of_inPhase_next h⟩⟩
  case wrFail => exact execEvWrfail_next.mpr ⟨k, hk, hph, rfl⟩
  case waiting =>
    have hbit : s.doneBit k = some v.done := doneBit_eq hw hv
    have hwake : s.callDone k ↔ v.done = true := by rw [State.callDone, hbit, Option.some_inj]
    have hexpire : s.mayExpire k ↔ s.params.expireGuard = .always ∨ v.done = false := by
      rw [State.mayExpire, hbit, Option.some_inj]
    refine ⟨fun hdone => ?wake, fun hopen => ?wakeNoStep, fun hmay => ?expire, fun hdone hparam => ?expireNoStep⟩
    case wake => exact execReqWake_next.mpr ⟨k, hk, hph, hwake.mpr hdone, rfl⟩
    case wakeNoStep => exact inPhase_whenGuard_neg hk hph (by simp [hwake, hopen])
    case expire => exact execEvExpire_next.mpr ⟨k, hk, hph, hexpire.mpr hmay.symm, rfl⟩
    case expireNoStep => exact inPhase_whenGuard_neg hk hph (by simp [hexpire, hdone, hparam])

/-- Settles O44: what is left of the registry follows the two cases of removal, and the terminal state is the
outcome's. -/
theorem reqUnregRemovesTheEntry : Obligations.ReqUnregRemovesTheEntry := by
  unfold Obligations.ReqUnregRemovesTheEntry
  refine fun s c => ⟨fun e k st hk hph he hout => ?step, fun t h => callIn_of_inPhase_next h⟩
  case step =>
    have hst : k.out.terminal = some st := terminal_eq_some_iff.mpr hout
    refine ⟨fun pre x post hregy hx hothers => ?present, fun habsent => ?absent⟩
    case present => exact execReqUnreg_of_unregister hk hph he hst (unregister_of_split hregy hx hothers)
    case absent => exact execReqUnreg_of_unregister hk hph he hst (unregister_eq_self habsent)

end Sys2Proof.Proofs.Arbiter
end

section
/-! The encoding as a whole, family 30_encoding.md: the decoder and the encoder undo each other. -/

namespace Sys2Proof.Proofs.EncodingInverse

open Sys2Proof Sys2Proof.Machine Sys2Proof.Laws

/-- Settles O11: the round trip of each operation, one law an operation. -/
theorem encodeThenDecodeIsIdentity : Obligations.EncodeThenDecodeIsIdentity := by
  unfold Obligations.EncodeThenDecodeIsIdentity
  intro i
  change RoundTrip.Statement i
  cases i with
  | rxbEscEnd => exact RoundTrip.rxbEscEnd
  | rxbEscEsc => exact RoundTrip.rxbEscEsc
  | rxbBadEsc b => exact RoundTrip.rxbBadEsc b
  | rxbEnd => exact RoundTrip.rxbEnd
  | rxbEsc => exact RoundTrip.rxbEsc
  | rxbLit b => exact RoundTrip.rxbLit b
  | stuffEnd => exact RoundTrip.stuffEnd
  | stuffEsc => exact RoundTrip.stuffEsc
  | stuffLit b => exact RoundTrip.stuffLit b
  | fcsCompute data => exact RoundTrip.fcsCompute data
  | fcsVerify frame => exact RoundTrip.fcsVerify frame
  | encFrame dst msg payload => exact RoundTrip.encFrame dst msg payload
  | encWire raw => exact RoundTrip.encWire raw
  | rxChunk data => exact RoundTrip.rxChunk data
  | rxReset => exact RoundTrip.rxReset
  | reg dst msg hnd => exact RoundTrip.reg dst msg hnd
  | unreg eid => exact RoundTrip.unreg eid
  | req dst msg payload edst emsg => exact RoundTrip.req dst msg payload edst emsg
  | reset => exact RoundTrip.reset
  | fcsUpdate crc data => exact RoundTrip.fcsUpdate crc data
  | rxReturn => exact RoundTrip.rxReturn
  | frameDone => exact RoundTrip.frameDone
  | dspScan dst msg => exact RoundTrip.dspScan dst msg
  | dspInvoke => exact RoundTrip.dspInvoke
  | hndWaiter w p => exact RoundTrip.hndWaiter w p
  | hndExt tag dst msg p => exact RoundTrip.hndExt tag dst msg p
  | reqBuild c => exact RoundTrip.reqBuild c
  | reqRegister c => exact RoundTrip.reqRegister c
  | reqEncode c => exact RoundTrip.reqEncode c
  | txByte c => exact RoundTrip.txByte c
  | txDone c => exact RoundTrip.txDone c
  | evWrfail c code => exact RoundTrip.evWrfail c code
  | reqWake c => exact RoundTrip.reqWake c
  | evExpire c => exact RoundTrip.evExpire c
  | reqUnreg c => exact RoundTrip.reqUnreg c
  | reqReturn c => exact RoundTrip.reqReturn c
  | ping => exact RoundTrip.ping
  | getInfo => exact RoundTrip.getInfo

/-- R88: a wire key is its mode bit and its byte, nothing else. -/
theorem wireKey_esc_byte (key : WireKey) : wireKey (WireKey.esc key) (WireKey.byte key) = key := by
  refine BitVec.eq_of_getLsbD_eq fun i hi => ?_
  simp only [wireKey, WireKey.esc, WireKey.byte, BitVec.getLsbD_append, BitVec.getLsbD_extractLsb',
    BitVec.getLsbD_ofBool]
  rcases Nat.lt_or_ge i 8 with low | high
  · simp [low]
  · obtain rfl : i = 8 := by omega
    simp

/-- R88: what the decoder reads from a mode bit and a byte encodes to these. -/
theorem decodeWire_wireKey (esc : Bool) (b : Byte) :
    (decodeWire (wireKey esc b)).wellFormed = true ∧
      encode (decodeWire (wireKey esc b)) = some (.wire (wireKey esc b)) := by
  cases esc <;> simp only [decodeWire, wireKey_esc, wireKey_byte, Bool.false_eq_true, if_true, if_false]
  case false =>
    split_ifs with hEnd hEsc
    · subst hEnd; exact ⟨rfl, rfl⟩
    · subst hEsc; exact ⟨rfl, rfl⟩
    · exact ⟨by simp [Instr.wellFormed, hEnd, hEsc], rfl⟩
  case true =>
    split_ifs with hEnd hEsc
    · subst hEnd; exact ⟨rfl, rfl⟩
    · subst hEsc; exact ⟨rfl, rfl⟩
    · exact ⟨by simp [Instr.wellFormed, hEnd, hEsc], rfl⟩

/-- R84, R89: what the encoder's map gives for a raw byte encodes to that byte. -/
theorem decodeRaw_wellFormed_encode (b : Byte) :
    (decodeRaw b).wellFormed = true ∧ encode (decodeRaw b) = some (.raw b) := by
  unfold decodeRaw
  split_ifs with hEnd hEsc
  · subst hEnd; exact ⟨rfl, rfl⟩
  · subst hEsc; exact ⟨rfl, rfl⟩
  · exact ⟨by simp [Instr.wellFormed, hEnd, hEsc], rfl⟩

/-- R98: a command has one number. -/
theorem eq_op_of_commandOf {op : Byte} {n : CommandName} (h : commandOf op = some n) : op = n.op := by
  unfold commandOf at h
  split_ifs at h <;> (cases h; assumption)

/-- R98: a command's operation is encoded with the operands it was read from. -/
theorem decodeOperands_wellFormed_encode {n : CommandName} {args : List Arg} {i : Instr}
    (h : decodeOperands n args = some i) : i.wellFormed = true ∧ encode i = some (.command n.op args) := by
  unfold decodeOperands at h
  split at h <;> cases h <;> exact ⟨rfl, rfl⟩

/-- R98: a record the decoder accepts is a command with its own operands. -/
theorem decodeCommand_ok {op : Byte} {args : List Arg} {i : Instr} (h : decodeCommand op args = .ok i) :
    ∃ n : CommandName, op = n.op ∧ decodeOperands n args = some i := by
  unfold decodeCommand at h
  split at h
  · cases h
  · next n hn =>
    split at h
    · cases h
    · next hi => cases h; exact ⟨n, eq_op_of_commandOf hn, hi⟩

/-- Settles O12: one case for each of the three key spaces. -/
theorem decodeThenEncodeIsIdentity : Obligations.DecodeThenEncodeIsIdentity := by
  unfold Obligations.DecodeThenEncodeIsIdentity
  intro i code h
  cases code with
  | wire key =>
    cases h
    rw [← wireKey_esc_byte key]
    exact decodeWire_wireKey _ _
  | raw b =>
    cases h
    exact decodeRaw_wellFormed_encode b
  | command op args =>
    obtain ⟨n, rfl, hi⟩ := decodeCommand_ok h
    exact decodeOperands_wellFormed_encode hi

/-- Settles O10: each word is one row of a table, read by computation. -/
theorem writtenWordsDecode : Obligations.WrittenWordsDecode := by
  unfold Obligations.WrittenWordsDecode
  decide

end Sys2Proof.Proofs.EncodingInverse
end


section
/-! The pure operations as they answer, families 40_fcs.md and 41_stuffer.md, and the shape of the wire form (R146). -/

namespace Sys2Proof.Proofs.PureOperations

open Sys2Proof Sys2Proof.Machine Sys2Proof.Proofs.FrameCheck

variable {s : State} {b : Byte} {raw tail : Bytes}

/-! ### Checksums -/

theorem and_one_eq_one_iff (x : Fcs) : x &&& 1#16 = 1#16 ↔ x.getLsbD 0 = true := by
  have hbit : x &&& 1#16 = (BitVec.ofBool (x.getLsbD 0)).setWidth 16 := BitVec.and_one_eq_setWidth_ofBool_getLsbD
  rw [hbit]
  cases x.getLsbD 0 <;> decide

/-- R120: the shift loop is the iteration of its turn. -/
theorem crcShifts_eq_iterate (n : Nat) (c : Fcs) : crcShifts n c = crcShift^[n] c := by
  induction n generalizing c with
  | zero => rfl
  | succ n ih => rw [crcShifts, ih, Function.iterate_succ_apply]

theorem crcShift_eq :
    crcShift = fun x : Fcs => if x &&& 1#16 = 1#16 then (x >>> 1) ^^^ 0x8408#16 else x >>> 1 := by
  funext x
  simp only [crcShift, and_one_eq_one_iff]

/-- Settles O1: the loop is an iteration, the value over a sequence its left fold. -/
theorem fcsOperationsReturnTheirValue : Obligations.FcsOperationsReturnTheirValue := by
  unfold Obligations.FcsOperationsReturnTheirValue
  refine ⟨fun c b => ?byteStep, fun s crc data => ⟨?update, ?compute, ?verify⟩, fun c u v => ⟨?chunks, rfl⟩⟩
  case byteStep => rw [crcByte, crcShifts_eq_iterate, crcShift_eq]
  case update => rw [← fcsUpdate_eq_foldl]; rfl
  case compute => rw [← fcsUpdate_eq_foldl]; rfl
  case verify => rw [← fcsUpdate_eq_foldl, ← beq_eq_decide]; rfl
  case chunks => exact (fcsUpdate_append c u v).symm

/-- The high byte of a register is what eight shifts leave of it, whatever byte is added below. -/
theorem highByte_xor (c : Fcs) (b : Byte) :
    ((c ^^^ b.setWidth 16).extractLsb' 8 8).setWidth 16 = c >>> 8 := by
  refine BitVec.eq_of_getLsbD_eq fun i hi => ?_
  simp only [BitVec.getLsbD_setWidth, BitVec.getLsbD_extractLsb', BitVec.getLsbD_xor, BitVec.getLsbD_ushiftRight]
  rcases Nat.lt_or_ge i 8 with hlow | hhigh
  · simp [hi, hlow]
  · simp [hhigh.not_gt, BitVec.getLsbD_of_ge c (8 + i) (by omega)]

/-- Settles O2: the loop is linear, and on the high byte it is a shift. -/
theorem crcByteTableForm : Obligations.CrcByteTableForm := by
  unfold Obligations.CrcByteTableForm
  refine ⟨fun c b => ?_, by decide⟩
  let x := c ^^^ b.setWidth 16
  calc crcByte c b
      = crcShifts 8 ((x.extractLsb' 8 8).setWidth 16 <<< 8 ^^^ (x.extractLsb' 0 8).setWidth 16) := by
        rw [← append_eq_shiftLeft_xor, (append_eq_iff_extractLsb' x _ _).mpr ⟨rfl, rfl⟩]; rfl
    _ = (c >>> 8) ^^^ crcShifts 8 ((x.extractLsb' 0 8).setWidth 16) := by
        rw [crcShifts_xor, crcShifts_eight_high, highByte_xor]

/-! ### Stuffing -/

theorem decodeRaw_of_plain (hEnd : b ≠ Config.endByte) (hEsc : b ≠ Config.escByte) : decodeRaw b = .stuffLit b := by
  rw [decodeRaw, if_neg hEnd, if_neg hEsc]

theorem execStuffLit_noStep (h : ¬ (b ≠ Config.endByte ∧ b ≠ Config.escByte)) : execStuffLit b s = .fault .noStep :=
  whenGuard_neg _ h

/-- Settles O5: the guard of `STUFF.LIT` is that the byte is none of the two specials. -/
theorem stuffOperations : Obligations.StuffOperations := by
  unfold Obligations.StuffOperations
  refine fun s => ⟨rfl, rfl, fun b hEnd hEsc => ?lit, ?litEnd, ?litEsc, rfl, rfl, fun b hEnd hEsc => ?select⟩
  case lit => exact execStuffLit_next.mpr ⟨⟨hEnd, hEsc⟩, rfl⟩
  case litEnd => exact execStuffLit_noStep (by decide)
  case litEsc => exact execStuffLit_noStep (by decide)
  case select => exact congrArg Selection.op (decodeRaw_of_plain hEnd hEsc)

/-- Settles O6: the stuffed sequence is the concatenation of the images. -/
theorem encWireReturnsStuffedFrame : Obligations.EncWireReturnsStuffedFrame := by
  unfold Obligations.EncWireReturnsStuffedFrame
  intro s raw
  have hwire : encWire raw = [0xC0#8] ++ raw.flatMap stuff ++ [0xC0#8] := by
    rw [encWire, stuffSeq_eq_flatMap]; rfl
  exact congrArg (fun w => Host.Outcome.next (s.deliver (.bytes w))) hwire

/-- Settles O8: the length test decides. -/
theorem encFrameReturnsFrameOrErrLen : Obligations.EncFrameReturnsFrameOrErrLen := by
  unfold Obligations.EncFrameReturnsFrameOrErrLen
  refine fun s dst msg payload => ⟨fun hfits => ?frame, fun hlong => ?refused⟩
  case frame => exact execEncFrame_next.mpr (.inr ⟨hfits, rfl⟩)
  case refused => exact execEncFrame_next.mpr (.inl ⟨hlong, rfl⟩)

/-! ### The shape of the wire form -/

/-- The two specials, each of which is stuffed to two bytes. -/
def isSpecial (b : Byte) : Bool := b == 0xC0#8 || b == 0xDB#8

/-- R84: the three images of a raw byte. -/
theorem stuff_cases (b : Byte) :
    (b = 0xC0#8 ∧ stuff b = [0xDB#8, 0xDC#8]) ∨ (b = 0xDB#8 ∧ stuff b = [0xDB#8, 0xDD#8]) ∨
      (b ≠ 0xC0#8 ∧ b ≠ 0xDB#8 ∧ stuff b = [b]) := by
  unfold stuff
  split_ifs with hEnd hEsc
  · exact .inl ⟨hEnd, rfl⟩
  · exact .inr (.inl ⟨hEsc, rfl⟩)
  · exact .inr (.inr ⟨hEnd, hEsc, rfl⟩)

theorem stuffSeq_length (raw : Bytes) : (stuffSeq raw).length = raw.length + (raw.filter isSpecial).length := by
  induction raw with
  | nil => rfl
  | cons b raw ih =>
    rw [stuffSeq, List.length_append, ih, List.length_cons]
    rcases stuff_cases b with ⟨rfl, hs⟩ | ⟨rfl, hs⟩ | ⟨hEnd, hEsc, hs⟩
    · rw [hs, List.filter_cons_of_pos rfl]; simp only [List.length_cons, List.length_nil]; omega
    · rw [hs, List.filter_cons_of_pos rfl]; simp only [List.length_cons, List.length_nil]; omega
    · rw [hs, List.filter_cons_of_neg (by simp [isSpecial, hEnd, hEsc]), List.length_singleton]; omega

theorem end_not_mem_stuffSeq (raw : Bytes) : 0xC0#8 ∉ stuffSeq raw := by
  induction raw with
  | nil => exact List.not_mem_nil
  | cons b raw ih =>
    rw [stuffSeq, List.mem_append, not_or]
    refine ⟨?_, ih⟩
    rcases stuff_cases b with ⟨-, hs⟩ | ⟨-, hs⟩ | ⟨hEnd, -, hs⟩ <;> rw [hs]
    · decide
    · decide
    · simpa using hEnd.symm

/-- R146: every introducer is followed by one of the two escape codes. -/
def EscFollowed (l : Bytes) : Prop := ∀ i : Nat, l[i]? = some 0xDB#8 → l[i + 1]? = some 0xDC#8 ∨ l[i + 1]? = some 0xDD#8

theorem escFollowed_cons (h : EscFollowed tail) (hb : b = 0xDB#8 → tail[0]? = some 0xDC#8 ∨ tail[0]? = some 0xDD#8) :
    EscFollowed (b :: tail) := by
  intro i hi
  cases i with
  | zero => exact hb (Option.some.inj hi)
  | succ i => exact h i hi

theorem escFollowed_plain (h : EscFollowed tail) (hb : b ≠ 0xDB#8) : EscFollowed (b :: tail) :=
  escFollowed_cons h fun heq => absurd heq hb

theorem escFollowed_stuff (b : Byte) (h : EscFollowed tail) : EscFollowed (stuff b ++ tail) := by
  rcases stuff_cases b with ⟨-, hs⟩ | ⟨-, hs⟩ | ⟨-, hEsc, hs⟩ <;> rw [hs]
  · exact escFollowed_cons (escFollowed_plain h (by decide)) fun _ => .inl rfl
  · exact escFollowed_cons (escFollowed_plain h (by decide)) fun _ => .inr rfl
  · exact escFollowed_plain h hEsc

theorem escFollowed_stuffSeq (raw : Bytes) (h : EscFollowed tail) : EscFollowed (stuffSeq raw ++ tail) := by
  induction raw with
  | nil => exact h
  | cons b raw ih => rw [stuffSeq, List.append_assoc]; exact escFollowed_stuff b ih

theorem escFollowed_encWire (raw : Bytes) : EscFollowed (encWire raw) :=
  have hnil : EscFollowed [] := nofun
  escFollowed_plain (escFollowed_stuffSeq raw (escFollowed_plain hnil (by decide))) (by decide)

/-- Settles O7: each clause is one induction over the raw bytes, and the bounds follow from the length. -/
theorem wireFormShape : Obligations.WireFormShape := by
  unfold Obligations.WireFormShape
  intro raw
  have hlen : (encWire raw).length = raw.length + (raw.filter isSpecial).length + 2 := by
    rw [encWire_length, stuffSeq_length]
  refine ⟨hlen, ⟨stuffSeq raw, rfl, end_not_mem_stuffSeq raw⟩, escFollowed_encWire raw, ?_⟩
  intro dst msg payload hpayload hraw
  have hframe : raw.length = payload.length + 4 := by rw [hraw, frameOf_length]
  have hspecial : (raw.filter isSpecial).length ≤ raw.length := List.length_filter_le _ _
  omega

end Sys2Proof.Proofs.PureOperations
end

section
/-! What a step can do to the state, said once: a step does one of eleven things (`Effect`), whatever turn it took. The
rules about ownership, the outputs and the invariants are each a look at these eleven. -/

namespace Sys2Proof.Proofs.Effects

open Sys2Proof Sys2Proof.Machine

variable {s t u : State} {i : Instr} {sel : Selection}

/-! ### The RX agent's writes -/

/-- The operations of a wire byte. -/
def isByteOp : Instr → Bool
  | .rxbEscEnd | .rxbEscEsc | .rxbBadEsc _ | .rxbEnd | .rxbEsc | .rxbLit _ => true
  | _ => false

/-- The operations that write the link receive state and the RX sequencing state, and nothing else but outputs. -/
def isReceive : Instr → Bool
  | .rxChunk _ | .rxReset | .rxReturn => true
  | i => isByteOp i

/-- `t` is `s` but for the link receive state, the RX sequencing state, and outputs appended. -/
structure LinkOnly (s t : State) : Prop where
  regy      : t.regy = s.regy := by rfl
  nextEid   : t.nextEid = s.nextEid := by rfl
  nextWid   : t.nextWid = s.nextWid := by rfl
  nextCall  : t.nextCall = s.nextCall := by rfl
  waiters   : t.waiters = s.waiters := by rfl
  calls     : t.calls = s.calls := by rfl
  params    : t.params = s.params := by rfl
  schedule  : t.schedule = s.schedule := by rfl
  consumers : t.consumers = s.consumers := by rfl
  draws     : t.draws = s.draws := by rfl
  history   : s.history <+: t.history := by exact List.prefix_rfl

theorem linkOnly_emit (e : Event) : LinkOnly s (s.emit e) := { history := List.prefix_append _ _ }

theorem LinkOnly.trans (h : LinkOnly s t) (h' : LinkOnly t u) : LinkOnly s u where
  regy := h'.regy.trans h.regy
  nextEid := h'.nextEid.trans h.nextEid
  nextWid := h'.nextWid.trans h.nextWid
  nextCall := h'.nextCall.trans h.nextCall
  waiters := h'.waiters.trans h.waiters
  calls := h'.calls.trans h.calls
  params := h'.params.trans h.params
  schedule := h'.schedule.trans h.schedule
  consumers := h'.consumers.trans h.consumers
  draws := h'.draws.trans h.draws
  history := h.history.trans h'.history

theorem frameDone_linkOnly (h : frameDone s = .next t) : LinkOnly s t := by
  rcases frameDone_next.mp h with ⟨-, rfl⟩ | ⟨-, d, m, rest, -, ⟨-, rfl⟩ | ⟨-, rfl⟩⟩
  · exact (linkOnly_emit _).trans {}
  · exact (linkOnly_emit _).trans {}
  · rcases dispatchFrame_cases d m (framePayload rest) s with ⟨-, hd⟩ | ⟨e, -, hd⟩ <;> rw [hd] <;> exact {}

/-- R65: what a wire byte, a link command or the return from a chunk writes. -/
theorem exec_isReceive_linkOnly (hi : isReceive i = true) (h : exec i s = .next t) : LinkOnly s t := by
  cases i with
  | rxbEscEnd => obtain ⟨-, rfl⟩ := execRxbEscEnd_next.mp h; exact {}
  | rxbEscEsc => obtain ⟨-, rfl⟩ := execRxbEscEsc_next.mp h; exact {}
  | rxbBadEsc b => obtain ⟨-, rfl⟩ := execRxbBadEsc_next.mp h; exact (linkOnly_emit _).trans {}
  | rxbEnd =>
    obtain ⟨-, ⟨-, rfl⟩ | ⟨-, u, hu, rfl⟩⟩ := execRxbEnd_next.mp h
    · exact {}
    · exact (frameDone_linkOnly hu).trans {}
  | rxbEsc => obtain ⟨-, rfl⟩ := execRxbEsc_next.mp h; exact {}
  | rxbLit b => obtain ⟨-, rfl⟩ := execRxbLit_next.mp h; exact {}
  | rxChunk data => obtain ⟨-, rfl⟩ := execRxChunk_next.mp h; exact {}
  | rxReset => obtain ⟨-, rfl⟩ := execRxReset_next.mp h; exact {}
  | rxReturn => obtain ⟨-, rfl⟩ := execRxReturn_next.mp h; exact (linkOnly_emit _).trans {}
  | _ => cases hi

/-! ### What a turn can select -/

theorem decodeWire_isByteOp (key : WireKey) : isByteOp (decodeWire key) = true := by
  unfold decodeWire; split_ifs <;> rfl

theorem isReceive_of_isByteOp (h : isByteOp i = true) : isReceive i = true := by
  unfold isReceive; split <;> simp [h]

theorem isReceive_cases (h : isReceive i = true) :
    isByteOp i = true ∨ (∃ data, i = .rxChunk data) ∨ i = .rxReset ∨ i = .rxReturn := by
  unfold isReceive at h
  split at h
  · exact .inr (.inl ⟨_, rfl⟩)
  · exact .inr (.inr (.inl rfl))
  · exact .inr (.inr (.inr rfl))
  · exact .inl h

/-- R166, R170, R205: on its turn the RX agent takes a wire byte, returns from the chunk, or runs the latched
handler. -/
theorem rxNext_cases (h : rxNext s = some i) :
    (s.rxs = .run ∧ ∃ b, s.nextByte = some b ∧ i = decodeWire (wireKey s.rxEsc b) ∧ s.roomFor (Instr.appends i)) ∨
      (s.rxs = .run ∧ i = .rxReturn) ∨ (s.rxs = .dsp ∧ i = .dspInvoke) := by
  unfold rxNext at h
  split at h
  · cases h
  · next hdsp => cases h; exact .inr (.inr ⟨hdsp, rfl⟩)
  · next hrun =>
    split at h
    · cases h; exact .inr (.inl ⟨hrun, rfl⟩)
    · next j hj =>
      split_ifs at h with hroom <;> cases h
      · obtain ⟨b, hb, rfl⟩ := Option.map_eq_some_iff.mp hj
        exact .inl ⟨hrun, b, hb, rfl, hroom⟩
      · exact .inr (.inl ⟨hrun, rfl⟩)

/-- R230: the steps of a call. -/
theorem callNext_cases {c : Nat} (h : callNext s c = some i) :
    i = .reqBuild c ∨ i = .reqRegister c ∨ i = .reqEncode c ∨ i = .txByte c ∨ i = .txDone c ∨ i = .reqWake c ∨
      i = .reqUnreg c ∨ i = .reqReturn c := by
  unfold callNext at h
  split at h
  · cases h
  · split at h
    case h_4 => split_ifs at h <;> cases h <;> simp
    all_goals cases h <;> simp

/-- R98: the host's record is the encoding of the operation it selects. -/
theorem encode_of_select_host {op : Byte} {args : List Arg} (h : select s (.host op args) = .op i) :
    encode i = some (.command op args) := by
  have hhost : hostSelect op args = .op i := h
  obtain ⟨n, hn, hi⟩ := hostSelect_op hhost
  rw [EncodingInverse.eq_op_of_commandOf hn]
  exact (EncodingInverse.decodeOperands_wellFormed_encode hi).2

theorem agentSelect_op {o : Option Instr} (h : agentSelect o = .op i) : o = some i := by
  cases o with
  | none => cases h
  | some j => cases h; rfl

/-- The operations that happen only inside another step (assumption 7). -/
def isInner : Instr → Bool
  | .frameDone | .dspScan _ _ | .hndWaiter _ _ | .hndExt _ _ _ _ => true
  | _ => false

theorem isInner_of_encode {code : Code} (h : encode i = some code) : isInner i = false := by
  cases i <;> cases h <;> rfl

/-- Assumption 7: no turn selects one of the inner operations. -/
theorem select_op_isInner {turn : Turn} (h : select s turn = .op i) : isInner i = false := by
  cases turn with
  | rx =>
    rcases rxNext_cases (agentSelect_op h) with ⟨-, b, -, rfl, -⟩ | ⟨-, rfl⟩ | ⟨-, rfl⟩
    · exact isInner_of_encode (EncodingInverse.decodeWire_wireKey _ _).2
    · rfl
    · rfl
  | call c =>
    rcases callNext_cases (agentSelect_op h) with rfl | rfl | rfl | rfl | rfl | rfl | rfl | rfl <;> rfl
  | host op args => exact isInner_of_encode (encode_of_select_host h)
  | stuff b => cases h; exact isInner_of_encode (EncodingInverse.decodeRaw_wellFormed_encode b).2
  | rxReturn | fcsUpdate | expire | wrFail | ping | getInfo => cases h; rfl

theorem encode_isByteOp (h : isByteOp i = true) : ∃ key, encode i = some (.wire key) := by
  cases i with
  | rxbEscEnd | rxbEscEsc | rxbBadEsc | rxbEnd | rxbEsc | rxbLit => exact ⟨_, rfl⟩
  | _ => cases h

/-- R65: the turns that can select a write to the link receive state or the RX sequencing state. -/
theorem select_link_turn {turn : Turn} (h : select s turn = .op i)
    (hi : isReceive i = true ∨ i = .dspInvoke ∨ i = .reset) :
    turn = .rx ∨ turn = .rxReturn ∨ (∃ data, turn = .host 0x05#8 [.bytes data]) ∨ turn = .host 0x06#8 [] ∨
      turn = .host 0x0F#8 [] := by
  cases turn with
  | rx => exact .inl rfl
  | rxReturn => exact .inr (.inl rfl)
  | host op args =>
    have henc := encode_of_select_host h
    rcases hi with hi | rfl | rfl
    · rcases isReceive_cases hi with hbyte | ⟨data, rfl⟩ | rfl | rfl
      · obtain ⟨key, hkey⟩ := encode_isByteOp hbyte
        rw [hkey] at henc
        cases henc
      · cases henc; exact .inr (.inr (.inl ⟨data, rfl⟩))
      · cases henc; exact .inr (.inr (.inr (.inl rfl)))
      · cases henc
    · cases henc
    · cases henc; exact .inr (.inr (.inr (.inr rfl)))
  | call c =>
    rcases callNext_cases (agentSelect_op h) with rfl | rfl | rfl | rfl | rfl | rfl | rfl | rfl <;>
      simp [isReceive, isByteOp] at hi
  | stuff b => cases h; unfold decodeRaw at hi; split_ifs at hi <;> simp [isReceive, isByteOp] at hi
  | fcsUpdate | expire | wrFail | ping | getInfo => cases h; simp [isReceive, isByteOp] at hi

/-- R98: an operation that is a command is selected by the host's record of it alone. -/
theorem turn_of_select_command {turn : Turn} {op : Byte} {args : List Arg} (hi : encode i = some (.command op args))
    (h : select s turn = .op i) : turn = .host op args := by
  cases turn with
  | rx =>
    rcases rxNext_cases (agentSelect_op h) with ⟨-, b, -, rfl, -⟩ | ⟨-, rfl⟩ | ⟨-, rfl⟩
    · rw [(EncodingInverse.decodeWire_wireKey _ _).2] at hi; cases hi
    · cases hi
    · cases hi
  | call c =>
    rcases callNext_cases (agentSelect_op h) with rfl | rfl | rfl | rfl | rfl | rfl | rfl | rfl <;> cases hi
  | host op' args' => rw [encode_of_select_host h] at hi; cases hi; rfl
  | stuff b => cases h; rw [(EncodingInverse.decodeRaw_wellFormed_encode b).2] at hi; cases hi
  | rxReturn | fcsUpdate | expire | wrFail | ping | getInfo => cases h; cases hi

/-! ### What a step does -/

/-- What a step of a call that touches nothing but its own record makes of the record. -/
inductive CallMove (s : State) (k : Call) : Call → Prop
  | refuseLong : k.ph = .new → CallMove s k (k.refuse .errLen)
  | refuseFull : k.ph = .built → CallMove s k (k.refuse .regFull)
  | encode : k.ph = .enc →
      CallMove s k { k with wire := encWire (frameOf k.dst k.msg k.payload), cur := 0, ph := .send }
  | sendByte : k.ph = .send → k.cur < k.wire.length → CallMove s k { k with cur := k.cur + 1 }
  | sent : k.ph = .send → k.cur = k.wire.length → CallMove s k { k with ph := .wait }
  | fail (code : Nat) : k.ph = .send → CallMove s k (k.endWith (.wrFailed code))
  | wake : k.ph = .wait → s.callDone k → CallMove s k (k.endWith .completed)
  | expire : k.ph = .wait → CallMove s k (k.endWith .timedOut)
  | finish (r : CallResult) : k.ph = .ret → CallMove s k { k with res := some r, ph := .fin }

/-- What performing a selection makes of the state. -/
inductive Effect (s : State) : Selection → State → Prop
  /-- The RX agent or a link command, as `exec_isReceive_linkOnly` says. -/
  | link {i : Instr} {t : State} : isReceive i = true → exec i s = .next t → Effect s (.op i) t
  /-- The latched handler runs (R205). -/
  | invoke {l : Latch} {u : State} : s.rxs = .dsp → s.dsp = some l → runHandler l s = .next u →
      Effect s (.op .dspInvoke) u.unlatch
  /-- One output and no other change. -/
  | output {sel : Selection} (e : Event) : Effect s sel (s.emit e)
  /-- A registry client registers (R201). -/
  | register {d m : Byte} {h : Handler} : s.registryFull = false →
      Effect s (.op (.reg d m h)) ((s.register d m h).deliver (.registered s.nextEid))
  /-- A registry client removes an entry (R202). -/
  | unregister {e : Nat} : Effect s (.op (.unreg e)) (s.unregister e)
  /-- A call begins, perhaps a consumer's (R231, R270, R271). -/
  | start {i : Instr} {d m : Byte} {p : Bytes} {ed em : Byte} {cs : Table Consumer} :
      Effect s (.op i) { s.startCall d m p ed em with consumers := cs }
  /-- A call gets its waiter (R232). -/
  | build {c : Nat} {k : Call} : Table.lookup s.calls c = some k → k.ph = .new →
      k.payload.length ≤ Config.maxPayload →
      Effect s (.op (.reqBuild c)) ({ s.setWaiter s.nextWid Waiter.fresh with nextWid := s.nextWid + 1 }.setCall c
        { k with wid := some s.nextWid, ph := .built })
  /-- A call gets its entry (R233). -/
  | enter {c : Nat} {k : Call} {w : Nat} : Table.lookup s.calls c = some k → k.ph = .built → k.wid = some w →
      s.registryFull = false →
      Effect s (.op (.reqRegister c)) ((s.register k.edst k.emsg (.waiter w)).setCall c
        { k with eid := some s.nextEid, st := .registered, ph := .enc })
  /-- A call's entry is removed (R241). -/
  | leave {c : Nat} {k : Call} {e : Nat} {st : CallState} : Table.lookup s.calls c = some k → k.ph = .unreg →
      k.eid = some e → k.out.terminal = some st →
      Effect s (.op (.reqUnreg c)) ((s.unregister e).setCall c { k with st := st, ph := .ret })
  /-- A call changes its own record, with outputs perhaps. -/
  | move {i : Instr} {c : Nat} {k k' : Call} {es : List Event} {cs : Table Consumer} :
      Table.lookup s.calls c = some k → CallMove s k k' → s.history <+: es →
      Effect s (.op i) { s.setCall c k' with history := es, consumers := cs }
  /-- Everything is reset (R320). -/
  | reset : Effect s (.op .reset)
      { State.reset with params := s.params, schedule := s.schedule, history := s.history, draws := s.draws }

/-- R242: delivery appends to the outputs. -/
theorem deliverResult_history (c : Nat) (r : CallResult) (s : State) :
    s.history <+: (deliverResult c r s).history := by
  unfold deliverResult
  split
  · exact (List.prefix_append _ _).trans (List.prefix_append _ _)
  · exact List.prefix_append _ _

/-- Every operation that a turn can select has one of the effects. -/
theorem exec_effect (hi : isInner i = false) (h : exec i s = .next t) : Effect s (.op i) t := by
  cases i with
  | rxbEscEnd | rxbEscEsc | rxbBadEsc | rxbEnd | rxbEsc | rxbLit | rxChunk | rxReset | rxReturn => exact .link rfl h
  | stuffEnd | stuffEsc | fcsCompute | fcsVerify | encWire | fcsUpdate => cases h; exact .output _
  | stuffLit b => obtain ⟨-, rfl⟩ := execStuffLit_next.mp h; exact .output _
  | encFrame dst msg payload => obtain ⟨-, rfl⟩ | ⟨-, rfl⟩ := execEncFrame_next.mp h <;> exact .output _
  | reg dst msg hnd =>
    obtain ⟨-, rfl⟩ | ⟨hroom, rfl⟩ := execReg_next.mp h
    · exact .output _
    · exact .register hroom
  | unreg eid => cases h; exact .unregister
  | req | ping | getInfo => cases h; exact .start
  | reset => cases h; exact .reset
  | frameDone | dspScan | hndWaiter | hndExt => cases hi
  | dspInvoke =>
    obtain ⟨hdsp, l, u, hl, hu, rfl⟩ := execDspInvoke_next.mp h
    exact .invoke hdsp hl hu
  | reqBuild c =>
    obtain ⟨k, hk, hph, ⟨-, rfl⟩ | ⟨hfits, rfl⟩⟩ := execReqBuild_next.mp h
    · exact .move hk (.refuseLong hph) List.prefix_rfl
    · exact .build hk hph hfits
  | reqRegister c =>
    obtain ⟨k, w, hk, hph, hw, ⟨-, rfl⟩ | ⟨hroom, rfl⟩⟩ := execReqRegister_next.mp h
    · exact .move hk (.refuseFull hph) List.prefix_rfl
    · exact .enter hk hph hw hroom
  | reqEncode c =>
    obtain ⟨k, hk, hph, rfl⟩ := execReqEncode_next.mp h
    exact .move hk (.encode hph) List.prefix_rfl
  | txByte c =>
    obtain ⟨k, b, hk, hph, hb, rfl⟩ := execTxByte_next.mp h
    exact .move hk (.sendByte hph (List.getElem?_eq_some_iff.mp hb).1) (List.prefix_append _ _)
  | txDone c =>
    obtain ⟨k, hk, hph, hend, rfl⟩ := execTxDone_next.mp h
    exact .move hk (.sent hph hend) List.prefix_rfl
  | evWrfail c code =>
    obtain ⟨k, hk, hph, rfl⟩ := execEvWrfail_next.mp h
    exact .move hk (.fail code hph) List.prefix_rfl
  | reqWake c =>
    obtain ⟨k, hk, hph, hdone, rfl⟩ := execReqWake_next.mp h
    exact .move hk (.wake hph hdone) List.prefix_rfl
  | evExpire c =>
    obtain ⟨k, hk, hph, -, rfl⟩ := execEvExpire_next.mp h
    exact .move hk (.expire hph) List.prefix_rfl
  | reqUnreg c =>
    obtain ⟨k, e, st, hk, hph, he, hst, rfl⟩ := execReqUnreg_next.mp h
    exact .leave hk hph he hst
  | reqReturn c =>
    obtain ⟨k, r, hk, hph, -, rfl⟩ := execReqReturn_next.mp h
    rw [deliverResult_writes]
    exact .move hk (.finish r hph) (deliverResult_history c r (s.setCall c { k with res := some r, ph := .fin }))

/-- A step takes the first turn of the schedule and has one of the effects. -/
theorem step_effect (h : step s = .next t) :
    ∃ turn, s.schedule.head? = some turn ∧ Effect s.popTurn (select s turn) t := by
  obtain ⟨turn, rest, hs, hp⟩ := step_next.mp h
  refine ⟨turn, by rw [hs]; rfl, ?_⟩
  rcases perform_next.mp hp with ⟨i, hi, he⟩ | ⟨op, -, rfl⟩
  · rw [hi]; exact exec_effect (select_op_isInner hi) he
  · exact .output _

end Sys2Proof.Proofs.Effects
end

section
/-! What a turn runs, families 20_memory.md section 6, 30_encoding.md section 5 and 44_arbiter.md section 1: the step is
the selected operation on the state without the turn. -/

namespace Sys2Proof.Proofs.Turns

open Sys2Proof Sys2Proof.Machine Sys2Proof.Proofs.Effects

variable {s : State} {turn : Turn} {rest : List Turn} {i : Instr} {b : Byte} {c : Nat} {k : Call}

/-! ### The step and its selection -/

theorem popTurn_eq (hs : s.schedule = turn :: rest) : s.popTurn = { s with schedule := rest } := by
  rw [State.popTurn, hs, List.tail_cons]

theorem step_of_schedule (hs : s.schedule = turn :: rest) :
    step s = perform (select s turn) { s with schedule := rest } := by
  rw [step, hs, ← popTurn_eq hs]

theorem step_of_select (hs : s.schedule = turn :: rest) (hsel : select s turn = .op i) :
    step s = exec i { s with schedule := rest } := by
  rw [step_of_schedule hs, hsel]; rfl

theorem step_of_select_noStep (hs : s.schedule = turn :: rest) (hsel : select s turn = .noStep) :
    step s = .fault .noStep := by
  rw [step_of_schedule hs, hsel]; rfl

/-! ### The RX agent's turn -/

theorem nextWireOp_of_byte (hb : s.rxChunk[s.rxPos]? = some b) :
    s.nextWireOp = some (decodeWire (wireKey s.rxEsc b)) := by
  rw [State.nextWireOp, State.nextByte, hb]; rfl

theorem select_rx_byte (hrun : s.rxs = .run) (hb : s.rxChunk[s.rxPos]? = some b)
    (hi : decodeWire (wireKey s.rxEsc b) = i) (hroom : s.roomFor (Instr.appends i)) : select s .rx = .op i := by
  subst hi
  rw [select, rxNext, hrun, nextWireOp_of_byte hb]
  simp only [if_pos hroom, agentSelect]

theorem select_rx_full (hrun : s.rxs = .run) (hb : s.rxChunk[s.rxPos]? = some b)
    (hi : decodeWire (wireKey s.rxEsc b) = i) (hroom : ¬ s.roomFor (Instr.appends i)) :
    select s .rx = .op .rxReturn := by
  subst hi
  rw [select, rxNext, hrun, nextWireOp_of_byte hb]
  simp only [if_neg hroom, agentSelect]

theorem select_rx_end (hrun : s.rxs = .run) (hb : s.rxChunk[s.rxPos]? = none) : select s .rx = .op .rxReturn := by
  rw [select, rxNext, hrun, State.nextWireOp, State.nextByte, hb]; rfl

theorem select_rx_dsp (hdsp : s.rxs = .dsp) : select s .rx = .op .dspInvoke := by
  rw [select, rxNext, hdsp]; rfl

theorem select_rx_idle (hidle : s.rxs = .idle) : select s .rx = .noStep := by
  rw [select, rxNext, hidle]; rfl

/-! ### The host port -/

theorem decode_wire_ok {key : WireKey} (h : decode (.wire key) = .ok i) : decodeWire key = i := by cases h; rfl

theorem select_stuff (h : decode (.raw b) = .ok i) : select s (.stuff b) = .op i := by cases h; rfl

theorem select_host_ok {op : Byte} {args : List Arg} (h : decode (.command op args) = .ok i) :
    select s (.host op args) = .op i := by
  rw [select, hostSelect, h]

theorem select_host_badOperands {op : Byte} {args : List Arg}
    (h : decode (.command op args) = .error (.badOperands op)) : select s (.host op args) = .badOperands op := by
  rw [select, hostSelect, h]

/-- R98: a number outside the ten of the table names no command. -/
theorem commandOf_eq_none {op : Byte}
    (h : op ∉ [0x01#8, 0x02#8, 0x03#8, 0x04#8, 0x05#8, 0x06#8, 0x07#8, 0x08#8, 0x09#8, 0x0F#8]) :
    commandOf op = none := by
  cases hn : commandOf op with
  | none => rfl
  | some n =>
    refine absurd ?_ h
    rw [EncodingInverse.eq_op_of_commandOf hn]
    cases n <;> decide

theorem select_host_unknown {op : Byte} {args : List Arg} (h : commandOf op = none) :
    select s (.host op args) = .errCmd op := by
  rw [select, hostSelect, decode, decodeCommand, h]

/-- Settles O13: the number names no command, so the step is its refusal. -/
theorem unknownCommandIsRefused : Obligations.UnknownCommandIsRefused := by
  unfold Obligations.UnknownCommandIsRefused
  intro s op args rest hs hop
  rw [step_of_schedule hs, select_host_unknown (commandOf_eq_none hop)]
  rfl

/-- Settles O14: one case for each kind of turn, and for the RX agent one for each of its states. -/
theorem stepRunsTheSelectedOperation : Obligations.StepRunsTheSelectedOperation := by
  unfold Obligations.StepRunsTheSelectedOperation
  intro s turn rest hs
  refine ⟨?command, ?illTyped, ?stuff, ?byte, ?chunkEnd, ?pending, ?idle, ?returns, ?update, ?expire, ?wrFail, ?ping,
    ?getInfo⟩
  case command => rintro op args i rfl h; exact step_of_select hs (select_host_ok h)
  case illTyped =>
    rintro op args rfl h
    rw [step_of_schedule hs, select_host_badOperands h]
    rfl
  case stuff => rintro b i rfl h; exact step_of_select hs (select_stuff h)
  case byte =>
    rintro b i rfl hrun hb h
    have hi := decode_wire_ok h
    refine ⟨fun hroom => step_of_select hs (select_rx_byte hrun hb hi hroom), fun hfull hpolicy =>
      step_of_select hs (select_rx_full hrun hb hi ?_)⟩
    rintro (hroom | ⟨happend, hkeeps⟩)
    · exact Nat.not_lt.mpr hfull hroom
    · rcases hpolicy with hall | happ
      · rw [happend] at hall; cases hall
      · rw [hkeeps] at happ; cases happ
  case chunkEnd => rintro rfl hrun hb; exact step_of_select hs (select_rx_end hrun hb)
  case pending => rintro rfl hdsp; exact step_of_select hs (select_rx_dsp hdsp)
  case idle => rintro rfl hidle; exact step_of_select_noStep hs (select_rx_idle hidle)
  case returns => rintro rfl; exact step_of_select hs rfl
  case update => rintro crc data rfl; exact step_of_select hs rfl
  case expire => rintro c rfl; exact step_of_select hs rfl
  case wrFail => rintro c code rfl; exact step_of_select hs rfl
  case ping => rintro rfl; exact step_of_select hs rfl
  case getInfo => rintro rfl; exact step_of_select hs rfl

/-! ### A call's turn -/

section
variable (hk : Table.lookup s.calls c = some k)
include hk

theorem callNext_new (hph : k.ph = .new) : callNext s c = some (.reqBuild c) := by
  simp only [callNext, hk, hph]

theorem callNext_built (hph : k.ph = .built) : callNext s c = some (.reqRegister c) := by
  simp only [callNext, hk, hph]

theorem callNext_enc (hph : k.ph = .enc) : callNext s c = some (.reqEncode c) := by
  simp only [callNext, hk, hph]

theorem callNext_send_byte (hph : k.ph = .send) (hlt : k.cur < k.wire.length) : callNext s c = some (.txByte c) := by
  simp only [callNext, hk, hph, if_pos hlt]

theorem callNext_send_done (hph : k.ph = .send) (hend : k.wire.length ≤ k.cur) : callNext s c = some (.txDone c) := by
  simp only [callNext, hk, hph, if_neg (Nat.not_lt.mpr hend)]

theorem callNext_wait (hph : k.ph = .wait) : callNext s c = some (.reqWake c) := by
  simp only [callNext, hk, hph]

theorem callNext_unreg (hph : k.ph = .unreg) : callNext s c = some (.reqUnreg c) := by
  simp only [callNext, hk, hph]

theorem callNext_ret (hph : k.ph = .ret) : callNext s c = some (.reqReturn c) := by
  simp only [callNext, hk, hph]

theorem callNext_fin (hph : k.ph = .fin) : callNext s c = none := by
  simp only [callNext, hk, hph]

end

theorem step_of_callNext (hs : s.schedule = .call c :: rest) (hnext : callNext s c = some i) :
    step s = exec i { s with schedule := rest } :=
  step_of_select hs (by rw [select, hnext]; rfl)

/-- Settles O15: the phase decides, and while sending the cursor. -/
theorem callTurnFollowsThePhase : Obligations.CallTurnFollowsThePhase := by
  unfold Obligations.CallTurnFollowsThePhase
  intro s c k rest hs hk
  refine ⟨fun hph => ?new, fun hph => ?built, fun hph => ?enc, fun hph hlt => ?byte, fun hph hend => ?done,
    fun hph => ?wait, fun hph => ?unreg, fun hph => ?ret, fun hph => ?fin⟩
  case new => exact step_of_callNext hs (callNext_new hk hph)
  case built => exact step_of_callNext hs (callNext_built hk hph)
  case enc => exact step_of_callNext hs (callNext_enc hk hph)
  case byte => exact step_of_callNext hs (callNext_send_byte hk hph hlt)
  case done => exact step_of_callNext hs (callNext_send_done hk hph hend)
  case wait => exact step_of_callNext hs (callNext_wait hk hph)
  case unreg => exact step_of_callNext hs (callNext_unreg hk hph)
  case ret => exact step_of_callNext hs (callNext_ret hk hph)
  case fin => exact step_of_select_noStep hs (by rw [select, callNext_fin hk hph]; rfl)

end Sys2Proof.Proofs.Turns
end

section
/-! The destuffer and the assembler beyond single bytes, family 42_destuffer_assembler.md: what a stored byte changes,
how a frame completes, when a chunk ends, and the full buffer. -/

namespace Sys2Proof.Proofs.Assembler

open Sys2Proof Sys2Proof.Machine Sys2Proof.Proofs.Destuffer Sys2Proof.Proofs.Effects

variable {s t u : State} {i : Instr} {d m b : Byte} {p : Bytes}

/-! ### One cell -/

/-- R173: the one addressing mode of the decoder. -/
theorem append_cells (s : State) (v : Byte) :
    Memory.read (s.append v).rxbuf s.rxLen = some v ∧
      (∀ a, a ≠ s.rxLen → Memory.read (s.append v).rxbuf a = Memory.read s.rxbuf a) ∧
      (s.append v).rxLen = s.rxLen + 1 :=
  ⟨Memory.read_write_same _ _ _, fun _ ha => Memory.read_write_other _ _ ha, rfl⟩

/-- Settles O17: the three appending operations are `State.append` under a guard that asks for room. -/
theorem appendStoresOneCell : Obligations.AppendStoresOneCell := by
  unfold Obligations.AppendStoresOneCell
  refine fun s t i h => ⟨fun v hi => ?append, fun hi => ?keep⟩
  case append =>
    rcases hi with rfl | ⟨rfl, rfl⟩ | ⟨rfl, rfl⟩
    · obtain ⟨⟨htakes, -⟩, rfl⟩ := execRxbLit_next.mp h
      exact ⟨(takes_appending_iff.mp htakes).2.1, append_cells s v⟩
    · obtain ⟨htakes, rfl⟩ := execRxbEscEnd_next.mp h
      exact ⟨(takes_appending_iff.mp htakes).2.1, append_cells s _⟩
    · obtain ⟨htakes, rfl⟩ := execRxbEscEsc_next.mp h
      exact ⟨(takes_appending_iff.mp htakes).2.1, append_cells s _⟩
  case keep =>
    rcases hi with rfl | ⟨b, rfl⟩
    · obtain ⟨-, rfl⟩ := execRxbEsc_next.mp h
      exact ⟨fun _ => rfl, rfl⟩
    · obtain ⟨-, rfl⟩ := execRxbBadEsc_next.mp h
      exact ⟨fun _ => rfl, rfl⟩

/-! ### Completion of a frame -/

/-- R204: the first entry that matches is the scan's answer. -/
theorem scan_of_split {regy pre post : List Entry} {e : Entry} (hregy : regy = pre ++ e :: post)
    (hpre : ∀ x ∈ pre, ¬ (x.dst = d ∧ x.msg = m)) (hd : e.dst = d) (hm : e.msg = m) : scan regy d m = some e := by
  have hnone : List.find? (fun x => x.matchesPair d m) pre = none := scan_none.mpr hpre
  have he : e.matchesPair d m = true := by simp [Entry.matchesPair, hd, hm]
  rw [scan, hregy, List.find?_append, hnone, Option.none_or]
  exact List.find?_cons_of_pos he

theorem dispatchFrame_of_none (h : scan s.regy d m = none) : dispatchFrame d m p s = s := by
  rw [dispatchFrame, h]

theorem dispatchFrame_of_some {e : Entry} (h : scan s.regy d m = some e) :
    dispatchFrame d m p s = s.latch ⟨e.hnd, d, m, p⟩ := by
  rw [dispatchFrame, h]

/-- R171: a frame that is long enough and verifies is matched. -/
theorem frameDone_of_good {payload : Bytes} {lo hi : Byte}
    (hread : Memory.readBytes s.rxbuf 0 s.rxLen = some ([d, m] ++ payload ++ [lo, hi]))
    (hgood : fcsVerify ([d, m] ++ payload ++ [lo, hi]) = true) :
    frameDone s = .next (dispatchFrame d m payload s).clearBuffer := by
  have hlen := Memory.readBytes_length hread
  have hmin : Config.minFrame ≤ s.rxLen := by
    simp only [List.length_append, List.length_cons, List.length_nil] at hlen
    change 4 ≤ s.rxLen
    omega
  exact frameDone_next.mpr (.inr ⟨hmin, d, m, payload ++ [lo, hi], hread, .inr ⟨hgood, by rw [framePayload_append]⟩⟩)

/-- Settles O19: the order of the tests is that of `frameDone_next`. -/
theorem frameDoneOutcomes : Obligations.FrameDoneOutcomes := by
  unfold Obligations.FrameDoneOutcomes
  refine fun s hpos => ⟨fun hshort => ?short, fun dst msg payload lo hi hread => ⟨fun hbad => ?bad, fun hgood =>
    ⟨fun hnone => ?dropped, fun pre e post hregy hpre hd hm => ?latched⟩⟩⟩
  case short => exact execFrameDone_next.mpr ⟨hpos, frameDone_next.mpr (.inl ⟨hshort, rfl⟩)⟩
  case bad =>
    have hmin : 4 ≤ s.rxLen := by rw [← Memory.readBytes_length hread]; simp
    exact execFrameDone_next.mpr ⟨hpos, frameDone_next.mpr
      (.inr ⟨hmin, dst, msg, payload ++ [lo, hi], hread, .inl ⟨hbad, rfl⟩⟩)⟩
  case dropped =>
    refine execFrameDone_next.mpr ⟨hpos, ?_⟩
    rw [frameDone_of_good hread hgood, dispatchFrame_of_none (scan_none.mpr hnone)]
    rfl
  case latched =>
    refine execFrameDone_next.mpr ⟨hpos, ?_⟩
    rw [frameDone_of_good hread hgood, dispatchFrame_of_some (scan_of_split hregy hpre hd hm)]
    rfl

/-- R160 d: with the buffer filled, completion always answers. -/
theorem frameDone_completes (h : s.RxInv) : ∃ u, frameDone s = .next u := by
  rcases Nat.lt_or_ge s.rxLen Config.minFrame with hshort | hmin
  · exact ⟨_, frameDone_next.mpr (.inl ⟨hshort, rfl⟩)⟩
  · obtain ⟨f, hf⟩ := Memory.readBytes_dense h.filled
    have hlen : 4 ≤ f.length := by rw [Memory.readBytes_length hf]; exact hmin
    match f, hlen with
    | d :: m :: rest, _ =>
      cases hv : fcsVerify (d :: m :: rest) with
      | false => exact ⟨_, frameDone_next.mpr (.inr ⟨hmin, d, m, rest, hf, .inl ⟨hv, rfl⟩⟩)⟩
      | true => exact ⟨_, frameDone_next.mpr (.inr ⟨hmin, d, m, rest, hf, .inr ⟨hv, rfl⟩⟩)⟩

/-- Settles O21: an empty buffer needs no completion, a filled one completes. -/
theorem endAlwaysCompletes : Obligations.EndAlwaysCompletes := by
  unfold Obligations.EndAlwaysCompletes
  intro s h hrun hb hesc hroom
  have htakes : s.takes false Config.endByte false := takes_keeping_iff.mpr ⟨hrun, hroom, hb, hesc⟩
  rcases Nat.eq_zero_or_pos s.rxLen with hempty | hpos
  · exact ⟨s.advance, execRxbEnd_next.mpr ⟨htakes, .inl ⟨hempty, rfl⟩⟩, hempty, hesc, rfl, rfl, rfl, rfl⟩
  · obtain ⟨u, hu⟩ := frameDone_completes h
    refine ⟨u.advance, execRxbEnd_next.mpr ⟨htakes, .inr ⟨hpos, u, hu, rfl⟩⟩,
      (State.advance_rxLen u).trans (frameDone_rxLen hu), ?_⟩
    rw [frameDone_writes hu]
    exact ⟨hesc, rfl, rfl, rfl, rfl⟩

/-- R171, R211: where an `END` changes the latch, a good frame was matched. -/
theorem execRxbEnd_latch (h : execRxbEnd s = .next t) :
    t.dsp = s.dsp ∨ ∃ d m rest e, Memory.readBytes s.rxbuf 0 s.rxLen = some (d :: m :: rest) ∧ 4 ≤ s.rxLen ∧
      fcsVerify (d :: m :: rest) = true ∧ scan s.regy d m = some e ∧ t.dsp = some ⟨e.hnd, d, m, framePayload rest⟩ := by
  obtain ⟨-, ⟨-, rfl⟩ | ⟨-, u, hu, rfl⟩⟩ := execRxbEnd_next.mp h
  · exact .inl rfl
  · rcases frameDone_next.mp hu with ⟨-, rfl⟩ | ⟨hmin, d, m, rest, hread, ⟨-, rfl⟩ | ⟨hgood, rfl⟩⟩
    · exact .inl rfl
    · exact .inl rfl
    · rcases dispatchFrame_cases d m (framePayload rest) s with ⟨-, hd⟩ | ⟨e, he, hd⟩
      · exact .inl (by rw [hd]; rfl)
      · exact .inr ⟨d, m, rest, e, hread, hmin, hgood, he, by rw [hd]; rfl⟩

/-- Settles O22: the latch changed, so there was a match, and its entry carries the frame's address pair. -/
theorem onlyGoodFramesAreDispatched : Obligations.OnlyGoodFramesAreDispatched := by
  unfold Obligations.OnlyGoodFramesAreDispatched
  intro s t h hne
  obtain heq | ⟨d, m, rest, e, hread, hmin, hgood, hscan, hdsp⟩ := execRxbEnd_latch h
  · exact absurd heq hne
  · obtain ⟨hmem, rfl, rfl⟩ := scan_some hscan
    have hlen : 4 ≤ (e.dst :: e.msg :: rest).length := by rw [Memory.readBytes_length hread]; exact hmin
    exact ⟨_, e, hread, hlen, hgood, hmem, rfl, rfl, hdsp⟩

/-- Settles O23: the guard leaves at most 303 bytes of frame, four of which are header and checksum. -/
theorem longestReceivedPayload : Obligations.LongestReceivedPayload := by
  unfold Obligations.LongestReceivedPayload
  intro s t hpolicy h l hl
  obtain heq | ⟨d, m, rest, e, hread, -, -, -, hdsp⟩ := execRxbEnd_latch h
  · exact .inl (heq ▸ hl)
  · obtain ⟨-, hroom, -, -⟩ := takes_keeping_iff.mp (execRxbEnd_next.mp h).1
    have hcap : s.rxLen < 304 := hroom.resolve_right (by rw [hpolicy]; nofun)
    have hlen : rest.length + 1 + 1 = s.rxLen := Memory.readBytes_length hread
    obtain rfl := Option.some.inj (hl.symm.trans hdsp)
    exact .inr (by rw [framePayload_length]; omega)

/-! ### Beginning and end of a chunk -/

/-- Settles O24: both commands are guarded by `RX_IDLE` and answer at once. -/
theorem linkCommandsOnlyBetweenChunks : Obligations.LinkCommandsOnlyBetweenChunks := by
  unfold Obligations.LinkCommandsOnlyBetweenChunks
  refine fun s data => ⟨fun hidle => ?chunk, fun hidle => ?reset, fun hbusy => ⟨?noChunk, ?noReset⟩⟩
  case chunk => exact execRxChunk_next.mpr ⟨hidle, rfl⟩
  case reset => exact execRxReset_next.mpr ⟨hidle, by rw [← hidle]; rfl⟩
  case noChunk => exact whenGuard_neg _ hbusy
  case noReset => exact whenGuard_neg _ hbusy

/-- R170, R168, R169: the guard of `RX.RETURN` taken apart. -/
theorem mayReturn_iff :
    s.mayReturn = true ↔ s.rxs = .run ∧ (s.params.returnGuard = .anyPrefix ∨ s.rxPos = s.rxChunk.length ∨
      (s.rxLen = 304 ∧ (s.params.fullPolicy = .stallAll ∨
        ∃ b, s.rxChunk[s.rxPos]? = some b ∧ Instr.appends (decodeWire (wireKey s.rxEsc b)) = true))) := by
  unfold State.mayReturn
  rw [Bool.and_eq_true, beq_iff_eq]
  refine and_congr_right fun _ => ?_
  cases s.params.returnGuard with
  | anyPrefix => simp
  | exact =>
    cases s.params.fullPolicy with
    | stallAll => simp
    | stallAppend =>
      simp only [State.nextWireOp, State.nextByte]
      cases s.rxChunk[s.rxPos]? <;> simp

/-- Settles O25: the cases are those of the guard. -/
theorem returnDeliversConsumedCount : Obligations.ReturnDeliversConsumedCount := by
  unfold Obligations.ReturnDeliversConsumedCount
  refine fun s => ⟨fun hrun hwhen => ?returns, fun hexact hpos hroom => ?stays, fun hrun => ?outside⟩
  case returns =>
    refine execRxReturn_next.mpr ⟨mayReturn_iff.mpr ⟨hrun, ?_⟩, rfl⟩
    rcases hwhen with hend | ⟨hfull, hpolicy⟩ | ⟨b, hfull, hb⟩ | hany
    · exact .inr (.inl hend)
    · exact .inr (.inr ⟨hfull, .inl hpolicy⟩)
    · exact .inr (.inr ⟨hfull, .inr ⟨b, hb⟩⟩)
    · exact .inl hany
  case stays =>
    refine whenGuard_neg _ fun hmay => ?_
    obtain ⟨-, hany | hend | ⟨hfull, hblocked⟩⟩ := mayReturn_iff.mp hmay
    · rw [hexact] at hany; cases hany
    · exact hpos hend
    · obtain hne | ⟨hpolicy, hkeeps⟩ := hroom
      · exact hne hfull
      · obtain hall | ⟨b, hb, happ⟩ := hblocked
        · rw [hpolicy] at hall; cases hall
        · rw [hkeeps b hb] at happ; cases happ
  case outside => exact whenGuard_neg _ fun hmay => hrun (State.mayReturn_run hmay)

/-! ### The full buffer -/

theorem not_roomFor_of_full (hfull : s.rxLen = 304) (hpolicy : s.params.fullPolicy = .stallAll) (appends : Bool) :
    ¬ s.roomFor appends := by
  rintro (hroom | ⟨hpol, -⟩)
  · exact absurd hroom (by rw [hfull]; decide)
  · rw [hpolicy] at hpol; cases hpol

/-- R168: with the buffer full no operation of a wire byte exists. -/
theorem exec_isByteOp_of_full (hi : isByteOp i = true) (hfull : s.rxLen = 304)
    (hpolicy : s.params.fullPolicy = .stallAll) : exec i s = .fault .noStep := by
  have hno : ∀ {esc b a}, ¬ s.takes esc b a := fun h => not_roomFor_of_full hfull hpolicy _ h.2.2.1
  cases i with
  | rxbEscEnd | rxbEscEsc | rxbEnd | rxbEsc => exact whenGuard_neg _ hno
  | rxbBadEsc | rxbLit => exact whenGuard_neg _ fun h => hno h.1
  | _ => cases hi

/-- Settles O26: no byte is taken, and the chunk may return before its first. -/
theorem fullBufferTakesNoByte : Obligations.FullBufferTakesNoByte := by
  unfold Obligations.FullBufferTakesNoByte
  refine fun s hfull hpolicy => ⟨fun b => exec_isByteOp_of_full (decodeWire_isByteOp _) hfull hpolicy, fun data hidle =>
    ⟨_, execRxChunk_next.mpr ⟨hidle, rfl⟩, execRxReturn_next.mpr ⟨?may, by rw [← hidle]; rfl⟩⟩⟩
  exact mayReturn_iff.mpr ⟨rfl, .inr (.inr ⟨hfull, .inl hpolicy⟩)⟩

end Sys2Proof.Proofs.Assembler
end

section
/-! The frame dispatcher's other statements, family 43_dispatcher.md: registration, the scan, and a waiter's operands
outside their range. -/

namespace Sys2Proof.Proofs.Registration

open Sys2Proof Sys2Proof.Machine Sys2Proof.Proofs.Assembler

/-- Settles O32: the two cases are whether the registry is full. -/
theorem regAppendsOrRefuses : Obligations.RegAppendsOrRefuses := by
  unfold Obligations.RegAppendsOrRefuses
  refine fun s dst msg hnd => ⟨fun hroom => ?entered, fun cap hcap hlen => ?refused⟩
  case entered => exact execReg_next.mpr (.inr ⟨s.registryFull_eq_false_iff.mpr hroom, rfl⟩)
  case refused => exact execReg_next.mpr (.inl ⟨s.registryFull_iff.mpr ⟨cap, hcap, hlen⟩, rfl⟩)

/-- Settles O34: the two answers of the scan. -/
theorem scanAnswersTheOldestMatch : Obligations.ScanAnswersTheOldestMatch := by
  unfold Obligations.ScanAnswersTheOldestMatch
  have hanswer : ∀ {s : State} {dst msg : Byte} {o : Option Entry}, scan s.regy dst msg = o →
      exec (.dspScan dst msg) s = .next { s with history := s.history ++ [.reply (.entry o)] } := by
    rintro s dst msg _ rfl
    rfl
  refine fun s dst msg => ⟨fun pre e post hregy hpre hd hm => ?found, fun hnone => ?absent⟩
  case found => exact hanswer (scan_of_split hregy hpre hd hm)
  case absent => exact hanswer (scan_none.mpr hnone)

/-- Settles O36: the free value decides for an id without a record, and an open waiter has no place for a longer
payload. -/
theorem waiterOperandsOutsideTheirRange : Obligations.WaiterOperandsOutsideTheirRange := by
  unfold Obligations.WaiterOperandsOutsideTheirRange
  refine fun s w p => ⟨fun hnone hp => completeWaiter_next.mpr ?unallocated, fun v hv hopen hlong => ?long⟩
  case unallocated =>
    rw [State.waiterAt_none hnone, State.noteDraw_none hnone]
    cases hfree : Config.unallocatedDone s.draws with
    | true => exact .inl ⟨rfl, rfl⟩
    | false => exact .inr ⟨rfl, hp, rfl⟩
  case long => exact completeWaiter_fault.mpr ⟨by rw [State.waiterAt_some hv]; exact hopen, hlong, rfl⟩

end Sys2Proof.Proofs.Registration
end

section
/-! The invariant of the RX agent (R36 a, b, d), kept by each named update of the link receive state, hence by every
step. -/

namespace Sys2Proof.Proofs.RxInvariant

open Sys2Proof Sys2Proof.Machine Sys2Proof.Proofs.Destuffer Sys2Proof.Proofs.Effects

variable {s t : State} {i : Instr} {sel : Selection}

/-! ### The named updates -/

theorem rxInv_of_linkView (h : s.RxInv) (hv : t.linkView = s.linkView) : t.RxInv := by
  obtain ⟨hbuf, hlen, -, hrxs, hchunk, hpos, hdsp⟩ := by simpa only [State.linkView, Prod.mk.injEq] using hv
  exact ⟨by rw [hlen]; exact h.len_le, by rw [hbuf, hlen]; exact h.filled, by rw [hdsp, hrxs]; exact h.latch_iff,
    by rw [hpos, hchunk]; exact h.pos_le, by rw [hdsp]; exact h.latch_payload⟩

theorem rxInv_popTurn (h : s.RxInv) : s.popTurn.RxInv := rxInv_of_linkView h rfl

theorem rxInv_emit (h : s.RxInv) (e : Event) : (s.emit e).RxInv := rxInv_of_linkView h rfl

theorem rxInv_setEsc (h : s.RxInv) : s.setEsc.RxInv := { h with }

theorem rxInv_clearEsc (h : s.RxInv) : s.clearEsc.RxInv := { h with }

theorem rxInv_advance (h : s.RxInv) {b : Byte} (hb : s.nextByte = some b) : s.advance.RxInv :=
  { h with pos_le := (List.getElem?_eq_some_iff.mp hb).1 }

theorem rxInv_append (h : s.RxInv) (hroom : s.rxLen < Config.rxCap) (b : Byte) : (s.append b).RxInv :=
  { h with len_le := hroom, filled := h.filled.set_next b }

theorem rxInv_clearBuffer (h : s.RxInv) : s.clearBuffer.RxInv := { h with len_le := Nat.zero_le _, filled := rfl }

theorem rxInv_latch (h : s.RxInv) {l : Latch} (hl : l.p.length ≤ Config.maxPayload) : (s.latch l).RxInv :=
  { h with latch_iff := ⟨fun _ => rfl, fun _ => rfl⟩, latch_payload := by rintro _ ⟨⟩; exact hl }

theorem rxInv_unlatch (h : s.RxInv) : s.unlatch.RxInv :=
  { h with latch_iff := ⟨nofun, nofun⟩, latch_payload := nofun }

/-- R24, R25: outside `RX_DSP` nothing is latched. -/
theorem dsp_eq_none (h : s.RxInv) (hne : s.rxs ≠ .dsp) : s.dsp = none :=
  Option.not_isSome_iff_eq_none.mp fun hsome => hne (h.latch_iff.mp hsome)

/-! ### The RX agent's operations -/

theorem frameDone_rxInv (h : s.RxInv) (hd : frameDone s = .next t) : t.RxInv := by
  rcases frameDone_next.mp hd with ⟨-, rfl⟩ | ⟨-, d, m, rest, hread, ⟨-, rfl⟩ | ⟨-, rfl⟩⟩
  · exact rxInv_clearBuffer (rxInv_emit h _)
  · exact rxInv_clearBuffer (rxInv_emit h _)
  · rcases dispatchFrame_cases d m (framePayload rest) s with ⟨-, hd⟩ | ⟨e, -, hd⟩ <;> rw [hd]
    · exact rxInv_clearBuffer h
    · have hlen : rest.length + 1 + 1 = s.rxLen := Memory.readBytes_length hread
      have hcap : s.rxLen ≤ 304 := h.len_le
      have hfits : (framePayload rest).length ≤ 300 := by rw [framePayload_length]; omega
      exact rxInv_clearBuffer (rxInv_latch h hfits)

theorem exec_isReceive_rxInv (h : s.RxInv) (hi : isReceive i = true) (he : exec i s = .next t) : t.RxInv := by
  cases i with
  | rxbEscEnd =>
    obtain ⟨htakes, rfl⟩ := execRxbEscEnd_next.mp he
    obtain ⟨-, hroom, hb, -⟩ := takes_appending_iff.mp htakes
    exact rxInv_advance (rxInv_clearEsc (rxInv_append h hroom _)) hb
  | rxbEscEsc =>
    obtain ⟨htakes, rfl⟩ := execRxbEscEsc_next.mp he
    obtain ⟨-, hroom, hb, -⟩ := takes_appending_iff.mp htakes
    exact rxInv_advance (rxInv_clearEsc (rxInv_append h hroom _)) hb
  | rxbBadEsc b =>
    obtain ⟨⟨⟨-, hb, -⟩, -⟩, rfl⟩ := execRxbBadEsc_next.mp he
    exact rxInv_advance (rxInv_clearEsc (rxInv_emit h _)) hb
  | rxbEnd =>
    obtain ⟨⟨-, hb, -⟩, ⟨-, rfl⟩ | ⟨-, u, hu, rfl⟩⟩ := execRxbEnd_next.mp he
    · exact rxInv_advance h hb
    · have hbu : u.nextByte = some Config.endByte := by rw [frameDone_writes hu]; exact hb
      exact rxInv_advance (frameDone_rxInv h hu) hbu
  | rxbEsc =>
    obtain ⟨⟨-, hb, -⟩, rfl⟩ := execRxbEsc_next.mp he
    exact rxInv_advance (rxInv_setEsc h) hb
  | rxbLit b =>
    obtain ⟨⟨htakes, -⟩, rfl⟩ := execRxbLit_next.mp he
    obtain ⟨-, hroom, hb, -⟩ := takes_appending_iff.mp htakes
    exact rxInv_advance (rxInv_append h hroom _) hb
  | rxChunk data =>
    obtain ⟨hidle, rfl⟩ := execRxChunk_next.mp he
    have hnone := dsp_eq_none h (by rw [hidle]; nofun)
    exact { h with latch_iff := by simp [hnone], pos_le := Nat.zero_le _ }
  | rxReset =>
    obtain ⟨-, rfl⟩ := execRxReset_next.mp he
    exact { rxInv_clearBuffer h with latch_iff := ⟨nofun, nofun⟩, pos_le := Nat.le_refl _, latch_payload := nofun }
  | rxReturn =>
    obtain ⟨hmay, rfl⟩ := execRxReturn_next.mp he
    have hnone := dsp_eq_none h (by rw [State.mayReturn_run hmay]; nofun)
    exact { h with latch_iff := by simp [hnone] }
  | _ => cases hi

/-! ### Every step -/

theorem reset_rxInv : State.reset.RxInv where
  len_le := Nat.zero_le _
  filled := rfl
  latch_iff := ⟨nofun, nofun⟩
  pos_le := Nat.le_refl _
  latch_payload := nofun

theorem effect_rxInv (he : Effect s sel t) (h : s.RxInv) : t.RxInv := by
  cases he with
  | link hi he => exact exec_isReceive_rxInv h hi he
  | invoke _ _ hu =>
    rw [runHandler_writes hu]
    exact rxInv_unlatch (rxInv_of_linkView h rfl)
  | output e => exact rxInv_emit h e
  | reset => exact rxInv_of_linkView reset_rxInv rfl
  | register | unregister | start | build | enter | leave | move => exact rxInv_of_linkView h rfl

/-- Settles O57: each effect keeps the invariant. -/
theorem rxInvariantIsKept : Obligations.RxInvariantIsKept := by
  unfold Obligations.RxInvariantIsKept
  intro s t h hstep
  obtain ⟨turn, -, he⟩ := step_effect hstep
  exact effect_rxInv he (rxInv_popTurn h)

end Sys2Proof.Proofs.RxInvariant
end

section
/-! The invariants of the registry and of the waiters (R36 c, f, h, R29), and what the waiters never lose: a completed
one stays as it is (R36 g), and ids are only issued. -/

namespace Sys2Proof.Proofs.StoreInvariants

open Sys2Proof Sys2Proof.Machine Sys2Proof.Proofs.Dispatcher Sys2Proof.Proofs.Effects

variable {s t u : State} {sel : Selection} {w : Nat} {v : Waiter} {p : Bytes}

/-! ### The registry -/

theorem regyInv_congr (h : s.RegyInv) (hregy : t.regy = s.regy) (heid : t.nextEid = s.nextEid)
    (hparams : t.params = s.params) : t.RegyInv := by
  obtain ⟨hrising, hissued, hwithin⟩ := h
  rw [← hregy] at hrising hissued hwithin
  rw [← heid] at hissued
  rw [← hparams] at hwithin
  exact ⟨hrising, hissued, hwithin⟩

/-- R201: the new entry's id is above those issued before, and there is a place for it. -/
theorem regyInv_register (h : s.RegyInv) (hroom : s.registryFull = false) (d m : Byte) (hnd : Handler) :
    (s.register d m hnd).RegyInv where
  rising := List.pairwise_append.mpr ⟨h.rising, List.pairwise_singleton _ _, by
    intro a ha b hb
    obtain rfl := List.mem_singleton.mp hb
    exact h.issued a ha⟩
  issued e he := by
    rcases List.mem_append.mp he with he | he
    · exact Nat.lt_succ_of_lt (h.issued e he)
    · obtain rfl := List.mem_singleton.mp he
      exact Nat.lt_succ_self _
  within cap hcap := by
    have hlt := (s.registryFull_eq_false_iff).mp hroom cap hcap
    simpa using hlt

/-- R202: what is left keeps its order. -/
theorem regyInv_unregister (h : s.RegyInv) (e : Nat) : (s.unregister e).RegyInv where
  rising := h.rising.filter _
  issued x hx := h.issued x (List.mem_of_mem_filter hx)
  within cap hcap := (List.length_filter_le _ _).trans (h.within cap hcap)

theorem effect_regyInv (he : Effect s sel t) (h : s.RegyInv) : t.RegyInv := by
  cases he with
  | link hi he =>
    have hl := exec_isReceive_linkOnly hi he
    exact regyInv_congr h hl.regy hl.nextEid hl.params
  | invoke _ _ hu =>
    rw [runHandler_writes hu]
    exact regyInv_congr h rfl rfl rfl
  | output | start | build | move => exact regyInv_congr h rfl rfl rfl
  | register hroom => exact regyInv_congr (regyInv_register h hroom _ _ _) rfl rfl rfl
  | unregister => exact regyInv_unregister h _
  | enter _ _ _ hroom => exact regyInv_congr (regyInv_register h hroom _ _ _) rfl rfl rfl
  | leave => exact regyInv_congr (regyInv_unregister h _) rfl rfl rfl
  | reset => exact ⟨List.Pairwise.nil, nofun, fun _ _ => Nat.zero_le _⟩

/-! ### The waiters -/

theorem waiterInv_congr (h : s.WaiterInv) (hwaiters : t.waiters = s.waiters) (hwid : t.nextWid = s.nextWid) :
    t.WaiterInv := by
  obtain ⟨hrising, hallocated, hopen, hdone⟩ := h
  rw [← hwaiters] at hrising hallocated hopen hdone
  rw [← hwid] at hallocated
  exact ⟨hrising, hallocated, hopen, hdone⟩

/-- A record of the shape R29 gives: open and empty, or completed with exactly its payload. -/
def WaiterOk (v : Waiter) : Prop :=
  (v.done = false → v.plen = 0 ∧ v.slot = []) ∧
    (v.done = true → v.plen ≤ Config.maxPayload ∧ Table.dense v.slot v.plen)

/-- The shape of every record is what the invariant says of them. -/
theorem waiterInv_lookup (h : s.WaiterInv) (hv : Table.lookup s.waiters w = some v) : WaiterOk v :=
  ⟨h.open_one w v hv, h.completed w v hv⟩

theorem waiterInv_setWaiter (h : s.WaiterInv) (w : Nat) (hv : WaiterOk v) : (s.setWaiter w v).WaiterInv := by
  have hall : ∀ w' v', Table.lookup (s.setWaiter w v).waiters w' = some v' → WaiterOk v' := by
    intro w' v' hv'
    rw [State.setWaiter_waiters, Table.lookup_set] at hv'
    split_ifs at hv'
    · cases hv'; exact hv
    · exact waiterInv_lookup h hv'
  exact {
    rising := Table.set_wf h.rising w v
    allocated := fun w' hw' => by
      rw [State.setWaiter_waiters, Table.lookup_set]
      split_ifs
      · rfl
      · exact h.allocated w' hw'
    open_one := fun w' v' hv' => (hall w' v' hv').1
    completed := fun w' v' hv' => (hall w' v' hv').2 }

theorem waiterOk_fresh : WaiterOk Waiter.fresh := ⟨fun _ => ⟨rfl, rfl⟩, nofun⟩

/-- R207: an empty slot takes exactly the payload. -/
theorem waiterOk_complete (hslot : v.slot = []) (hp : p.length ≤ Config.maxPayload) : WaiterOk (v.complete p) :=
  ⟨nofun, fun _ => ⟨hp, by
    have hdense : Table.dense (Memory.writeBytes [] 0 p) (0 + p.length) := Memory.dense_writeBytes rfl p
    rwa [Nat.zero_add, ← hslot] at hdense⟩⟩

/-- R29: the slot of an open waiter is empty, and so is the one of an id without a record. -/
theorem waiterAt_slot (h : s.WaiterInv) (hopen : (s.waiterAt w).done = false) : (s.waiterAt w).slot = [] := by
  cases hv : Table.lookup s.waiters w with
  | none => rw [State.waiterAt_none hv]
  | some v =>
    rw [State.waiterAt_some hv] at hopen ⊢
    exact (h.open_one w v hv hopen).2

theorem completeWaiter_waiterInv (h : s.WaiterInv) (hc : completeWaiter w p s = .next t) : t.WaiterInv := by
  have hnote : (s.noteDraw w).WaiterInv := waiterInv_congr h rfl rfl
  rcases completeWaiter_next.mp hc with ⟨-, rfl⟩ | ⟨hopen, hp, rfl⟩
  · exact hnote
  · exact waiterInv_setWaiter hnote w (waiterOk_complete (waiterAt_slot h hopen) hp)

theorem runHandler_waiterInv {l : Latch} (h : s.WaiterInv) (hu : runHandler l s = .next u) : u.WaiterInv := by
  rcases runHandler_next.mp hu with ⟨w, -, hc⟩ | ⟨tag, -, rfl⟩
  · exact completeWaiter_waiterInv h hc
  · exact waiterInv_congr h rfl rfl

/-- R232: the new waiter has the next id. -/
theorem waiterInv_build (h : s.WaiterInv) :
    State.WaiterInv { s.setWaiter s.nextWid Waiter.fresh with nextWid := s.nextWid + 1 } :=
  { waiterInv_setWaiter h s.nextWid waiterOk_fresh with
    allocated := fun w hw => by
      rw [State.setWaiter_waiters, Table.lookup_set]
      split_ifs with heq
      · rfl
      · exact h.allocated w (by change w < s.nextWid + 1 at hw; omega) }

theorem effect_waiterInv (he : Effect s sel t) (h : s.WaiterInv) : t.WaiterInv := by
  cases he with
  | link hi he =>
    have hl := exec_isReceive_linkOnly hi he
    exact waiterInv_congr h hl.waiters hl.nextWid
  | invoke _ _ hu => exact waiterInv_congr (runHandler_waiterInv h hu) rfl rfl
  | output | register | unregister | start | enter | leave | move => exact waiterInv_congr h rfl rfl
  | build => exact waiterInv_congr (waiterInv_build h) rfl rfl
  | reset => exact ⟨List.Pairwise.nil, nofun, nofun, nofun⟩

/-- Settles O58: each effect keeps each of the two invariants. -/
theorem registryAndWaiterInvariantsAreKept : Obligations.RegistryAndWaiterInvariantsAreKept := by
  unfold Obligations.RegistryAndWaiterInvariantsAreKept
  intro s t hstep
  obtain ⟨turn, -, he⟩ := step_effect hstep
  exact ⟨fun h => effect_regyInv he (regyInv_congr h rfl rfl rfl),
    fun h => effect_waiterInv he (waiterInv_congr h rfl rfl)⟩

/-! ### What is never lost -/

/-- `t` may come after `s`: no id is taken back, and a completed waiter of an issued id is as it was. -/
structure Grows (s t : State) : Prop where
  nextWid : s.nextWid ≤ t.nextWid
  nextEid : s.nextEid ≤ t.nextEid
  done    : ∀ w v, w < s.nextWid → Table.lookup s.waiters w = some v → v.done = true →
    Table.lookup t.waiters w = some v

theorem grows_of_eq (hwid : t.nextWid = s.nextWid) (heid : s.nextEid ≤ t.nextEid) (hwaiters : t.waiters = s.waiters) :
    Grows s t :=
  ⟨hwid.ge, heid, fun _ _ _ hv _ => by rw [hwaiters]; exact hv⟩

/-- R207, R210: the test-and-set leaves every completed waiter alone. -/
theorem completeWaiter_keeps_done {w' : Nat} (hc : completeWaiter w' p s = .next t)
    (hv : Table.lookup s.waiters w = some v) (hdone : v.done = true) : Table.lookup t.waiters w = some v := by
  rcases completeWaiter_next.mp hc with ⟨-, rfl⟩ | ⟨hopen, -, rfl⟩
  · exact hv
  · have hne : w ≠ w' := by
      rintro rfl
      rw [State.waiterAt_some hv, hdone] at hopen
      cases hopen
    exact (Table.lookup_set_other _ _ hne).trans hv

theorem runHandler_grows {l : Latch} (hu : runHandler l s = .next u) : Grows s u := by
  have hw := runHandler_writes hu
  refine ⟨(congrArg State.nextWid hw).ge, (congrArg State.nextEid hw).ge, fun w v _ hv hdone => ?_⟩
  rcases runHandler_next.mp hu with ⟨w', -, hc⟩ | ⟨tag, -, rfl⟩
  · exact completeWaiter_keeps_done hc hv hdone
  · exact hv

/-- Only `RESET` takes anything back, and it leaves no call. -/
theorem effect_grows (he : Effect s sel t) :
    Grows s t ∨ (sel = .op .reset ∧ t.calls = [] ∧ t.nextCall = 0) := by
  cases he with
  | link hi he =>
    have hl := exec_isReceive_linkOnly hi he
    exact .inl (grows_of_eq hl.nextWid hl.nextEid.ge hl.waiters)
  | invoke _ _ hu => exact .inl { runHandler_grows hu with }
  | output | unregister | start | leave | move => exact .inl (grows_of_eq rfl (Nat.le_refl _) rfl)
  | register | enter => exact .inl (grows_of_eq rfl (Nat.le_succ _) rfl)
  | build =>
    refine .inl ⟨Nat.le_succ _, Nat.le_refl _, fun w v hw hv _ => ?_⟩
    exact (Table.lookup_set_other _ _ hw.ne).trans hv
  | reset => exact .inr ⟨rfl, rfl, rfl⟩

/-- R320: a step whose turn is not the host's `RESET` does not reset. -/
theorem select_ne_reset {turn : Turn} (hturn : s.schedule.head? = some turn) (hnext : ¬ s.resetNext) :
    select s turn ≠ .op .reset :=
  fun hsel => hnext (by rw [State.resetNext, hturn, turn_of_select_command rfl hsel])

/-- Settles O38: no effect but that of `RESET` changes it. -/
theorem completedWaiterNeverChanges : Obligations.CompletedWaiterNeverChanges := by
  unfold Obligations.CompletedWaiterNeverChanges
  intro s t w v _ hstep hnext hw hv hdone
  obtain ⟨turn, hturn, he⟩ := step_effect hstep
  obtain g | ⟨hreset, -⟩ := effect_grows he
  · exact g.done w v hw hv hdone
  · exact absurd hreset (select_ne_reset hturn hnext)

end Sys2Proof.Proofs.StoreInvariants
end

section
/-! The phase table of the calls (R230, R244), and the handlers' waiters (R201). -/

namespace Sys2Proof.Proofs.CallInvariant

open Sys2Proof Sys2Proof.Machine Sys2Proof.Proofs.Effects Sys2Proof.Proofs.StoreInvariants

variable {s t u : State} {sel : Selection} {c : Nat} {k k' : Call}

/-! ### The phase table over a growing state -/

theorem widAllocated_mono (g : Grows s t) (h : s.widAllocated k) : t.widAllocated k :=
  let ⟨w, hw, hlt⟩ := h
  ⟨w, hw, hlt.trans_le g.nextWid⟩

theorem admitted_mono (g : Grows s t) (h : s.Admitted k) : t.Admitted k where
  wid := widAllocated_mono g h.wid
  eid := let ⟨e, he, hlt⟩ := h.eid; ⟨e, he, hlt.trans_le g.nextEid⟩
  fits := h.fits

/-- The waiter of a completed call, whose record is complete. -/
theorem callDone_iff : s.callDone k ↔ ∃ w v, k.wid = some w ∧ Table.lookup s.waiters w = some v ∧ v.done = true := by
  unfold State.callDone State.doneBit
  cases k.wid with
  | none => simp
  | some w => simp [Option.map_eq_some_iff]

theorem callDone_mono (g : Grows s t) (ha : s.widAllocated k) (h : s.callDone k) : t.callDone k := by
  obtain ⟨w, v, hw, hv, hdone⟩ := callDone_iff.mp h
  obtain ⟨w', hw', hlt⟩ := ha
  obtain rfl : w' = w := by rw [hw] at hw'; exact (Option.some.inj hw').symm
  exact callDone_iff.mpr ⟨w', v, hw, g.done w' v hlt hv hdone, hdone⟩

theorem decided_mono (g : Grows s t) (ha : s.widAllocated k) (h : s.Decided k) : t.Decided k := by
  rcases h with ⟨hout, hdone⟩ | hout | hout
  · exact .inl ⟨hout, callDone_mono g ha hdone⟩
  · exact .inr (.inl hout)
  · exact .inr (.inr hout)

theorem ended_mono (g : Grows s t) (h : s.Ended k) : t.Ended k := by
  rcases h with ⟨ha, hd, hst⟩ | href
  · exact .inl ⟨admitted_mono g ha, decided_mono g ha.wid hd, hst⟩
  · exact .inr href

/-! ### The phase table, a line a phase -/

theorem legalCall_new (h : k.ph = .new) :
    s.LegalCall k ↔ k.st = .idle ∧ k.wid = none ∧ k.eid = none ∧ k.out = .undecided ∧ k.res = none := by
  rw [State.LegalCall, h]

theorem legalCall_built (h : k.ph = .built) :
    s.LegalCall k ↔ k.st = .idle ∧ s.widAllocated k ∧ k.eid = none ∧ k.payload.length ≤ Config.maxPayload ∧
      k.out = .undecided ∧ k.res = none := by
  rw [State.LegalCall, h]

theorem legalCall_enc (h : k.ph = .enc) :
    s.LegalCall k ↔ k.st = .registered ∧ s.Admitted k ∧ k.out = .undecided ∧ k.res = none := by
  rw [State.LegalCall, h]

theorem legalCall_send (h : k.ph = .send) :
    s.LegalCall k ↔ k.st = .registered ∧ s.Admitted k ∧ k.out = .undecided ∧ k.res = none ∧
      k.wire = encWire (frameOf k.dst k.msg k.payload) ∧ k.cur ≤ k.wire.length := by
  rw [State.LegalCall, h]

theorem legalCall_wait (h : k.ph = .wait) :
    s.LegalCall k ↔ k.st = .registered ∧ s.Admitted k ∧ k.out = .undecided ∧ k.res = none ∧
      k.cur = k.wire.length := by
  rw [State.LegalCall, h]

theorem legalCall_unreg (h : k.ph = .unreg) :
    s.LegalCall k ↔ k.st = .registered ∧ s.Admitted k ∧ s.Decided k ∧ k.res = none := by
  rw [State.LegalCall, h]

theorem legalCall_ret (h : k.ph = .ret) : s.LegalCall k ↔ s.Ended k ∧ k.res = none := by
  rw [State.LegalCall, h]

theorem legalCall_fin (h : k.ph = .fin) : s.LegalCall k ↔ s.Ended k ∧ k.res.isSome = true := by
  rw [State.LegalCall, h]

theorem legalCall_mono (g : Grows s t) (h : s.LegalCall k) : t.LegalCall k := by
  cases hph : k.ph with
  | new => exact (legalCall_new hph).mpr ((legalCall_new hph).mp h)
  | built =>
    obtain ⟨hst, hwid, hrest⟩ := (legalCall_built hph).mp h
    exact (legalCall_built hph).mpr ⟨hst, widAllocated_mono g hwid, hrest⟩
  | enc =>
    obtain ⟨hst, ha, hrest⟩ := (legalCall_enc hph).mp h
    exact (legalCall_enc hph).mpr ⟨hst, admitted_mono g ha, hrest⟩
  | send =>
    obtain ⟨hst, ha, hrest⟩ := (legalCall_send hph).mp h
    exact (legalCall_send hph).mpr ⟨hst, admitted_mono g ha, hrest⟩
  | wait =>
    obtain ⟨hst, ha, hrest⟩ := (legalCall_wait hph).mp h
    exact (legalCall_wait hph).mpr ⟨hst, admitted_mono g ha, hrest⟩
  | unreg =>
    obtain ⟨hst, ha, hd, hres⟩ := (legalCall_unreg hph).mp h
    exact (legalCall_unreg hph).mpr ⟨hst, admitted_mono g ha, decided_mono g ha.wid hd, hres⟩
  | ret =>
    obtain ⟨he, hres⟩ := (legalCall_ret hph).mp h
    exact (legalCall_ret hph).mpr ⟨ended_mono g he, hres⟩
  | fin =>
    obtain ⟨he, hres⟩ := (legalCall_fin hph).mp h
    exact (legalCall_fin hph).mpr ⟨ended_mono g he, hres⟩

/-! ### The steps of one call -/

/-- Being admitted is a matter of the waiter, the entry and the payload alone. -/
theorem admitted_of_eq (h : s.Admitted k) (hwid : k'.wid = k.wid := by rfl) (heid : k'.eid = k.eid := by rfl)
    (hpayload : k'.payload = k.payload := by rfl) : s.Admitted k' := by
  obtain ⟨hw, he, hfits⟩ := h
  exact ⟨by rwa [State.widAllocated, hwid], by rwa [State.eidIssued, heid], by rwa [hpayload]⟩

/-- A move that touches only the record keeps to the phase table. -/
theorem callMove_legal (hm : CallMove s k k') (h : s.LegalCall k) : s.LegalCall k' := by
  cases hm with
  | refuseLong hph =>
    obtain ⟨-, -, heid, -, hres⟩ := (legalCall_new hph).mp h
    exact (legalCall_ret rfl).mpr ⟨.inr ⟨rfl, heid, _, rfl⟩, hres⟩
  | refuseFull hph =>
    obtain ⟨-, -, heid, -, -, hres⟩ := (legalCall_built hph).mp h
    exact (legalCall_ret rfl).mpr ⟨.inr ⟨rfl, heid, _, rfl⟩, hres⟩
  | encode hph =>
    obtain ⟨hst, ha, hout, hres⟩ := (legalCall_enc hph).mp h
    exact (legalCall_send rfl).mpr ⟨hst, admitted_of_eq ha, hout, hres, rfl, Nat.zero_le _⟩
  | sendByte hph hlt =>
    obtain ⟨hst, ha, hout, hres, hwire, -⟩ := (legalCall_send hph).mp h
    exact (legalCall_send (k := { k with cur := k.cur + 1 }) hph).mpr
      ⟨hst, admitted_of_eq ha, hout, hres, hwire, hlt⟩
  | sent hph hend =>
    obtain ⟨hst, ha, hout, hres, -, -⟩ := (legalCall_send hph).mp h
    exact (legalCall_wait rfl).mpr ⟨hst, admitted_of_eq ha, hout, hres, hend⟩
  | fail code hph =>
    obtain ⟨hst, ha, -, hres, -, -⟩ := (legalCall_send hph).mp h
    exact (legalCall_unreg rfl).mpr ⟨hst, admitted_of_eq ha, .inr (.inr ⟨code, rfl⟩), hres⟩
  | wake hph hdone =>
    obtain ⟨hst, ha, -, hres, -⟩ := (legalCall_wait hph).mp h
    exact (legalCall_unreg rfl).mpr ⟨hst, admitted_of_eq ha, .inl ⟨rfl, hdone⟩, hres⟩
  | expire hph =>
    obtain ⟨hst, ha, -, hres, -⟩ := (legalCall_wait hph).mp h
    exact (legalCall_unreg rfl).mpr ⟨hst, admitted_of_eq ha, .inr (.inl rfl), hres⟩
  | finish r hph =>
    obtain ⟨hended, -⟩ := (legalCall_ret hph).mp h
    refine (legalCall_fin rfl).mpr ⟨?_, rfl⟩
    rcases hended with ⟨ha, hd, hst⟩ | href
    · exact .inl ⟨admitted_of_eq ha, hd, hst⟩
    · exact .inr href

/-! ### The calls together -/

theorem callInv_of_eq (g : Grows s t) (h : s.CallInv) (hcalls : t.calls = s.calls) (hnext : t.nextCall = s.nextCall) :
    t.CallInv where
  dense := by rw [hcalls, hnext]; exact h.dense
  legal c k hk := legalCall_mono g (h.legal c k (by rwa [← hcalls]))

theorem callInv_popTurn (h : s.CallInv) : s.popTurn.CallInv :=
  callInv_of_eq (s := s) (grows_of_eq rfl (Nat.le_refl _) rfl) h rfl rfl

/-- One call's record is replaced by a legal one. -/
theorem callInv_set (g : Grows s t) (h : s.CallInv) (hk : Table.lookup s.calls c = some k) (hk' : t.LegalCall k')
    (hcalls : t.calls = Table.set s.calls c k') (hnext : t.nextCall = s.nextCall) : t.CallInv where
  dense := by rw [hcalls, hnext]; exact h.dense.set_old (by rw [hk]; rfl) k'
  legal c' k'' hk'' := by
    rw [hcalls, Table.lookup_set] at hk''
    split_ifs at hk''
    · cases hk''; exact hk'
    · exact legalCall_mono g (h.legal c' k'' hk'')

/-- R231: the new call is in phase `NEW`, with nothing allocated. -/
theorem callInv_start (g : Grows s t) (h : s.CallInv) {d m ed em : Byte} {p : Bytes}
    (hcalls : t.calls = Table.set s.calls s.nextCall (Call.fresh d m p ed em)) (hnext : t.nextCall = s.nextCall + 1) :
    t.CallInv where
  dense := by rw [hcalls, hnext]; exact h.dense.set_next _
  legal c k hk := by
    rw [hcalls, Table.lookup_set] at hk
    split_ifs at hk
    · cases hk; exact (legalCall_new rfl).mpr ⟨rfl, rfl, rfl, rfl, rfl⟩
    · exact legalCall_mono g (h.legal c k hk)

theorem callInv_of_noCalls (hcalls : t.calls = []) (hnext : t.nextCall = 0) : t.CallInv where
  dense := by rw [hcalls, hnext]; rfl
  legal c k hk := by rw [hcalls] at hk; cases hk

theorem effect_callInv (he : Effect s sel t) (h : s.CallInv) : t.CallInv := by
  obtain g | ⟨-, hcalls, hnext⟩ := effect_grows he
  case inr => exact callInv_of_noCalls hcalls hnext
  cases he with
  | link hi he =>
    have hl := exec_isReceive_linkOnly hi he
    exact callInv_of_eq g h hl.calls hl.nextCall
  | invoke _ _ hu => exact callInv_of_eq g h (by rw [runHandler_writes hu]; rfl) (by rw [runHandler_writes hu]; rfl)
  | output | register | unregister => exact callInv_of_eq g h rfl rfl
  | start => exact callInv_start g h rfl rfl
  | build hk hph hfits =>
    obtain ⟨hst, -, heid, hout, hres⟩ := (legalCall_new hph).mp (h.legal _ _ hk)
    refine callInv_set g h hk ?_ rfl rfl
    exact (legalCall_built rfl).mpr ⟨hst, ⟨_, rfl, Nat.lt_succ_self _⟩, heid, hfits, hout, hres⟩
  | enter hk hph hw =>
    obtain ⟨-, hwid, -, hfits, hout, hres⟩ := (legalCall_built hph).mp (h.legal _ _ hk)
    refine callInv_set g h hk ?_ rfl rfl
    exact (legalCall_enc rfl).mpr ⟨rfl, ⟨hwid, ⟨_, rfl, Nat.lt_succ_self _⟩, hfits⟩, hout, hres⟩
  | leave hk hph he hst =>
    obtain ⟨-, ha, hd, hres⟩ := (legalCall_unreg hph).mp (h.legal _ _ hk)
    refine callInv_set g h hk ?_ rfl rfl
    exact (legalCall_ret rfl).mpr ⟨.inl ⟨admitted_of_eq (admitted_mono g ha), decided_mono g ha.wid hd, hst⟩, hres⟩
  | move hk hm => exact callInv_set g h hk (legalCall_mono g (callMove_legal hm (h.legal _ _ hk))) rfl rfl
  | reset => exact callInv_of_noCalls rfl rfl

/-! ### The handlers -/

theorem handlerAllocated_mono {hnd : Handler} (hle : s.nextWid ≤ t.nextWid) (h : s.handlerAllocated hnd) :
    t.handlerAllocated hnd :=
  fun w hw => (h w hw).trans_le hle

theorem handlerInv_of_le (h : s.HandlerInv) (hle : s.nextWid ≤ t.nextWid) (hregy : t.regy ⊆ s.regy)
    (hdsp : ∀ l, t.dsp = some l → s.dsp = some l) : t.HandlerInv where
  entries e he := handlerAllocated_mono hle (h.entries e (hregy he))
  latched l hl := handlerAllocated_mono hle (h.latched l (hdsp l hl))

/-- R201: the operand of a registration is what the invariant asks of the new entry. -/
theorem handlerInv_register (h : s.HandlerInv) {hnd : Handler} (ha : s.handlerAllocated hnd) (d m : Byte) :
    (s.register d m hnd).HandlerInv where
  entries e he := by
    obtain he | he := List.mem_append.mp he
    · exact h.entries e he
    · obtain rfl := List.mem_singleton.mp he
      exact ha
  latched := h.latched

/-- The RX agent latches handlers of registered entries only. -/
theorem exec_isReceive_latch {i : Instr} (hi : isReceive i = true) (he : exec i s = .next t) :
    ∀ l, t.dsp = some l → s.dsp = some l ∨ ∃ e ∈ s.regy, l.hnd = e.hnd := by
  intro l hl
  cases i with
  | rxbEnd =>
    obtain heq | ⟨d, m, rest, e, -, -, -, hscan, hdsp⟩ := Assembler.execRxbEnd_latch he
    · exact .inl (heq ▸ hl)
    · obtain rfl := Option.some.inj (hl.symm.trans hdsp)
      exact .inr ⟨e, (scan_some hscan).1, rfl⟩
  | rxReset => obtain ⟨-, rfl⟩ := execRxReset_next.mp he; cases hl
  | rxbEscEnd => obtain ⟨-, rfl⟩ := execRxbEscEnd_next.mp he; exact .inl hl
  | rxbEscEsc => obtain ⟨-, rfl⟩ := execRxbEscEsc_next.mp he; exact .inl hl
  | rxbBadEsc b => obtain ⟨-, rfl⟩ := execRxbBadEsc_next.mp he; exact .inl hl
  | rxbEsc => obtain ⟨-, rfl⟩ := execRxbEsc_next.mp he; exact .inl hl
  | rxbLit b => obtain ⟨-, rfl⟩ := execRxbLit_next.mp he; exact .inl hl
  | rxChunk data => obtain ⟨-, rfl⟩ := execRxChunk_next.mp he; exact .inl hl
  | rxReturn => obtain ⟨-, rfl⟩ := execRxReturn_next.mp he; exact .inl hl
  | _ => cases hi

/-- R233: the entry of a call names the call's own waiter. -/
theorem handlerAllocated_of_built (h : s.LegalCall k) (hph : k.ph = .built) {w : Nat} (hw : k.wid = some w) :
    s.handlerAllocated (.waiter w) := by
  obtain ⟨-, ⟨w', hw', hlt⟩, -⟩ := (legalCall_built hph).mp h
  obtain rfl := Option.some.inj (hw.symm.trans hw')
  rintro _ ⟨⟩
  exact hlt

theorem exec_isReceive_handlerInv {i : Instr} (hi : isReceive i = true) (he : exec i s = .next t) (h : s.HandlerInv) :
    t.HandlerInv := by
  have hl := exec_isReceive_linkOnly hi he
  refine ⟨fun e hmem => handlerAllocated_mono hl.nextWid.ge (h.entries e (hl.regy ▸ hmem)), fun l hd =>
    handlerAllocated_mono hl.nextWid.ge ?_⟩
  obtain hsame | ⟨e, hmem, heq⟩ := exec_isReceive_latch hi he l hd
  · exact h.latched l hsame
  · rw [heq]; exact h.entries e hmem

theorem effect_handlerInv (he : Effect s sel t) (hreg : ∀ d m hnd, sel = .op (.reg d m hnd) → s.handlerAllocated hnd)
    (hc : s.CallInv) (h : s.HandlerInv) : t.HandlerInv := by
  cases he with
  | link hi he => exact exec_isReceive_handlerInv hi he h
  | invoke _ _ hu =>
    rw [runHandler_writes hu]
    exact ⟨h.entries, nofun⟩
  | output | start | move => exact ⟨h.entries, h.latched⟩
  | build => exact handlerInv_of_le h (Nat.le_succ _) (List.Subset.refl _) fun _ hl => hl
  | register =>
    have hr := handlerInv_register h (hreg _ _ _ rfl)
    exact ⟨(hr _ _).entries, h.latched⟩
  | enter hk hph hw =>
    have hr := handlerInv_register h (handlerAllocated_of_built (hc.legal _ _ hk) hph hw)
    exact ⟨(hr _ _).entries, h.latched⟩
  | unregister | leave => exact ⟨fun e he => h.entries e (List.mem_of_mem_filter he), h.latched⟩
  | reset => exact ⟨nofun, nofun⟩

/-- A handler whose waiter has a record takes no free value. -/
theorem runHandler_draws {l : Latch} (hw : s.WaiterInv) (ha : s.handlerAllocated l.hnd)
    (hu : runHandler l s = .next u) : u.draws = s.draws := by
  rcases runHandler_next.mp hu with ⟨w, hnd, hc⟩ | ⟨tag, -, rfl⟩
  · obtain ⟨v, hv⟩ := Option.isSome_iff_exists.mp (hw.allocated w (ha w hnd))
    have hnote : (s.noteDraw w).draws = s.draws := congrArg State.draws (State.noteDraw_some hv)
    rcases completeWaiter_next.mp hc with ⟨-, rfl⟩ | ⟨-, -, rfl⟩ <;> exact hnote
  · rfl

theorem effect_draws (he : Effect s sel t) (hw : s.WaiterInv) (h : s.HandlerInv) : t.draws = s.draws := by
  cases he with
  | link hi he => exact (exec_isReceive_linkOnly hi he).draws
  | invoke _ hl hu =>
    have hdraws := runHandler_draws hw (h.latched _ hl) hu
    exact hdraws
  | output | register | unregister | start | build | enter | leave | move | reset => rfl

/-- Settles O59: each effect keeps the phase table, and the handlers too where the registered one is allocated. -/
theorem callAndHandlerInvariantsAreKept : Obligations.CallAndHandlerInvariantsAreKept := by
  unfold Obligations.CallAndHandlerInvariantsAreKept
  intro s t h hstep
  obtain ⟨turn, hturn, he⟩ := step_effect hstep
  have hc := callInv_popTurn h.call
  refine ⟨effect_callInv he hc, fun hh hreg => ?_⟩
  have hh' : s.popTurn.HandlerInv := ⟨hh.entries, hh.latched⟩
  have hoperand : ∀ d m hnd, select s turn = .op (.reg d m hnd) → s.handlerAllocated hnd := fun d m hnd hsel =>
    hreg d m hnd (by rw [hturn, turn_of_select_command rfl hsel])
  have hdraws := effect_draws he (waiterInv_congr h.waiter rfl rfl) hh'
  exact ⟨effect_handlerInv he hoperand hc hh', hdraws⟩

end Sys2Proof.Proofs.CallInvariant
end

section
/-! A call and its entry (R36 e, R245), the transitions of a call's state (R244), and that the engine never faults
(R280). -/

namespace Sys2Proof.Proofs.Ownership

open Sys2Proof Sys2Proof.Machine Sys2Proof.Proofs.Effects Sys2Proof.Proofs.StoreInvariants
open Sys2Proof.Proofs.CallInvariant

variable {s t u : State} {sel : Selection} {c e : Nat} {k k' : Call}

/-! ### The transitions of a call's state -/

/-- R244: one step of a call's state. -/
def StateStep (a b : CallState) : Prop :=
  b = a ∨ (a = .idle ∧ b = .registered) ∨ (a = .idle ∧ b = .refused) ∨
    (a = .registered ∧ (b = .completed ∨ b = .timedOut ∨ b = .wrFailed))

/-- A move that touches only the record refuses an idle call, or leaves its state. -/
theorem callMove_st (hm : CallMove s k k') (h : s.LegalCall k) :
    k'.st = k.st ∨ (k.st = .idle ∧ k'.st = .refused) := by
  cases hm with
  | refuseLong hph => exact .inr ⟨((legalCall_new hph).mp h).1, rfl⟩
  | refuseFull hph => exact .inr ⟨((legalCall_built hph).mp h).1, rfl⟩
  | encode | sendByte | sent | fail | wake | expire | finish => exact .inl rfl

theorem callMove_eid (hm : CallMove s k k') : k'.eid = k.eid := by cases hm <;> rfl

theorem terminal_states {out : CallOut} {st : CallState} (h : out.terminal = some st) :
    st = .completed ∨ st = .timedOut ∨ st = .wrFailed := by
  rcases Arbiter.terminal_eq_some_iff.mp h with ⟨-, rfl⟩ | ⟨-, rfl⟩ | ⟨-, -, rfl⟩ <;> simp

/-- The call that steps takes one step of R244, every other stays. -/
theorem lookup_set_stateStep {t' : Table Call} {c' : Nat} {k'' : Call} (hk : Table.lookup s.calls c = some k)
    (hk' : Table.lookup s.calls c' = some k') (ht : t' = Table.set s.calls c' k'') (hst : StateStep k'.st k''.st) :
    ∃ j, Table.lookup t' c = some j ∧ StateStep k.st j.st := by
  rw [ht, Table.lookup_set]
  split_ifs with heq
  · subst heq
    obtain rfl := Option.some.inj (hk.symm.trans hk')
    exact ⟨k'', rfl, hst⟩
  · exact ⟨k, hk, .inl rfl⟩

theorem effect_stateStep (he : Effect s sel t) (hreset : sel ≠ .op .reset) (h : s.CallInv)
    (hk : Table.lookup s.calls c = some k) : ∃ j, Table.lookup t.calls c = some j ∧ StateStep k.st j.st := by
  have same : t.calls = s.calls → ∃ j, Table.lookup t.calls c = some j ∧ StateStep k.st j.st :=
    fun heq => ⟨k, by rw [heq]; exact hk, .inl rfl⟩
  cases he with
  | link hi he => exact same (exec_isReceive_linkOnly hi he).calls
  | invoke _ _ hu => exact same (by rw [runHandler_writes hu]; rfl)
  | output | register | unregister => exact same rfl
  | start =>
    have hne : c ≠ s.nextCall := ((h.dense.isSome_iff c).mp (by rw [hk]; rfl)).ne
    exact ⟨k, (Table.lookup_set_other _ _ hne).trans hk, .inl rfl⟩
  | build hk' hph => exact lookup_set_stateStep hk hk' rfl (.inl rfl)
  | enter hk' hph =>
    have hidle := ((legalCall_built hph).mp (h.legal _ _ hk')).1
    exact lookup_set_stateStep hk hk' rfl (.inr (.inl ⟨hidle, rfl⟩))
  | leave hk' hph _ hst =>
    have hreg := ((legalCall_unreg hph).mp (h.legal _ _ hk')).1
    exact lookup_set_stateStep hk hk' rfl (.inr (.inr (.inr ⟨hreg, terminal_states hst⟩)))
  | move hk' hm =>
    refine lookup_set_stateStep hk hk' rfl ?_
    exact (callMove_st hm (h.legal _ _ hk')).imp_right fun href => .inr (.inl href)
  | reset => exact absurd rfl hreset

/-- Settles O50: each effect but that of `RESET` is a step of R244 on each call. -/
theorem callStateTransitions : Obligations.CallStateTransitions := by
  unfold Obligations.CallStateTransitions
  intro s t c k h hstep hnext hk
  obtain ⟨turn, hturn, he⟩ := step_effect hstep
  exact effect_stateStep he (select_ne_reset hturn hnext) (callInv_popTurn h.call) hk

/-! ### A call and its entry -/

/-- R36 e: the registry holds an entry with the call's entry id. -/
def Entered (regy : List Entry) (k : Call) : Prop := ∃ e ∈ regy, k.eid = some e.eid

theorem entered_append_iff {regy : List Entry} {n : Entry} :
    Entered (regy ++ [n]) k ↔ Entered regy k ∨ k.eid = some n.eid := by
  simp only [Entered, List.mem_append, List.mem_singleton, or_and_right, exists_or, exists_eq_left]

theorem entered_filter_iff {regy : List Entry} :
    Entered (regy.filter (fun x => x.eid != e)) k ↔ Entered regy k ∧ k.eid ≠ some e := by
  simp only [Entered, List.mem_filter, bne_iff_ne]
  constructor
  · rintro ⟨x, ⟨hx, hne⟩, hk⟩
    exact ⟨⟨x, hx, hk⟩, by rw [hk]; exact fun heq => hne (Option.some.inj heq)⟩
  · rintro ⟨⟨x, hx, hk⟩, hne⟩
    exact ⟨x, ⟨hx, fun heq => hne (by rw [hk, heq])⟩, hk⟩

theorem not_entered_of_none {regy : List Entry} (h : k.eid = none) : ¬ Entered regy k := by
  rintro ⟨x, -, hx⟩
  rw [h] at hx
  cases hx

/-- R28, R30: a call has no entry id before `REQ.REGISTER`, and then one that was issued. -/
theorem eid_lt_of_legal (h : s.LegalCall k) (he : k.eid = some e) : e < s.nextEid := by
  have admitted : s.Admitted k → e < s.nextEid := by
    rintro ⟨-, ⟨e', he', hlt⟩, -⟩
    obtain rfl := Option.some.inj (he.symm.trans he')
    exact hlt
  have ended : s.Ended k → e < s.nextEid := by
    rintro (⟨ha, -⟩ | ⟨-, hnone, -⟩)
    · exact admitted ha
    · rw [hnone] at he; cases he
  cases hph : k.ph with
  | new => obtain ⟨-, -, hnone, -⟩ := (legalCall_new hph).mp h; rw [hnone] at he; cases he
  | built => obtain ⟨-, -, hnone, -⟩ := (legalCall_built hph).mp h; rw [hnone] at he; cases he
  | enc => exact admitted ((legalCall_enc hph).mp h).2.1
  | send => exact admitted ((legalCall_send hph).mp h).2.1
  | wait => exact admitted ((legalCall_wait hph).mp h).2.1
  | unreg => exact admitted ((legalCall_unreg hph).mp h).2.1
  | ret => exact ended ((legalCall_ret hph).mp h).1
  | fin => exact ended ((legalCall_fin hph).mp h).1

/-- The id that is issued next is no call's yet. -/
theorem eid_ne_next (h : s.CallInv) (hk : Table.lookup s.calls c = some k) : k.eid ≠ some s.nextEid :=
  fun heq => Nat.lt_irrefl _ (eid_lt_of_legal (h.legal c k hk) heq)

/-- The calls stay, and the registry changes for none of them. -/
theorem ownerInv_of_calls_eq (h : s.OwnerInv) (hcalls : t.calls = s.calls)
    (hregy : ∀ c k, Table.lookup s.calls c = some k → (Entered t.regy k ↔ Entered s.regy k)) : t.OwnerInv where
  registered_iff c k hk := by
    rw [hcalls] at hk
    exact (h.registered_iff c k hk).trans (hregy c k hk).symm
  distinct := by rw [hcalls]; exact h.distinct

theorem ownerInv_of_eq (h : s.OwnerInv) (hcalls : t.calls = s.calls) (hregy : t.regy = s.regy) : t.OwnerInv :=
  ownerInv_of_calls_eq h hcalls fun _ _ _ => by rw [hregy]

theorem ownerInv_of_noCalls (hcalls : t.calls = []) : t.OwnerInv where
  registered_iff c k hk := by rw [hcalls] at hk; cases hk
  distinct c c' k k' e hk := by rw [hcalls] at hk; cases hk

/-- One call's record is replaced, and the registry changes for no other. -/
theorem ownerInv_set (h : s.OwnerInv) (hcalls : t.calls = Table.set s.calls c k')
    (hregy : ∀ d k, d ≠ c → Table.lookup s.calls d = some k → (Entered t.regy k ↔ Entered s.regy k))
    (hk' : k'.st = .registered ↔ Entered t.regy k')
    (hfresh : ∀ d k e, d ≠ c → Table.lookup s.calls d = some k → k'.eid = some e → k.eid ≠ some e) : t.OwnerInv where
  registered_iff d k hk := by
    rw [hcalls, Table.lookup_set] at hk
    split_ifs at hk with heq
    · cases hk; exact hk'
    · exact (h.registered_iff d k hk).trans (hregy d k heq hk).symm
  distinct d d' j j' e hj hj' he he' := by
    rw [hcalls, Table.lookup_set] at hj hj'
    split_ifs at hj hj' with heq heq' heq'
    · rw [heq, heq']
    · cases hj; exact absurd he' (hfresh d' j' e heq' hj' he)
    · cases hj'; exact absurd he (hfresh d j e heq hj he')
    · exact h.distinct d d' j j' e hj hj' he he'

/-- The record of a call that keeps its entry id and stays registered or not. -/
theorem ownerInv_set_same (h : s.OwnerInv) (hk : Table.lookup s.calls c = some k)
    (hcalls : t.calls = Table.set s.calls c k') (hregy : t.regy = s.regy) (heid : k'.eid = k.eid)
    (hst : k'.st = .registered ↔ k.st = .registered) : t.OwnerInv := by
  refine ownerInv_set h hcalls (fun _ _ _ _ => by rw [hregy]) ?_ ?_
  · rw [hst, h.registered_iff c k hk, Entered, hregy, heid]
  · intro d j e hne hj he he'
    exact hne (h.distinct d c j k e hj hk he' (heid ▸ he))

theorem effect_ownerInv (he : Effect s sel t)
    (hown : ∀ e, sel = .op (.unreg e) → ∀ c k, Table.lookup s.calls c = some k → k.eid ≠ some e)
    (hc : s.CallInv) (h : s.OwnerInv) : t.OwnerInv := by
  cases he with
  | link hi he =>
    have hl := exec_isReceive_linkOnly hi he
    exact ownerInv_of_eq h hl.calls hl.regy
  | invoke _ _ hu => rw [runHandler_writes hu]; exact ownerInv_of_eq h rfl rfl
  | output => exact ownerInv_of_eq h rfl rfl
  | register =>
    exact ownerInv_of_calls_eq h rfl fun c k hk => entered_append_iff.trans (or_iff_left (eid_ne_next hc hk))
  | unregister =>
    exact ownerInv_of_calls_eq h rfl fun c k hk => entered_filter_iff.trans (and_iff_left (hown _ rfl c k hk))
  | start =>
    refine ownerInv_set h rfl (fun _ _ _ _ => Iff.rfl) ?_ ?_
    · exact ⟨nofun, fun hent => absurd hent (not_entered_of_none rfl)⟩
    · rintro _ _ _ _ _ ⟨⟩
  | build hk => exact ownerInv_set_same h hk rfl rfl rfl Iff.rfl
  | enter hk =>
    refine ownerInv_set h rfl (fun d k _ hk => entered_append_iff.trans (or_iff_left (eid_ne_next hc hk))) ?_ ?_
    · exact ⟨fun _ => entered_append_iff.mpr (.inr rfl), fun _ => rfl⟩
    · rintro d j _ _ hj ⟨⟩
      exact eid_ne_next hc hj
  | leave hk _ he hst =>
    have hother : ∀ d j, d ≠ _ → Table.lookup s.calls d = some j → j.eid ≠ some _ :=
      fun d j hne hj heq => hne (h.distinct d _ j _ _ hj hk heq he)
    refine ownerInv_set h rfl (fun d j hne hj => entered_filter_iff.trans (and_iff_left (hother d j hne hj))) ?_ ?_
    · refine ⟨fun hreg => ?_, fun hent => absurd he (entered_filter_iff.mp hent).2⟩
      rcases terminal_states hst with rfl | rfl | rfl <;> cases hreg
    · intro d j e' hne hj he'
      obtain rfl := Option.some.inj (he.symm.trans he')
      exact hother d j hne hj
  | move hk hm =>
    refine ownerInv_set_same h hk rfl rfl (callMove_eid hm) ?_
    rcases callMove_st hm (hc.legal _ _ hk) with hst | ⟨hidle, href⟩
    · rw [hst]
    · simp [hidle, href]
  | reset => exact ownerInv_of_noCalls rfl

/-- Settles O60: each effect keeps it, and the only removal by a client is one that the premise allows. -/
theorem registeredExactlyWhileEntered : Obligations.RegisteredExactlyWhileEntered := by
  unfold Obligations.RegisteredExactlyWhileEntered
  intro s t h ho hown hstep
  obtain ⟨turn, hturn, he⟩ := step_effect hstep
  have hduty : ∀ e, select s turn = .op (.unreg e) → ∀ c k, Table.lookup s.calls c = some k → k.eid ≠ some e :=
    fun e hsel => hown e [.ident e] (by rw [hturn, turn_of_select_command rfl hsel]) rfl
  exact effect_ownerInv he hduty (callInv_popTurn h.call) ⟨ho.registered_iff, ho.distinct⟩

end Sys2Proof.Proofs.Ownership
end

section
/-! Whole frames through the decoder, 42_destuffer_assembler.md section 6: a run of RX turns over a wire form puts the
raw frame into the buffer, byte by byte. -/

namespace Sys2Proof.Proofs.Decoding

open Sys2Proof Sys2Proof.Machine Sys2Proof.Proofs.Destuffer Sys2Proof.Proofs.Assembler Sys2Proof.Proofs.Turns

variable {s : State} {rest : List Turn} {b : Byte} {raw tail : Bytes}

/-! ### The bytes under the cursor -/

/-- The chunk from the cursor on begins with this byte: it is the next one, and the rest follows it. -/
theorem next_of_drop {l : Bytes} {n : Nat} (h : l.drop n = b :: tail) : l[n]? = some b ∧ l.drop (n + 1) = tail :=
  ⟨by rw [← List.head?_drop, h]; rfl, by rw [← List.tail_drop, h]; rfl⟩

/-! ### One wire byte -/

/-- R162: a literal byte on the RX agent's turn. -/
theorem step_lit (hs : s.schedule = .rx :: rest) (hrun : s.rxs = .run) (hesc : s.rxEsc = false) (hroom : s.rxLen < 304)
    (hb : s.rxChunk[s.rxPos]? = some b) (hEnd : b ≠ 0xC0#8) (hEsc : b ≠ 0xDB#8) :
    step s = .next { s with
      rxbuf := Memory.write s.rxbuf s.rxLen b, rxLen := s.rxLen + 1, rxPos := s.rxPos + 1, schedule := rest } := by
  have hi : decodeWire (wireKey s.rxEsc b) = .rxbLit b := by
    rw [hesc]; exact decode_wire_ok (Encoding.decode_wireKey_lit hEnd hEsc)
  rw [step_of_select hs (select_rx_byte hrun hb hi (.inl hroom))]
  exact ((appendingByteOperations { s with schedule := rest }).1 hrun hroom).1 b hb hesc hEnd hEsc

/-- R161: the introducer on the RX agent's turn. -/
theorem step_esc (hs : s.schedule = .rx :: rest) (hrun : s.rxs = .run) (hesc : s.rxEsc = false) (hroom : s.rxLen < 304)
    (hb : s.rxChunk[s.rxPos]? = some 0xDB#8) :
    step s = .next { s with rxEsc := true, rxPos := s.rxPos + 1, schedule := rest } := by
  have hi : decodeWire (wireKey s.rxEsc 0xDB#8) = .rxbEsc := by rw [hesc]; rfl
  rw [step_of_select hs (select_rx_byte hrun hb hi (.inl hroom))]
  exact ((escapeAndBadEscape { s with schedule := rest }).1 hrun (.inl hroom)).1 hb hesc

/-- R163, R164: the two escape codes and the raw bytes they stand for. -/
def Escaped (code b : Byte) : Prop := (code = 0xDC#8 ∧ b = 0xC0#8) ∨ (code = 0xDD#8 ∧ b = 0xDB#8)

/-- R163, R164: an escape code after an introducer, on the RX agent's turn. -/
theorem step_escaped {code : Byte} (hcode : Escaped code b) (hs : s.schedule = .rx :: rest) (hrun : s.rxs = .run)
    (hesc : s.rxEsc = true) (hroom : s.rxLen < 304) (hb : s.rxChunk[s.rxPos]? = some code) :
    step s = .next { s with
      rxbuf := Memory.write s.rxbuf s.rxLen b, rxLen := s.rxLen + 1, rxEsc := false, rxPos := s.rxPos + 1,
      schedule := rest } := by
  obtain ⟨-, hescEnd, hescEsc⟩ := (appendingByteOperations { s with schedule := rest }).1 hrun hroom
  rcases hcode with ⟨rfl, rfl⟩ | ⟨rfl, rfl⟩
  · have hi : decodeWire (wireKey s.rxEsc 0xDC#8) = .rxbEscEnd := by rw [hesc]; rfl
    rw [step_of_select hs (select_rx_byte hrun hb hi (.inl hroom))]
    exact hescEnd hb hesc
  · have hi : decodeWire (wireKey s.rxEsc 0xDD#8) = .rxbEscEsc := by rw [hesc]; rfl
    rw [step_of_select hs (select_rx_byte hrun hb hi (.inl hroom))]
    exact hescEsc hb hesc

theorem select_end (hrun : s.rxs = .run) (hesc : s.rxEsc = false) (hroom : s.rxLen < 304)
    (hb : s.rxChunk[s.rxPos]? = some 0xC0#8) : select s .rx = .op .rxbEnd :=
  select_rx_byte hrun hb (by rw [hesc]; rfl) (.inl hroom)

/-- R160: an opening `END`, with the buffer empty, on the RX agent's turn. -/
theorem step_end_empty (hs : s.schedule = .rx :: rest) (hrun : s.rxs = .run) (hesc : s.rxEsc = false)
    (hlen : s.rxLen = 0) (hb : s.rxChunk[s.rxPos]? = some 0xC0#8) :
    step s = .next { s with rxPos := s.rxPos + 1, schedule := rest } := by
  have hroom : s.rxLen < 304 := by omega
  rw [step_of_select hs (select_end hrun hesc hroom hb)]
  exact ((endRunsFrameDone { s with schedule := rest } s).1 hrun (.inl hroom) hb hesc).1 hlen

/-! ### One raw byte, and a sequence of them -/

/-- The state after the raw bytes have been taken from `n` wire bytes, in as many turns. -/
def received (s : State) (raw : Bytes) (n : Nat) (rest : List Turn) : State :=
  { s with
    rxbuf := Memory.writeBytes s.rxbuf s.rxLen raw, rxLen := s.rxLen + raw.length, rxPos := s.rxPos + n,
    schedule := rest }

/-- R161, R163, R164: an introducer and an escape code give the raw byte the code stands for. -/
theorem steps_escaped {code : Byte} (hcode : Escaped code b)
    (hs : s.schedule = .rx :: .rx :: rest) (hrun : s.rxs = .run)
    (hesc : s.rxEsc = false) (hroom : s.rxLen < 304) (hchunk : s.rxChunk.drop s.rxPos = 0xDB#8 :: code :: tail) :
    steps 2 s = .next (received s [b] 2 rest) := by
  obtain ⟨hb, hnext⟩ := next_of_drop hchunk
  obtain ⟨hb', -⟩ := next_of_drop hnext
  rw [steps_succ (step_esc hs hrun hesc hroom hb), received, hesc]
  exact steps_succ (step_escaped (s := { s with rxEsc := true, rxPos := s.rxPos + 1, schedule := .rx :: rest })
    hcode rfl hrun rfl hroom hb')

/-- R144, R175: the stuffed image of a raw byte gives the raw byte. -/
theorem steps_stuff (hs : s.schedule = List.replicate (stuff b).length .rx ++ rest) (hrun : s.rxs = .run)
    (hesc : s.rxEsc = false) (hroom : s.rxLen < 304) (hchunk : s.rxChunk.drop s.rxPos = stuff b ++ tail) :
    steps (stuff b).length s = .next (received s [b] (stuff b).length rest) := by
  rcases PureOperations.stuff_cases b with ⟨hb, hstuff⟩ | ⟨hb, hstuff⟩ | ⟨hEnd, hEsc, hstuff⟩ <;>
    rw [hstuff] at hs hchunk ⊢
  · exact steps_escaped (.inl ⟨rfl, hb⟩) hs hrun hesc hroom hchunk
  · exact steps_escaped (.inr ⟨rfl, hb⟩) hs hrun hesc hroom hchunk
  · obtain ⟨hb, -⟩ := next_of_drop hchunk
    exact steps_succ (step_lit hs hrun hesc hroom hb hEnd hEsc)

/-- R175: the stuffed image of a sequence that fits gives the sequence, by induction on it. -/
theorem steps_stuffSeq (hs : s.schedule = List.replicate (stuffSeq raw).length .rx ++ rest) (hrun : s.rxs = .run)
    (hesc : s.rxEsc = false) (hroom : s.rxLen + raw.length ≤ 304)
    (hchunk : s.rxChunk.drop s.rxPos = stuffSeq raw ++ tail) :
    steps (stuffSeq raw).length s = .next (received s raw (stuffSeq raw).length rest) := by
  induction raw generalizing s with
  | nil => rw [stuffSeq_nil, List.length_nil, List.replicate_zero, List.nil_append] at hs; rw [← hs]; rfl
  | cons b raw ih =>
    rw [List.length_cons] at hroom
    have hfirst : steps (stuff b).length s =
        .next (received s [b] (stuff b).length (List.replicate (stuffSeq raw).length .rx ++ rest)) := by
      refine steps_stuff ?_ hrun hesc (by omega) (tail := stuffSeq raw ++ tail) ?_
      · rw [hs, stuffSeq, List.length_append, List.replicate_add, List.append_assoc]
      · rw [hchunk, stuffSeq, List.append_assoc]
    have hrest := @ih (received s [b] (stuff b).length (List.replicate (stuffSeq raw).length .rx ++ rest)) rfl hrun hesc
      (by change s.rxLen + 1 + raw.length ≤ 304; omega) (by
        change s.rxChunk.drop (s.rxPos + (stuff b).length) = _
        rw [← List.drop_drop, hchunk, stuffSeq, List.append_assoc, List.drop_left])
    rw [stuffSeq, List.length_append, steps_add hfirst, hrest]
    simp only [received, Memory.writeBytes, List.length_cons, List.length_nil, Nat.zero_add, Nat.add_assoc,
      Nat.add_comm 1]

/-- R145, R175: the wire form of a sequence that fits, up to its closing `END`, which is then under the cursor. -/
theorem steps_wire (hs : s.schedule = List.replicate ((encWire raw).length - 1) .rx ++ rest) (hrun : s.rxs = .run)
    (hesc : s.rxEsc = false) (hlen : s.rxLen = 0) (hraw : raw.length ≤ 304)
    (hchunk : s.rxChunk.drop s.rxPos = encWire raw ++ tail) :
    steps ((encWire raw).length - 1) s = .next (received s raw ((encWire raw).length - 1) rest) ∧
      s.rxChunk[s.rxPos + ((encWire raw).length - 1)]? = some 0xC0#8 := by
  have hn : (encWire raw).length - 1 = (stuffSeq raw).length + 1 := by rw [encWire_length]; rfl
  rw [hn, List.replicate_succ, List.cons_append] at hs
  have hwire : encWire raw ++ tail = 0xC0#8 :: (stuffSeq raw ++ 0xC0#8 :: tail) := by
    rw [encWire, List.cons_append, List.append_assoc, List.singleton_append]
  obtain ⟨hb, hnext⟩ := next_of_drop (hchunk.trans hwire)
  have hopen := step_end_empty hs hrun hesc hlen hb
  have hseq := @steps_stuffSeq { s with rxPos := s.rxPos + 1, schedule := _ } rest raw _ rfl hrun hesc
    (by change s.rxLen + raw.length ≤ 304; omega) hnext
  rw [hn]
  refine ⟨?_, ?_⟩
  · rw [steps_succ hopen, hseq]
    simp only [received, Nat.add_assoc, Nat.add_comm 1]
  · have hclose := congrArg (List.drop (stuffSeq raw).length) hnext
    rw [List.drop_drop, List.drop_left] at hclose
    rw [show s.rxPos + ((stuffSeq raw).length + 1) = s.rxPos + 1 + (stuffSeq raw).length by omega]
    exact (next_of_drop hclose).1

/-! ### The statements -/

theorem drop_length_append {before wire after : Bytes} :
    (before ++ wire ++ after).drop before.length = wire ++ after := by
  rw [List.append_assoc, List.drop_left]

/-- Settles O28: the run is `steps_wire`, and with room left the closing `END` is selected. -/
theorem decoderRebuildsTheRawFrame : Obligations.DecoderRebuildsTheRawFrame := by
  unfold Obligations.DecoderRebuildsTheRawFrame
  intro s before raw after rest hpos hraw hbuf hlen hesc hrun hchunk hcursor hs
  have hdrop : s.rxChunk.drop s.rxPos = encWire raw ++ after := by rw [hchunk, hcursor, drop_length_append]
  obtain ⟨hsteps, hclose⟩ := steps_wire hs hrun hesc hlen (by omega) hdrop
  have hu : received s raw ((encWire raw).length - 1) (.rx :: rest) =
      { s with
        rxbuf := Memory.writeBytes [] 0 raw
        rxLen := raw.length
        rxPos := before.length + ((encWire raw).length - 1)
        schedule := .rx :: rest } := by
    rw [received, hbuf, hlen, hcursor, Nat.zero_add]
  refine ⟨_, hsteps, hu, ?read, ?select⟩
  case read => rw [hu]; exact Memory.readBytes_writeBytes [] 0 raw
  case select =>
    have hroom : s.rxLen + raw.length < 304 := by omega
    exact select_end (s := received s raw ((encWire raw).length - 1) (.rx :: rest)) hrun hesc hroom hclose

/-- Settles O30: the same run leaves a full buffer, which the closing `END` does not get past. -/
theorem longestFrameStallsTheReceiver : Obligations.LongestFrameStallsTheReceiver := by
  unfold Obligations.LongestFrameStallsTheReceiver
  intro s raw rest hraw hpolicy hbuf hlen hesc hrun hchunk hcursor hs
  have hdrop : s.rxChunk.drop s.rxPos = encWire raw ++ [] := by rw [hchunk, hcursor, List.append_nil, List.drop_zero]
  obtain ⟨hsteps, hclose⟩ := steps_wire hs hrun hesc hlen hraw.le hdrop
  have hfull : s.rxLen + raw.length = 304 := by omega
  refine ⟨_, hsteps, hfull, by rw [received, hcursor, Nat.zero_add], rfl, select_rx_full hrun hclose rfl ?_⟩
  exact not_roomFor_of_full (s := received s raw ((encWire raw).length - 1) (.rx :: rest)) hfull hpolicy _

/-- R81, R125: the frame as its fields, whose checksum verifies. -/
theorem frameOf_fields (dst msg : Byte) (payload : Bytes) :
    ∃ lo hi : Byte, frameOf dst msg payload = [dst, msg] ++ payload ++ [lo, hi] ∧
      fcsVerify ([dst, msg] ++ payload ++ [lo, hi]) = true := by
  refine ⟨_, _, rfl, ?_⟩
  exact FrameCheck.residualLaw (dst :: msg :: payload)

/-- What is left of the link after a completed frame does not depend on what the buffer held. -/
theorem dispatch_received {dst msg : Byte} {payload : Bytes} {n : Nat} (hbuf : s.rxbuf = []) (hlen : s.rxLen = 0) :
    { (dispatchFrame dst msg payload (received s raw n rest)).clearBuffer with rxPos := s.rxPos + n + 1 } =
      { dispatchFrame dst msg payload s with rxPos := s.rxPos + (n + 1), schedule := rest } := by
  cases hscan : scan s.regy dst msg with
  | none =>
    rw [dispatchFrame_of_none hscan, dispatchFrame_of_none (s := received s raw n rest) hscan]
    simp only [received, State.clearBuffer, hbuf, hlen, Nat.add_assoc]
  | some e =>
    rw [dispatchFrame_of_some hscan, dispatchFrame_of_some (s := received s raw n rest) hscan]
    simp only [received, State.clearBuffer, State.latch, hbuf, hlen, Nat.add_assoc]

/-- R175, R171: the run over the whole wire form of a frame ends with the frame matched and the link empty again. -/
theorem steps_frame {dst msg : Byte} {payload : Bytes} (hpayload : payload.length ≤ 299)
    (hs : s.schedule = List.replicate (encWire (frameOf dst msg payload)).length .rx ++ rest) (hrun : s.rxs = .run)
    (hesc : s.rxEsc = false) (hbuf : s.rxbuf = []) (hlen : s.rxLen = 0)
    (hchunk : s.rxChunk.drop s.rxPos = encWire (frameOf dst msg payload) ++ tail) :
    steps (encWire (frameOf dst msg payload)).length s =
      .next { dispatchFrame dst msg payload s with
        rxPos := s.rxPos + (encWire (frameOf dst msg payload)).length, schedule := rest } := by
  obtain ⟨lo, hi, hframe, hgood⟩ := frameOf_fields dst msg payload
  have hraw : (frameOf dst msg payload).length ≤ 303 := by rw [frameOf_length]; omega
  generalize frameOf dst msg payload = raw at *
  obtain ⟨n, hn⟩ : ∃ n, (encWire raw).length = n + 1 := ⟨_, encWire_length raw⟩
  have hrx : List.replicate (n + 1) Turn.rx ++ rest = List.replicate n .rx ++ .rx :: rest := by
    rw [List.replicate_add, List.append_assoc]; rfl
  have hturns : s.schedule = List.replicate ((encWire raw).length - 1) .rx ++ .rx :: rest := by
    rw [hs, hn, hrx, Nat.add_sub_cancel]
  have hwire := steps_wire hturns hrun hesc hlen (by omega) hchunk
  rw [hn, Nat.add_sub_cancel] at hwire
  obtain ⟨hsteps, hclose⟩ := hwire
  have hroom : s.rxLen + raw.length < 304 := by omega
  have hpos : 0 < s.rxLen + raw.length := by rw [hframe]; simp
  have hread : Memory.readBytes (received s raw n rest).rxbuf 0 (s.rxLen + raw.length) =
      some ([dst, msg] ++ payload ++ [lo, hi]) := by
    rw [received, hbuf, hlen, Nat.zero_add, ← hframe]
    exact Memory.readBytes_writeBytes [] 0 raw
  have hdone := execFrameDone_next.mpr ⟨hpos, frameDone_of_good hread hgood⟩
  have hstep := step_of_select (s := received s raw n (.rx :: rest)) rfl (select_end hrun hesc hroom hclose)
  have hend := ((endRunsFrameDone (received s raw n rest) _).1 hrun (.inl hroom) hclose hesc).2 hpos hdone
  rw [hn, steps_add hsteps, steps_succ (hstep.trans hend), steps_zero]
  exact congrArg Host.Outcome.next (dispatch_received hbuf hlen)

/-- Settles O29: the frame is matched as `steps_frame` says, and the two clauses are the two answers of the scan. -/
theorem encodedFrameIsDelivered : Obligations.EncodedFrameIsDelivered := by
  unfold Obligations.EncodedFrameIsDelivered
  intro s before after payload dst msg rest hpayload hbuf hlen hesc hrun hchunk hcursor hs
  have hdrop : s.rxChunk.drop s.rxPos = encWire (frameOf dst msg payload) ++ after := by
    rw [hchunk, hcursor, drop_length_append]
  have hframe := steps_frame hpayload hs hrun hesc hbuf hlen hdrop
  rw [hcursor] at hframe
  refine ⟨fun hnone => ?dropped, fun pre e post hregy hpre hd hm => ?latched⟩
  case dropped => rw [hframe, dispatchFrame_of_none (scan_none.mpr hnone)]
  case latched => rw [hframe, dispatchFrame_of_some (scan_of_split hregy hpre hd hm)]; rfl

end Sys2Proof.Proofs.Decoding
end

section
/-! Who writes what (R34, R65, R168, R298): the outputs, the link receive state, and what the RX agent leaves to the
callers. -/

namespace Sys2Proof.Proofs.Writers

open Sys2Proof Sys2Proof.Machine Sys2Proof.Proofs.Effects Sys2Proof.Proofs.Turns Sys2Proof.Proofs.Assembler

variable {s t u : State} {sel : Selection} {w : Nat} {p : Bytes} {l : Latch}

/-! ### Outputs, parameters, schedule, draws -/

theorem noteDraw_draws_le (s : State) (w : Nat) : s.draws ≤ (s.noteDraw w).draws := by
  unfold State.noteDraw
  dsimp only
  split_ifs
  · exact Nat.le_refl _
  · exact Nat.le_succ _

/-- R208, assumption 13: a handler outputs one event at most, and takes one free value at most. -/
theorem runHandler_appends (hu : runHandler l s = .next u) : s.history <+: u.history ∧ s.draws ≤ u.draws := by
  rcases runHandler_next.mp hu with ⟨w, -, hc⟩ | ⟨tag, -, rfl⟩
  · rcases completeWaiter_next.mp hc with ⟨-, rfl⟩ | ⟨-, -, rfl⟩ <;>
      exact ⟨List.prefix_rfl, noteDraw_draws_le s w⟩
  · exact ⟨List.prefix_append _ _, Nat.le_refl _⟩

theorem effect_appends (he : Effect s sel t) :
    s.history <+: t.history ∧ t.params = s.params ∧ t.schedule = s.schedule ∧ s.draws ≤ t.draws := by
  cases he with
  | link hi he =>
    have hl := exec_isReceive_linkOnly hi he
    exact ⟨hl.history, hl.params, hl.schedule, hl.draws.ge⟩
  | invoke _ _ hu =>
    obtain ⟨hhist, hdraws⟩ := runHandler_appends hu
    have hw := runHandler_writes hu
    exact ⟨hhist, by rw [hw]; rfl, by rw [hw]; rfl, hdraws⟩
  | output | register => exact ⟨List.prefix_append _ _, rfl, rfl, Nat.le_refl _⟩
  | unregister | start | build | enter | leave | reset => exact ⟨List.prefix_rfl, rfl, rfl, Nat.le_refl _⟩
  | move _ _ hes => exact ⟨hes, rfl, rfl, Nat.le_refl _⟩

/-- Settles O54: the turn is taken before the effect, and no effect writes the parameters or the schedule. -/
theorem outputsOnlyGrow : Obligations.OutputsOnlyGrow := by
  unfold Obligations.OutputsOnlyGrow
  intro s t hstep
  obtain ⟨turn, -, he⟩ := step_effect hstep
  exact effect_appends he

/-! ### The link receive state -/

/-- R65: an effect that writes it is the RX agent's, a link command's, or that of `RESET`. -/
theorem effect_linkView (he : Effect s sel t) :
    t.linkView = s.linkView ∨ ∃ i, sel = .op i ∧ (isReceive i = true ∨ i = .dspInvoke ∨ i = .reset) := by
  cases he with
  | link hi => exact .inr ⟨_, rfl, .inl hi⟩
  | invoke => exact .inr ⟨_, rfl, .inr (.inl rfl)⟩
  | reset => exact .inr ⟨_, rfl, .inr (.inr rfl)⟩
  | output | register | unregister | start | build | enter | leave | move => exact .inl rfl

/-- Settles O52: what selects such an effect is one of the turns named. -/
theorem linkStateHasOneWriter : Obligations.LinkStateHasOneWriter := by
  unfold Obligations.LinkStateHasOneWriter
  intro s t turn rest hs hstep hne
  obtain ⟨turn', hturn, he⟩ := step_effect hstep
  obtain rfl : turn = turn' := by rw [hs] at hturn; exact Option.some.inj hturn
  obtain heq | ⟨i, hsel, hi⟩ := effect_linkView he
  · exact absurd heq hne
  · exact select_link_turn hsel hi

/-- R168: with the buffer full, no effect but a reset's writes the buffer or the mode bit. -/
theorem effect_full (he : Effect s sel t) (hfull : s.rxLen = 304) (hpolicy : s.params.fullPolicy = .stallAll)
    (hrx : sel ≠ .op .rxReset) (hreset : sel ≠ .op .reset) :
    t.rxLen = 304 ∧ t.rxbuf = s.rxbuf ∧ t.rxEsc = s.rxEsc := by
  cases he with
  | link hi he =>
    rcases isReceive_cases hi with hbyte | ⟨data, rfl⟩ | rfl | rfl
    · rw [exec_isByteOp_of_full hbyte hfull hpolicy] at he
      cases he
    · obtain ⟨-, rfl⟩ := execRxChunk_next.mp he
      exact ⟨hfull, rfl, rfl⟩
    · exact absurd rfl hrx
    · obtain ⟨-, rfl⟩ := execRxReturn_next.mp he
      exact ⟨hfull, rfl, rfl⟩
  | invoke _ _ hu => rw [runHandler_writes hu]; exact ⟨hfull, rfl, rfl⟩
  | reset => exact absurd rfl hreset
  | output | register | unregister | start | build | enter | leave | move => exact ⟨hfull, rfl, rfl⟩

/-- Settles O27: the turns of the two resets are excluded. -/
theorem stallIsPermanent : Obligations.StallIsPermanent := by
  unfold Obligations.StallIsPermanent
  intro s t hfull hpolicy hstep hrx hreset
  obtain ⟨turn, hturn, he⟩ := step_effect hstep
  have hrx' : select s turn ≠ .op .rxReset := fun hsel => hrx (by rw [hturn, turn_of_select_command rfl hsel]; rfl)
  have hreset' : select s turn ≠ .op .reset := fun hsel => hreset (by rw [hturn, turn_of_select_command rfl hsel]; rfl)
  obtain ⟨hlen, hbuf, hesc⟩ := effect_full he hfull hpolicy hrx' hreset'
  obtain ⟨-, hparams, -⟩ := effect_appends he
  exact ⟨hlen, hbuf, hesc, by rw [hparams]; exact hpolicy⟩

/-! ### What the RX agent leaves alone -/

/-- R207: what a handler makes of the waiters, and when. -/
theorem runHandler_waiters (hu : runHandler l s = .next u) :
    (u.waiters = s.waiters ∧ ∀ w, l.hnd = .waiter w → (s.waiterAt w).done = true) ∨
      ∃ w, l.hnd = .waiter w ∧ (s.waiterAt w).done = false ∧ l.p.length ≤ 300 ∧
        u.waiters = Table.set s.waiters w ((s.waiterAt w).complete l.p) := by
  rcases runHandler_next.mp hu with ⟨w, hw, hc⟩ | ⟨tag, htag, rfl⟩
  · rcases completeWaiter_next.mp hc with ⟨hdone, rfl⟩ | ⟨hopen, hp, rfl⟩
    · refine .inl ⟨rfl, fun w' hw' => ?_⟩
      obtain rfl : w = w' := by rw [hw] at hw'; exact Handler.waiter.inj hw'
      exact hdone
    · exact .inr ⟨w, hw, hopen, hp, rfl⟩
  · exact .inl ⟨rfl, fun w hw => by rw [htag] at hw; cases hw⟩

/-- R298: a byte or a return from the chunk leaves the callers and the waiters alone. -/
theorem linkOnly_callers (hl : LinkOnly s t) : t.callerView = s.callerView ∧ t.waiters = s.waiters := by
  refine ⟨?_, hl.waiters⟩
  rw [State.callerView, hl.regy, hl.calls, hl.nextEid, hl.nextWid, hl.nextCall, hl.consumers]

/-- What the RX agent performs on its turns: it writes its own state only, or runs the latched handler. -/
theorem step_rx_cases {turn : Turn} {rest : List Turn} (hs : s.schedule = turn :: rest)
    (hturn : turn = .rx ∨ turn = .rxReturn) (hstep : step s = .next t) :
    (LinkOnly s.popTurn t ∧ (turn = .rx → s.rxs ≠ .dsp)) ∨
      (turn = .rx ∧ s.rxs = .dsp ∧ ∃ l u, s.dsp = some l ∧ runHandler l s.popTurn = .next u ∧ t = u.unlatch) := by
  obtain ⟨turn', rest', hs', hp⟩ := step_next.mp hstep
  obtain ⟨rfl, rfl⟩ := List.cons.inj (hs.symm.trans hs')
  rcases hturn with rfl | rfl
  · rcases perform_next.mp hp with ⟨i, hi, he⟩ | ⟨op, hop, -⟩
    · rcases rxNext_cases (agentSelect_op hi) with ⟨hrun, b, -, rfl, -⟩ | ⟨hrun, rfl⟩ | ⟨hdsp, rfl⟩
      · exact .inl ⟨exec_isReceive_linkOnly (isReceive_of_isByteOp (decodeWire_isByteOp _)) he,
          fun _ => by rw [hrun]; nofun⟩
      · exact .inl ⟨exec_isReceive_linkOnly rfl he, fun _ => by rw [hrun]; nofun⟩
      · obtain ⟨-, l, u, hl, hu, rfl⟩ := execDspInvoke_next.mp he
        exact .inr ⟨rfl, hdsp, l, u, hl, hu, rfl⟩
    · rw [select] at hop
      cases hn : rxNext s <;> rw [hn] at hop <;> cases hop
  · exact .inl ⟨exec_isReceive_linkOnly (i := .rxReturn) rfl hp, nofun⟩

/-- Settles O53: outside `RX_DSP` the RX agent writes its own state; there, what the latched handler writes. -/
theorem receiveAgentLeavesCallersAlone : Obligations.ReceiveAgentLeavesCallersAlone := by
  unfold Obligations.ReceiveAgentLeavesCallersAlone
  intro s t turn rest hs hturn hstep
  rcases step_rx_cases hs hturn hstep with ⟨hl, hrx⟩ | ⟨rfl, hdsp, l, u, hl, hu, rfl⟩
  · obtain ⟨hcallers, hwaiters⟩ := linkOnly_callers hl
    exact ⟨hcallers, .inl hwaiters, fun _ _ hturn hdsp => absurd hdsp (hrx hturn)⟩
  · refine ⟨by rw [runHandler_writes hu]; rfl, ?_, ?_⟩
    · obtain ⟨hsame, -⟩ | ⟨w, hw, hopen, hp, hset⟩ := runHandler_waiters hu
      · exact .inl hsame
      · exact .inr ⟨l, w, rfl, hdsp, hl, hw, hopen, hp, hset⟩
    · intro l' w' _ _ hl' hw' hopen'
      obtain rfl := Option.some.inj (hl.symm.trans hl')
      obtain ⟨-, hdone⟩ | ⟨w, hw, -, -, hset⟩ := runHandler_waiters hu
      · exact absurd (hdone w' hw') (by rw [show (s.popTurn.waiterAt w').done = false from hopen']; nofun)
      · obtain rfl : w = w' := by rw [hw] at hw'; exact Handler.waiter.inj hw'
        exact hset

/-! ### `RESET` -/

/-- Settles O51: the next state is written out in `execReset`, and its RX agent and its calls select no step. -/
theorem resetSetsEveryElement : Obligations.ResetSetsEveryElement := by
  unfold Obligations.ResetSetsEveryElement
  exact fun s => ⟨_, rfl, rfl, rfl, rfl, rfl, rfl, rfl, rfl, rfl, rfl, rfl, rfl, rfl, rfl, rfl, rfl,
    select_rx_idle rfl, fun c => rfl⟩

end Sys2Proof.Proofs.Writers
end

section
/-! Chunk-boundary independence (R174): a run of RX turns that does not return sees of the chunk only the bytes under
its cursor, so it is the same in any chunk that has these bytes at the same distance. -/

namespace Sys2Proof.Proofs.ChunkBoundary

open Sys2Proof Sys2Proof.Machine Sys2Proof.Proofs.Effects Sys2Proof.Proofs.Turns

variable {s t u : State} {i : Instr} {b : Byte} {chunk : Bytes} {n : Nat} {p : Bytes} {l : Latch}

/-- The state in another chunk, with its cursor `n` places further on. -/
def inChunk (s : State) (chunk : Bytes) (n : Nat) : State := { s with rxChunk := chunk, rxPos := n + s.rxPos }

/-- The bytes of `s`'s chunk stand in the other one, `n` places further on. -/
def Within (s : State) (chunk : Bytes) (n : Nat) : Prop := ∀ j b, s.rxChunk[j]? = some b → chunk[n + j]? = some b

/-! ### The RX agent's operations in another chunk -/

theorem takes_inChunk {esc appends : Bool} (hin : Within s chunk n) (h : s.takes esc b appends) :
    (inChunk s chunk n).takes esc b appends := by
  obtain ⟨hrun, hb, hroom, hesc⟩ := h
  exact ⟨hrun, hin _ _ hb, hroom, hesc⟩

theorem dispatchFrame_inChunk (d m : Byte) (p : Bytes) :
    dispatchFrame d m p (inChunk s chunk n) = inChunk (dispatchFrame d m p s) chunk n := by
  rcases dispatchFrame_cases d m p s with ⟨hnone, hs⟩ | ⟨e, hsome, hs⟩
  · rw [hs, Assembler.dispatchFrame_of_none (s := inChunk s chunk n) hnone]
  · rw [hs, Assembler.dispatchFrame_of_some (s := inChunk s chunk n) hsome]; rfl

/-- R171: frame completion does not look at the chunk. -/
theorem frameDone_inChunk (h : frameDone s = .next t) : frameDone (inChunk s chunk n) = .next (inChunk t chunk n) := by
  rcases frameDone_next.mp h with ⟨hshort, rfl⟩ | ⟨hmin, d, m, rest, hread, ⟨hbad, rfl⟩ | ⟨hgood, rfl⟩⟩
  · exact frameDone_next.mpr (.inl ⟨hshort, rfl⟩)
  · exact frameDone_next.mpr (.inr ⟨hmin, d, m, rest, hread, .inl ⟨hbad, rfl⟩⟩)
  · refine frameDone_next.mpr (.inr ⟨hmin, d, m, rest, hread, .inr ⟨hgood, ?_⟩⟩)
    rw [dispatchFrame_inChunk]
    rfl

/-- R174: a wire byte is taken in the other chunk as in this one, and the chunk stays. -/
theorem exec_isByteOp_inChunk (hi : isByteOp i = true) (hin : Within s chunk n) (h : exec i s = .next t) :
    exec i (inChunk s chunk n) = .next (inChunk t chunk n) ∧ t.rxChunk = s.rxChunk := by
  cases i with
  | rxbEscEnd =>
    obtain ⟨htakes, rfl⟩ := execRxbEscEnd_next.mp h
    exact ⟨execRxbEscEnd_next.mpr ⟨takes_inChunk hin htakes, rfl⟩, rfl⟩
  | rxbEscEsc =>
    obtain ⟨htakes, rfl⟩ := execRxbEscEsc_next.mp h
    exact ⟨execRxbEscEsc_next.mpr ⟨takes_inChunk hin htakes, rfl⟩, rfl⟩
  | rxbBadEsc b =>
    obtain ⟨⟨htakes, hb⟩, rfl⟩ := execRxbBadEsc_next.mp h
    exact ⟨execRxbBadEsc_next.mpr ⟨⟨takes_inChunk hin htakes, hb⟩, rfl⟩, rfl⟩
  | rxbEnd =>
    obtain ⟨htakes, ⟨hempty, rfl⟩ | ⟨hpos, u, hu, rfl⟩⟩ := execRxbEnd_next.mp h
    · exact ⟨execRxbEnd_next.mpr ⟨takes_inChunk hin htakes, .inl ⟨hempty, rfl⟩⟩, rfl⟩
    · refine ⟨execRxbEnd_next.mpr ⟨takes_inChunk hin htakes, .inr ⟨hpos, _, frameDone_inChunk hu, rfl⟩⟩, ?_⟩
      rw [frameDone_writes hu]
      rfl
  | rxbEsc =>
    obtain ⟨htakes, rfl⟩ := execRxbEsc_next.mp h
    exact ⟨execRxbEsc_next.mpr ⟨takes_inChunk hin htakes, rfl⟩, rfl⟩
  | rxbLit b =>
    obtain ⟨⟨htakes, hb⟩, rfl⟩ := execRxbLit_next.mp h
    exact ⟨execRxbLit_next.mpr ⟨⟨takes_inChunk hin htakes, hb⟩, rfl⟩, rfl⟩
  | _ => cases hi

/-- R207, R208: a handler does not look at the chunk. -/
theorem runHandler_inChunk (h : runHandler l s = .next u) :
    runHandler l (inChunk s chunk n) = .next (inChunk u chunk n) := by
  rcases runHandler_next.mp h with ⟨w, hw, hc⟩ | ⟨tag, htag, rfl⟩
  · refine runHandler_next.mpr (.inl ⟨w, hw, completeWaiter_next.mpr ?_⟩)
    rcases completeWaiter_next.mp hc with ⟨hdone, rfl⟩ | ⟨hopen, hp, rfl⟩
    · exact .inl ⟨hdone, rfl⟩
    · exact .inr ⟨hopen, hp, rfl⟩
  · exact runHandler_next.mpr (.inr ⟨tag, htag, rfl⟩)

/-! ### The RX agent's turns in another chunk -/

/-- R174: one RX turn that does not return. -/
theorem step_inChunk {rest : List Turn} (hs : s.schedule = .rx :: rest) (hin : Within s chunk n) (h : step s = .next t)
    (hnot : t.rxs ≠ .idle) :
    step (inChunk s chunk n) = .next (inChunk t chunk n) ∧ t.rxChunk = s.rxChunk := by
  obtain ⟨turn, rest', hs', hp⟩ := step_next.mp h
  obtain ⟨rfl, rfl⟩ := List.cons.inj (hs.symm.trans hs')
  have hpop : (inChunk s chunk n).popTurn = inChunk s.popTurn chunk n := rfl
  have hstep : ∀ {i}, select (inChunk s chunk n) .rx = .op i →
      step (inChunk s chunk n) = exec i (inChunk s.popTurn chunk n) := fun hsel => by
    rw [← hpop, popTurn_eq (s := inChunk s chunk n) hs]; exact step_of_select (s := inChunk s chunk n) hs hsel
  obtain ⟨i, hi, he⟩ | ⟨op, hop, -⟩ := perform_next.mp hp
  · rcases rxNext_cases (agentSelect_op hi) with ⟨hrun, b, hb, rfl, hroom⟩ | ⟨-, rfl⟩ | ⟨hdsp, rfl⟩
    · obtain ⟨hexec, hchunk⟩ := exec_isByteOp_inChunk (decodeWire_isByteOp _) (s := s.popTurn) hin he
      rw [hstep (select_rx_byte (s := inChunk s chunk n) hrun (hin _ _ hb) rfl hroom)]
      exact ⟨hexec, hchunk⟩
    · obtain ⟨-, rfl⟩ := execRxReturn_next.mp he
      exact absurd rfl hnot
    · obtain ⟨-, l, u, hl, hu, rfl⟩ := execDspInvoke_next.mp he
      rw [hstep (select_rx_dsp (s := inChunk s chunk n) hdsp)]
      refine ⟨execDspInvoke_next.mpr ⟨hdsp, l, _, hl, runHandler_inChunk hu, rfl⟩, ?_⟩
      rw [runHandler_writes hu]
      rfl
  · rw [select] at hop
    cases hn : rxNext s <;> rw [hn] at hop <;> cases hop

/-- R165: between chunks the RX agent has no turn. -/
theorem steps_rx_idle {k : Nat} {rest : List Turn} (hidle : s.rxs = .idle)
    (hs : s.schedule = List.replicate (k + 1) .rx ++ rest) : steps (k + 1) s ≠ .next t := by
  intro h
  obtain ⟨u, hu, -⟩ := steps_succ_next.mp h
  rw [step_of_select_noStep hs (select_rx_idle hidle)] at hu
  cases hu

/-- R174: a run of RX turns that does not return. -/
theorem steps_inChunk {k : Nat} {rest : List Turn} (hs : s.schedule = List.replicate k .rx ++ rest)
    (hin : Within s chunk n) (h : steps k s = .next t) (hnot : t.rxs ≠ .idle) :
    steps k (inChunk s chunk n) = .next (inChunk t chunk n) := by
  induction k generalizing s with
  | zero => cases h; rfl
  | succ k ih =>
    obtain ⟨u, hu, hrest⟩ := steps_succ_next.mp h
    have hsched : u.schedule = List.replicate k .rx ++ rest := by
      rw [(Writers.outputsOnlyGrow s u hu).2.2.1, hs]; rfl
    have hbusy : u.rxs ≠ .idle := by
      intro hidle
      cases k with
      | zero => cases hrest; exact hnot hidle
      | succ k => exact steps_rx_idle hidle hsched hrest
    obtain ⟨hstep, hchunk⟩ := step_inChunk hs hin hu hbusy
    have hin' : Within u chunk n := by rw [Within, hchunk]; exact hin
    rw [steps_succ hstep]
    exact ih hsched hin' hrest

/-- Settles O31: the longer chunk has the bytes of the shorter one, after nothing or after what was added. -/
theorem chunkBoundariesDoNotMatter : Obligations.ChunkBoundariesDoNotMatter := by
  unfold Obligations.ChunkBoundariesDoNotMatter
  refine fun s t k a b rest hs _ h hnot => ⟨fun hchunk _ => ?after, fun hchunk => ?before⟩
  case after =>
    have hin : Within s (a ++ b) 0 := fun j x hx => by
      rw [hchunk] at hx
      rw [Nat.zero_add, List.getElem?_append_left (List.getElem?_eq_some_iff.mp hx).1]
      exact hx
    have hrun := steps_inChunk hs hin h hnot
    simpa only [inChunk, Nat.zero_add] using hrun
  case before =>
    have hin : Within s (a ++ b) a.length := fun j x hx => by
      rw [List.getElem?_append_right (Nat.le_add_right _ _), Nat.add_sub_cancel_left, ← hchunk]
      exact hx
    exact steps_inChunk hs hin h hnot

end Sys2Proof.Proofs.ChunkBoundary
end

section
/-! What the invariants give (R280, R294, R296): from a state that meets them a step runs or is not enabled, and a call
that has decided returns. -/

namespace Sys2Proof.Proofs.Progress

open Sys2Proof Sys2Proof.Machine Sys2Proof.Proofs.Effects Sys2Proof.Proofs.RxInvariant
open Sys2Proof.Proofs.StoreInvariants Sys2Proof.Proofs.CallInvariant Sys2Proof.Proofs.Ownership Sys2Proof.Proofs.Turns

variable {s t : State} {i : Instr} {c : Nat} {k : Call} {r : Result}

/-! ### The reset state -/

/-- Settles O56: the tables are empty, and every clause about their members is about none. -/
theorem resetStateMeetsTheInvariants : Obligations.ResetStateMeetsTheInvariants := by
  unfold Obligations.ResetStateMeetsTheInvariants
  have hregy : State.reset.RegyInv := ⟨List.Pairwise.nil, nofun, fun _ _ => Nat.zero_le _⟩
  have hwaiter : State.reset.WaiterInv := ⟨List.Pairwise.nil, nofun, nofun, nofun⟩
  refine ⟨⟨reset_rxInv, hregy, hwaiter, callInv_of_noCalls rfl rfl⟩, ⟨nofun, nofun⟩, ownerInv_of_noCalls rfl, ⟨rfl, ?_⟩,
    State.reset_memory_wf⟩
  intro c k hk
  cases hk

theorem inv_popTurn (h : s.Inv) : s.popTurn.Inv :=
  ⟨rxInv_popTurn h.rx, regyInv_congr h.regy rfl rfl rfl, waiterInv_congr h.waiter rfl rfl, callInv_popTurn h.call⟩

/-! ### The result of a call -/

/-- R242: the result of a call that has decided, by its outcome; a completed one has its payload in the slot. -/
theorem callResult_of_decided (hw : s.WaiterInv) (hd : s.Decided k) :
    (k.out = .timedOut ∧ callResult s k = some .timeout) ∨
      (∃ code, k.out = .wrFailed code ∧ callResult s k = some (.writeErr code)) ∨
      ∃ w v p, k.out = .completed ∧ k.wid = some w ∧ Table.lookup s.waiters w = some v ∧
        Memory.readBytes v.slot 0 v.plen = some p ∧ callResult s k = some (.ok p) := by
  rcases hd with ⟨hout, hdone⟩ | hout | ⟨code, hout⟩
  · obtain ⟨w, v, hwid, hv, hvd⟩ := callDone_iff.mp hdone
    obtain ⟨p, hp⟩ := Memory.readBytes_dense (hw.completed w v hv hvd).2
    exact .inr (.inr ⟨w, v, p, hout, hwid, hv, hp, by rw [callResult_completed hout hwid hv, hp]; rfl⟩)
  · exact .inl ⟨hout, by rw [callResult, hout]⟩
  · exact .inr (.inl ⟨code, hout, by rw [callResult, hout]⟩)

theorem callResult_of_ended (hw : s.WaiterInv) (he : s.Ended k) : ∃ r, callResult s k = some r := by
  rcases he with ⟨-, hd, -⟩ | ⟨-, -, code, hout⟩
  · obtain ⟨-, hr⟩ | ⟨_, -, hr⟩ | ⟨_, _, _, -, -, -, -, hr⟩ := callResult_of_decided hw hd <;> exact ⟨_, hr⟩
  · cases code with
    | errLen => exact ⟨_, by rw [callResult, hout]⟩
    | regFull => exact ⟨_, by rw [callResult, hout]⟩

/-- R241: a decided outcome has its terminal state. -/
theorem terminal_of_decided (hd : s.Decided k) : ∃ st, k.out.terminal = some st := by
  rcases hd with ⟨hout, -⟩ | hout | ⟨code, hout⟩ <;> rw [hout] <;> exact ⟨_, rfl⟩

/-! ### An operation runs, or is not enabled -/

/-- The operation answers a next state, or is not enabled: no other fault and no refusal. -/
def Runs (r : Result) : Prop := (∃ t, r = .next t) ∨ r = .fault .noStep

theorem runs_next (t : State) : Runs (.next t) := .inl ⟨t, rfl⟩

theorem runs_whenGuard {g : Prop} [Decidable g] (h : g → Runs r) : Runs (whenGuard g r) := by
  by_cases hg : g
  · rw [whenGuard_pos r hg]; exact h hg
  · exact .inr (whenGuard_neg r hg)

theorem runs_andThen {f : State → Result} (h : Runs r) (hf : ∀ u, Runs (f u)) : Runs (andThen r f) := by
  rcases h with ⟨u, rfl⟩ | rfl
  · exact hf u
  · exact .inr rfl

theorem runs_ite {g : Prop} [Decidable g] {r' : Result} (h : Runs r) (h' : Runs r') : Runs (if g then r else r') := by
  split_ifs
  · exact h
  · exact h'

theorem runs_inPhase {ph : Phase} {f : Call → Result}
    (h : ∀ k, Table.lookup s.calls c = some k → k.ph = ph → Runs (f k)) : Runs (inPhase s c ph f) := by
  unfold inPhase
  split
  · exact .inr rfl
  · next k hk => exact runs_whenGuard (h k hk)

/-- R207 c: what is latched fits a waiter's slot. -/
theorem runs_runHandler (h : s.RxInv) {l : Latch} (hl : s.dsp = some l) : Runs (runHandler l s) := by
  unfold runHandler
  split
  · next w _ =>
    have hfits : ¬ l.p.length > Config.maxPayload := Nat.not_lt.mpr (h.latch_payload l hl)
    unfold completeWaiter
    rw [if_neg hfits]
    exact runs_ite (runs_next _) (runs_next _)
  · exact runs_next _

theorem runs_rxbEnd (h : s.RxInv) : Runs (execRxbEnd s) := by
  obtain ⟨u, hu⟩ := Assembler.frameDone_completes h
  refine runs_whenGuard fun _ => runs_ite (runs_andThen ?_ fun _ => runs_next _) (runs_next _)
  rw [hu]
  exact runs_next u

theorem runs_reqRegister (h : s.CallInv) : Runs (execReqRegister c s) := by
  refine runs_inPhase fun k hk hph => ?_
  obtain ⟨-, ⟨w, hw, -⟩, -⟩ := (legalCall_built hph).mp (h.legal c k hk)
  rw [hw]
  exact runs_ite (runs_next _) (runs_next _)

theorem runs_txByte : Runs (execTxByte c s) := by
  refine runs_inPhase fun k _ _ => ?_
  split
  · exact .inr rfl
  · exact runs_next _

theorem runs_reqUnreg (h : s.CallInv) : Runs (execReqUnreg c s) := by
  refine runs_inPhase fun k hk hph => ?_
  obtain ⟨-, ha, hd, -⟩ := (legalCall_unreg hph).mp (h.legal c k hk)
  obtain ⟨e, he, -⟩ := ha.eid
  obtain ⟨st, hst⟩ := terminal_of_decided hd
  rw [he, hst]
  exact runs_next _

theorem runs_reqReturn (h : s.CallInv) (hw : s.WaiterInv) : Runs (execReqReturn c s) := by
  refine runs_inPhase fun k hk hph => ?_
  obtain ⟨hended, -⟩ := (legalCall_ret hph).mp (h.legal c k hk)
  obtain ⟨r, hr⟩ := callResult_of_ended hw hended
  rw [hr]
  exact runs_next _

/-- R280: every operation that a turn can select. -/
theorem exec_runs (h : s.Inv) (hi : isInner i = false) : Runs (exec i s) := by
  cases i with
  | rxbEnd => exact runs_rxbEnd h.rx
  | rxbEscEnd | rxbEscEsc | rxbBadEsc | rxbEsc | rxbLit | stuffLit | rxChunk | rxReset | rxReturn =>
    exact runs_whenGuard fun _ => runs_next _
  | stuffEnd | stuffEsc | fcsCompute | fcsVerify | encWire | fcsUpdate | unreg | req | reset | ping | getInfo =>
    exact runs_next _
  | encFrame | reg => exact runs_ite (runs_next _) (runs_next _)
  | frameDone | dspScan | hndWaiter | hndExt => cases hi
  | dspInvoke =>
    refine runs_whenGuard fun _ => ?_
    split
    · exact .inr rfl
    · next l hl => exact runs_andThen (runs_runHandler h.rx hl) fun _ => runs_next _
  | reqBuild c => exact runs_inPhase fun _ _ _ => runs_ite (runs_next _) (runs_next _)
  | reqEncode c | evWrfail c => exact runs_inPhase fun _ _ _ => runs_next _
  | txDone c | reqWake c | evExpire c => exact runs_inPhase fun _ _ _ => runs_whenGuard fun _ => runs_next _
  | reqRegister c => exact runs_reqRegister h.call
  | txByte c => exact runs_txByte
  | reqUnreg c => exact runs_reqUnreg h.call
  | reqReturn c => exact runs_reqReturn h.call h.waiter

theorem eq_of_decode_badOperands {op n : Byte} {args : List Arg}
    (h : decode (.command op args) = .error (.badOperands n)) : n = op := by
  rw [decode, decodeCommand] at h
  split at h
  · cases h
  · split at h <;> cases h
    rfl

/-- R90, assumption 14: the records that are no command are the host's. -/
theorem select_badOperands {turn : Turn} {op : Byte} (h : select s turn = .badOperands op) :
    ∃ args, turn = .host op args := by
  cases turn with
  | host op' args =>
    rw [select, hostSelect] at h
    split at h
    · cases h
    · cases h
    · next n hn =>
      cases h
      obtain rfl := eq_of_decode_badOperands hn
      exact ⟨args, rfl⟩
  | rx => cases hn : rxNext s <;> rw [select, hn] at h <;> cases h
  | call c => cases hn : callNext s c <;> rw [select, hn] at h <;> cases h
  | rxReturn | stuff | fcsUpdate | expire | wrFail | ping | getInfo => cases h

/-- Settles O55: what a turn selects runs or is not enabled, is refused as ill-typed, or is no step. -/
theorem engineNeverFaults : Obligations.EngineNeverFaults := by
  unfold Obligations.EngineNeverFaults
  intro s h
  cases hs : s.schedule with
  | nil =>
    have hidle : step s = .fault .idle := by rw [step, hs]
    rw [hidle]
    exact ⟨fun x hx => by cases hx; exact .inl rfl, nofun⟩
  | cons turn rest =>
    rw [step_of_schedule hs, ← popTurn_eq hs]
    cases hsel : select s turn with
    | op i =>
      obtain ⟨t, ht⟩ | hno := exec_runs (inv_popTurn h) (select_op_isInner hsel)
      · rw [perform, ht]; exact ⟨nofun, nofun⟩
      · rw [perform, hno]; exact ⟨fun x hx => by cases hx; exact .inr rfl, nofun⟩
    | errCmd op => exact ⟨nofun, nofun⟩
    | badOperands op =>
      obtain ⟨args, rfl⟩ := select_badOperands hsel
      exact ⟨nofun, fun x hx => by cases hx; exact ⟨op, args, rfl, rfl⟩⟩
    | noStep => exact ⟨fun x hx => by cases hx; exact .inr rfl, nofun⟩

end Sys2Proof.Proofs.Progress
end

section
/-! Calls and their callers, families 44_arbiter.md and 45_consumers.md: the waiter of a call, its transmission as a
run, its return, and what a consumer makes of the result. -/

namespace Sys2Proof.Proofs.Delivery

open Sys2Proof Sys2Proof.Machine Sys2Proof.Proofs.Arbiter Sys2Proof.Proofs.Turns Sys2Proof.Proofs.CallInvariant
open Sys2Proof.Proofs.Progress

variable {s t : State} {c : Nat} {k : Call} {r : CallResult} {kind : ConsumerKind}

/-! ### Requests -/

/-- Settles O40: the length test decides, before anything is built. -/
theorem buildMakesTheWaiterOrRefuses : Obligations.BuildMakesTheWaiterOrRefuses := by
  unfold Obligations.BuildMakesTheWaiterOrRefuses
  refine fun s c => ⟨fun k hk hph => ⟨fun hfits => ?built, fun hlong => ?refused⟩, fun t h => callIn_of_inPhase_next h⟩
  case built => exact execReqBuild_next.mpr ⟨k, hk, hph, .inr ⟨hfits, rfl⟩⟩
  case refused => exact execReqBuild_next.mpr ⟨k, hk, hph, .inl ⟨hlong, rfl⟩⟩

/-- Settles O46: both are `startConsumer` with the pair and the expected pair of their rule. -/
theorem consumersMakeTheirRequest : Obligations.ConsumersMakeTheirRequest := by
  unfold Obligations.ConsumersMakeTheirRequest
  exact fun s => ⟨rfl, rfl⟩

/-! ### The result and its delivery -/

theorem deliverResult_of_none (h : Table.lookup s.consumers c = none) :
    deliverResult c r s = s.emit (.callReturn c r) := by
  rw [deliverResult, h]

theorem deliverResult_of_waiting (h : Table.lookup s.consumers c = some ⟨kind, none⟩) :
    deliverResult c r s =
      { (s.emit (.callReturn c r)).emit (.consumerReturn c (kind.check r)) with
        consumers := Table.set s.consumers c ⟨kind, some (kind.check r)⟩ } := by
  rw [deliverResult, h]

/-- Settles O45: the outcome gives the result, and without a consumer delivery is one event. -/
theorem reqReturnDeliversTheResult : Obligations.ReqReturnDeliversTheResult := by
  unfold Obligations.ReqReturnDeliversTheResult
  intro s c k r hk hph hcons hout
  have hres : callResult s k = some r := by
    rcases hout with ⟨w, v, p, hout, hw, hv, hp, rfl⟩ | ⟨hout, rfl⟩ | ⟨code, hout, rfl⟩ | ⟨hout, rfl⟩ | ⟨hout, rfl⟩
    · rw [callResult_completed hout hw hv, hp]; rfl
    all_goals rw [callResult, hout]
  refine execReqReturn_next.mpr ⟨k, r, hk, hph, hres, ?_⟩
  exact (deliverResult_of_none (s := s.setCall c { k with res := some r, ph := .fin }) hcons).symm

/-! ### The consumers -/

theorem check_ping (p : Bytes) :
    ConsumerKind.ping.check (.ok p) = if 1 ≤ p.length ∧ p[0]? = some 0x00#8 then .success [] else .protoErr := rfl

theorem check_getInfo (p : Bytes) :
    ConsumerKind.getInfo.check (.ok p) =
      if 10 ≤ p.length ∧ p[0]? = some 0x00#8 then .success ((p.drop 1).take 9) else .protoErr := rfl

theorem check_ping_ok (q : Bytes) : ConsumerKind.ping.check (.ok (0x00#8 :: q)) = .success [] := by
  rw [check_ping, if_pos ⟨Nat.le_add_left 1 q.length, rfl⟩]

theorem check_getInfo_ok {info : Bytes} (q : Bytes) (h : info.length = 9) :
    ConsumerKind.getInfo.check (.ok (0x00#8 :: (info ++ q))) = .success info := by
  have hlen : 10 ≤ (0x00#8 :: (info ++ q)).length := by
    rw [List.length_cons, List.length_append, h]; omega
  rw [check_getInfo, if_pos ⟨hlen, rfl⟩, List.drop_one, List.tail_cons, ← h, List.take_left]

/-- R270, R271: a payload with another status byte, or too short. -/
theorem check_protoErr {p : Bytes} (h : p[0]? ≠ some 0x00#8 ∨ (kind = .getInfo ∧ p.length < 10)) :
    kind.check (.ok p) = .protoErr := by
  cases kind with
  | ping =>
    rw [check_ping, if_neg]
    exact fun hok => h.elim (fun hne => hne hok.2) fun hkind => nomatch hkind.1
  | getInfo =>
    rw [check_getInfo, if_neg]
    exact fun hok => h.elim (fun hne => hne hok.2) fun hshort => Nat.not_lt.mpr hok.1 hshort.2

theorem check_passed (h : ∀ p, r ≠ .ok p) : kind.check r = .passed r := by
  cases r with
  | ok p => exact absurd rfl (h p)
  | timeout | writeErr | errLen | regFull => cases kind <;> rfl

/-- Settles O47: the call's result is the one delivered to nobody in the step without consumers, and `check` of it
follows the four cases. -/
theorem consumersCheckTheResult : Obligations.ConsumersCheckTheResult := by
  unfold Obligations.ConsumersCheckTheResult
  intro s t c k kind r v hk hph hcons hexec hhist hv
  obtain ⟨k', r', hk', -, hres, rfl⟩ := execReqReturn_next.mp hexec
  obtain rfl := Option.some.inj (hk.symm.trans hk')
  rw [deliverResult_of_none rfl] at hhist ⊢
  obtain rfl : r' = r := by simpa using hhist
  have hcheck : kind.check r' = v := by
    rcases hv with ⟨rfl, q, rfl, rfl⟩ | ⟨rfl, info, q, rfl, hinfo, rfl⟩ | ⟨p, rfl, hbad, rfl⟩ | ⟨hnot, rfl⟩
    · exact check_ping_ok q
    · exact check_getInfo_ok q hinfo
    · exact check_protoErr hbad
    · exact check_passed hnot
  refine execReqReturn_next.mpr ⟨k, r', hk, hph, hres, ?_⟩
  rw [deliverResult_of_waiting (s := s.setCall c { k with res := some r', ph := .fin }) hcons, hcheck]
  simp only [State.emit, State.setCall, List.append_assoc, List.cons_append, List.nil_append]

/-! ### The return of a decided call -/

/-- R241: the first step, with what the phase table says the call has. -/
theorem step_unreg {rest : List Turn} (h : s.CallInv) (hk : Table.lookup s.calls c = some k) (hph : k.ph = .unreg)
    (hs : s.schedule = .call c :: rest) :
    ∃ e st, k.eid = some e ∧
      step s = .next (({ s with schedule := rest }.unregister e).setCall c { k with st := st, ph := .ret }) := by
  obtain ⟨-, ha, hd, -⟩ := (legalCall_unreg hph).mp (h.legal c k hk)
  obtain ⟨e, he, -⟩ := ha.eid
  obtain ⟨st, hst⟩ := terminal_of_decided hd
  refine ⟨e, st, he, ?_⟩
  rw [step_of_callNext hs (callNext_unreg hk hph)]
  exact execReqUnreg_next.mpr ⟨k, e, st, hk, hph, he, hst, rfl⟩

/-- R242: the second step. -/
theorem step_return {rest : List Turn} (hk : Table.lookup s.calls c = some k) (hph : k.ph = .ret)
    (hr : callResult s k = some r) (hs : s.schedule = .call c :: rest) :
    step s =
      .next (deliverResult c r ({ s with schedule := rest }.setCall c { k with res := some r, ph := .fin })) := by
  rw [step_of_callNext hs (callNext_ret hk hph)]
  exact execReqReturn_next.mpr ⟨k, r, hk, hph, hr, rfl⟩

/-- R242: delivery writes outputs and consumers only. -/
theorem deliverResult_frame (c : Nat) (r : CallResult) (s : State) :
    (deliverResult c r s).calls = s.calls ∧ (deliverResult c r s).regy = s.regy ∧
      (deliverResult c r s).linkView = s.linkView ∧ (deliverResult c r s).waiters = s.waiters := by
  rw [deliverResult_writes]
  exact ⟨rfl, rfl, rfl, rfl⟩

/-- The two steps of a decided call whose result is `r`. -/
theorem steps_decided {rest : List Turn} (h : s.CallInv) (hk : Table.lookup s.calls c = some k) (hph : k.ph = .unreg)
    (hs : s.schedule = .call c :: .call c :: rest) (hr : callResult s k = some r) :
    ∃ t k', steps 2 s = .next t ∧ Table.lookup t.calls c = some k' ∧ k'.ph = .fin ∧ k'.res = some r ∧
      (∀ e ∈ t.regy, k.eid ≠ some e.eid) ∧ t.linkView = s.linkView ∧ t.waiters = s.waiters ∧
      ∀ c', c' ≠ c → Table.lookup t.calls c' = Table.lookup s.calls c' := by
  obtain ⟨e, st, he, hunreg⟩ := step_unreg h hk hph hs
  have hreturn := step_return (Table.lookup_set_same s.calls c { k with st := st, ph := .ret }) rfl hr
    (s := ({ s with schedule := .call c :: rest }.unregister e).setCall c { k with st := st, ph := .ret }) rfl
  obtain ⟨hcalls, hregy, hlink, hwaiters⟩ := deliverResult_frame c r _
  have hsteps := (steps_succ (k := 1) hunreg).trans ((steps_succ (k := 0) hreturn).trans (steps_zero _))
  refine ⟨_, { k with st := st, ph := .fin, res := some r }, hsteps, ?_, rfl, rfl, ?_, hlink, hwaiters, ?_⟩
  · rw [hcalls]
    exact Table.lookup_set_same _ _ _
  · rw [hregy, he]
    intro x hx heq
    have hne := (List.mem_filter.mp hx).2
    rw [Option.some.inj heq, bne_self_eq_false] at hne
    cases hne
  · intro c' hne
    rw [hcalls]
    exact (Table.lookup_set_other _ _ hne).trans (Table.lookup_set_other _ _ hne)

/-- Settles O48: the two steps run, and the result is the one the outcome stands for. -/
theorem decidedCallReturnsInTwoSteps : Obligations.DecidedCallReturnsInTwoSteps := by
  unfold Obligations.DecidedCallReturnsInTwoSteps
  intro s c k rest h hk hph hs
  obtain ⟨-, -, hd, -⟩ := (legalCall_unreg hph).mp (h.call.legal c k hk)
  rcases callResult_of_decided h.waiter hd with ⟨hout, hr⟩ | ⟨code, hout, hr⟩ | ⟨w, v, p, hout, hw, hv, hp, hr⟩
  · obtain ⟨t, k', hsteps, hk', hfin, hres, hrest⟩ := steps_decided h.call hk hph hs hr
    exact ⟨t, k', hsteps, hk', hfin, .inl ⟨hout, hres⟩, hrest⟩
  · obtain ⟨t, k', hsteps, hk', hfin, hres, hrest⟩ := steps_decided h.call hk hph hs hr
    exact ⟨t, k', hsteps, hk', hfin, .inr (.inl ⟨code, hout, hres⟩), hrest⟩
  · obtain ⟨t, k', hsteps, hk', hfin, hres, hrest⟩ := steps_decided h.call hk hph hs hr
    exact ⟨t, k', hsteps, hk', hfin, .inr (.inr ⟨w, v, p, hout, hw, hv, hp, hres⟩), hrest⟩

/-! ### The transmission -/

theorem table_set_set {α : Type} (t : Table α) (k : Nat) (u v : α) :
    Table.set (Table.set t k u) k v = Table.set t k v := by
  induction t with
  | nil => simp [Table.set]
  | cons x t ih =>
    obtain ⟨j, w⟩ := x
    simp only [Table.set]
    split_ifs with hlt heq
    · simp [Table.set]
    · simp [Table.set]
    · simp [Table.set, hlt, heq, ih]

/-- In canonical form, writing what is there changes nothing. -/
theorem table_set_lookup {α : Type} {t : Table α} (hwf : Table.wf t) {k : Nat} {v : α}
    (h : Table.lookup t k = some v) : Table.set t k v = t := by
  induction t with
  | nil => cases h
  | cons x t ih =>
    obtain ⟨j, u⟩ := x
    obtain ⟨hhead, htail⟩ := List.pairwise_cons.mp hwf
    rw [Table.lookup] at h
    split_ifs at h with heq
    · cases h
      simp [Table.set, heq]
    · have hmem : k ∈ t.map Prod.fst := (Table.lookup_isSome_iff t k).mp (by rw [h]; rfl)
      obtain ⟨y, hy, rfl⟩ := List.mem_map.mp hmem
      have hlt := hhead y hy
      rw [Table.set, if_neg (Nat.lt_asymm hlt), if_neg heq, ih htail h]

/-- R235: one byte on the call's turn. -/
theorem step_txByte {rest : List Turn} {b : Byte} (hk : Table.lookup s.calls c = some k) (hph : k.ph = .send)
    (hb : k.wire[k.cur]? = some b) (hs : s.schedule = .call c :: rest) :
    step s = .next { s with
      history := s.history ++ [.tx b], calls := Table.set s.calls c { k with cur := k.cur + 1 },
      schedule := rest } := by
  rw [step_of_callNext hs (callNext_send_byte hk hph (List.getElem?_eq_some_iff.mp hb).1)]
  exact execTxByte_next.mpr ⟨k, b, hk, hph, hb, rfl⟩

/-- R235: by induction on the number of bytes left. -/
theorem steps_send {rest : List Turn} (n : Nat) (hwf : Table.wf s.calls) (hk : Table.lookup s.calls c = some k)
    (hph : k.ph = .send) (hn : k.cur + n = k.wire.length) (hs : s.schedule = List.replicate n (.call c) ++ rest) :
    steps n s = .next { s with
      calls := Table.set s.calls c { k with cur := k.wire.length }
      history := s.history ++ (k.wire.drop k.cur).map .tx
      schedule := rest } := by
  induction n generalizing s k with
  | zero =>
    have hcur : k.cur = k.wire.length := hn
    have hsame : Table.set s.calls c { k with cur := k.wire.length } = s.calls := by
      rw [← hcur]; exact table_set_lookup hwf hk
    have hrest : s.schedule = rest := hs
    rw [hsame, hcur, List.drop_length, List.map_nil, List.append_nil, ← hrest]
    rfl
  | succ n ih =>
    have hlt : k.cur < k.wire.length := by omega
    have hs' : s.schedule = .call c :: (List.replicate n (.call c) ++ rest) := hs
    have hstep := step_txByte hk hph (List.getElem?_eq_getElem hlt) hs'
    have hrun := ih (Table.set_wf hwf c _) (Table.lookup_set_same s.calls c { k with cur := k.cur + 1 }) hph
      (by change k.cur + 1 + n = k.wire.length; omega)
      (s := { s with
        history := s.history ++ [.tx k.wire[k.cur]], calls := Table.set s.calls c { k with cur := k.cur + 1 },
        schedule := List.replicate n (.call c) ++ rest }) rfl
    rw [steps_succ hstep, hrun]
    simp only [table_set_set, List.drop_eq_getElem_cons hlt, List.map_cons, List.append_assoc, List.singleton_append]

/-- Settles O49: the bytes left are those from the cursor on. -/
theorem sendEmitsTheWireInOrder : Obligations.SendEmitsTheWireInOrder := by
  unfold Obligations.SendEmitsTheWireInOrder
  intro s c k rest hwf hk hph hcur hs
  exact steps_send _ hwf hk hph (Nat.add_sub_cancel' hcur) hs

end Sys2Proof.Proofs.Delivery
end
